-- ==== Sys2Proof/Word.lean ====
section
/-! DEFINITION. The word types of the block (00_scope.md R9, R11): bytes, 16-bit fields and 32-bit words. -/

namespace Sys2Proof

/-- A byte value, 0 to 255 (R11). -/
abbrev Byte := BitVec 8

/-- A 16-bit field: `cmd`, `data_len`, the CRC16 value, an `arg16` operand, a ring index register (R9). -/
abbrev Half := BitVec 16

/-- A host command word, a response value, `FAULT` or `FAULT_INFO` (R9). -/
abbrev Word := BitVec 32

end Sys2Proof
end

