-- ==== Sys2Proof/Config.lean ====
section
/-! DEFINITION. What a block is configured with before its first reset (00_scope.md R5, R6; 70_reset_and_hazards.md
R905), and the fixed framing constants (R8). The layout derived from it and the checks on it are in
Machine/Layout.lean. The spec leaves no value free, so there is no opaque constant here. -/

namespace Sys2Proof

/-- `SOF` (R8). -/
def sof : Byte := 0xA5

/-- `HEADER_SIZE` (R8). -/
def headerSize : Nat := 7

/-- `TAIL_SIZE` (R8). -/
def tailSize : Nat := 2

/-- One entry `T_i = (cmd, size, align)` of `REGISTRY` (R6, R109). -/
structure Entry where
  cmd   : Half
  size  : Nat
  align : Nat
deriving DecidableEq, Repr

/-- A configuration: `RING_SIZE`, written `N` (R5), and `REGISTRY` in declaration order (R6).
Both are OPEN parameters of the spec (92_eei_decisions.md P1, P2). -/
structure Config where
  ringSize : Nat
  registry : List Entry
deriving DecidableEq, Repr

end Sys2Proof
end

