-- ==== Sys2Proof/Syntax.lean ====
section
/-! DEFINITION. The instructions of spec/opcode_table.json, one constructor per row, and their encoded forms. -/

namespace Sys2Proof

/-- The 13 host commands (30_encoding.md R313) and the two wire units the engine decodes (R309). -/
inductive Instr where
  /-- PUSH: `len` and the data bytes of the data channel (R312, R410). -/
  | push (len : Half) (data : List Byte)
  /-- WVIEW (R411). -/
  | wview
  /-- VWRITE `i, b` (R412). -/
  | vwrite (i : Half) (b : Byte)
  /-- ADVANCE `n` (R413). -/
  | advance (n : Half)
  /-- CLEAR (R414). -/
  | clear
  /-- AVAIL (R415). -/
  | avail
  /-- SPACE (R416). -/
  | space
  /-- FULL (R418). -/
  | full
  /-- EMPTY (R417). -/
  | empty
  /-- LOOKUP `cmd` (R511). -/
  | lookup (cmd : Half)
  /-- ARENA_READ `addr` (R512). -/
  | arenaRead (addr : Half)
  /-- FAULTS (R811). -/
  | faults
  /-- FAULTINFO (R812). -/
  | faultinfo
  /-- A wire frame's header at the head of the committed bytes (R301, R302, R604); the payload and the tail are
  read from the ring. -/
  | frame (cmd len : Half) (seq crc : Byte)
  /-- A byte other than SOF at the head of the committed bytes (R309, R603). -/
  | junk (b : Byte)
deriving DecidableEq, Repr

/-- An instruction as it arrives: a command word on the port with its data bytes (R310, R312), or bytes of the ring
(R309). -/
inductive Code where
  | host (word : Word) (data : List Byte)
  | wire (bytes : List Byte)
deriving DecidableEq, Repr

/-- Why a code is no instruction. The first four are R314's illegal words; the last is a wire unit whose bytes have
not all arrived. -/
inductive DecodeError where
  /-- `op` is 0x0, 0xE or 0xF. -/
  | reservedOpcode
  /-- `rsv` is not 0. -/
  | reservedBits
  /-- A field the opcode does not use is not 0. -/
  | unusedField
  /-- PUSH: the number of data bytes differs from `len`. -/
  | dataCount
  /-- No byte, or a SOF with fewer than seven bytes. -/
  | shortUnit
deriving DecidableEq, Repr

end Sys2Proof
end

