-- ==== Sys2Proof/WellFormed.lean ====
section
/-! DEFINITION. Which terms of `Instr` an encoding can carry (30_encoding.md R309, R312). -/

namespace Sys2Proof

/-- PUSH carries exactly `len` data bytes (R312); a junk byte is any byte but SOF (R309). Every other operand may take
every value of its field. -/
def Instr.wf : Instr → Bool
  | .push len data => data.length == len.toNat
  | .wview => true
  | .vwrite _ _ => true
  | .advance _ => true
  | .clear => true
  | .avail => true
  | .space => true
  | .full => true
  | .empty => true
  | .lookup _ => true
  | .arenaRead _ => true
  | .faults => true
  | .faultinfo => true
  | .frame _ _ _ _ => true
  | .junk b => b != sof

/-- A well-formed instruction. -/
abbrev Instr.WellFormed (i : Instr) : Prop := i.wf = true

end Sys2Proof
end

