-- ==== Sys2Proof/Decode.lean ====
section
/-! DEFINITION. The decoder of host command words (30_encoding.md R310 to R314) and of wire units (R302, R309), total
and rejecting by name, and the encoder of the same tables. -/

namespace Sys2Proof

/-! ### Byte order and fields -/

/-- `LE16(lo, hi)` (00_scope.md R13). -/
def le16 (lo hi : Byte) : Half := hi ++ lo

/-- Bits 7:0 of a 16-bit value: the first byte on the wire (R13). -/
def lowByte (v : Half) : Byte := v.extractLsb' 0 8

/-- Bits 15:8 of a 16-bit value: the second byte on the wire (R13). -/
def highByte (v : Half) : Byte := v.extractLsb' 8 8

/-- `op = word[31:28]` (R310). -/
def opField (w : Word) : BitVec 4 := w.extractLsb' 28 4

/-- `rsv = word[27:24]` (R310). -/
def rsvField (w : Word) : BitVec 4 := w.extractLsb' 24 4

/-- `arg16 = word[23:8]` (R310, R311). -/
def argField (w : Word) : Half := w.extractLsb' 8 16

/-- `data8 = word[7:0]` (R310, R311). -/
def dataField (w : Word) : Byte := w.extractLsb' 0 8

/-- The command word with `rsv = 0` (R310). -/
def hostWord (op : BitVec 4) (arg : Half) (d : Byte) : Word := op ++ (0#4) ++ arg ++ d

/-! ### Decoding -/

/-- An opcode without operands: `arg16` and `data8` must be 0 (R314). -/
def decodePlain (w : Word) (i : Instr) : Except DecodeError Instr :=
  if argField w = 0 ∧ dataField w = 0 then .ok i else .error .unusedField

/-- An opcode whose only operand is `arg16`: `data8` must be 0 (R314). -/
def decodeArg (w : Word) (i : Half → Instr) : Except DecodeError Instr :=
  if dataField w = 0 then .ok (i (argField w)) else .error .unusedField

/-- PUSH: `data8 = 0` and exactly `len` data bytes (R312, R314). -/
def decodePush (w : Word) (data : List Byte) : Except DecodeError Instr :=
  if dataField w ≠ 0 then .error .unusedField
  else if data.length ≠ (argField w).toNat then .error .dataCount
  else .ok (.push (argField w) data)

/-- The opcode map of R313, every other word rejected by name (R314). Data bytes beside a word other than PUSH are not
looked at (DESIGN CHOICE, unsafe: notes/assumptions/10.md). -/
def decodeHost (w : Word) (data : List Byte) : Except DecodeError Instr :=
  if rsvField w ≠ 0 then .error .reservedBits
  else match (opField w).toNat with
    | 1 => decodePush w data
    | 2 => decodePlain w .wview
    | 3 => .ok (.vwrite (argField w) (dataField w))
    | 4 => decodeArg w .advance
    | 5 => decodePlain w .clear
    | 6 => decodePlain w .avail
    | 7 => decodePlain w .space
    | 8 => decodePlain w .full
    | 9 => decodePlain w .empty
    | 10 => decodeArg w .lookup
    | 11 => decodeArg w .arenaRead
    | 12 => decodePlain w .faults
    | 13 => decodePlain w .faultinfo
    | _ => .error .reservedOpcode

/-- The wire unit at the head of a byte sequence: SOF starts a seven-byte header, decoded by R302; any other byte is
junk (R309). -/
def decodeWire : List Byte → Except DecodeError Instr
  | [] => .error .shortUnit
  | b :: rest =>
    if b = sof then
      match rest with
      | c0 :: c1 :: l0 :: l1 :: seq :: crc :: _ => .ok (.frame (le16 c0 c1) (le16 l0 l1) seq crc)
      | _ => .error .shortUnit
    else .ok (.junk b)

/-- The decoder of both kinds of input. -/
def decode : Code → Except DecodeError Instr
  | .host w data => decodeHost w data
  | .wire bytes => decodeWire bytes

/-! ### Encoding -/

/-- The six header bytes the CRC8 covers, offsets 0 to 5 (R301; 90_conflicts.md C1). -/
def headerBody (cmd len : Half) (seq : Byte) : List Byte :=
  [sof, lowByte cmd, highByte cmd, lowByte len, highByte len, seq]

/-- The encoding of an instruction: its command word and data bytes (R313), or its wire bytes (R301). -/
def encode : Instr → Code
  | .push len data => .host (hostWord 1 len 0) data
  | .wview => .host (hostWord 2 0 0) []
  | .vwrite i b => .host (hostWord 3 i b) []
  | .advance n => .host (hostWord 4 n 0) []
  | .clear => .host (hostWord 5 0 0) []
  | .avail => .host (hostWord 6 0 0) []
  | .space => .host (hostWord 7 0 0) []
  | .full => .host (hostWord 8 0 0) []
  | .empty => .host (hostWord 9 0 0) []
  | .lookup cmd => .host (hostWord 10 cmd 0) []
  | .arenaRead addr => .host (hostWord 11 addr 0) []
  | .faults => .host (hostWord 12 0 0) []
  | .faultinfo => .host (hostWord 13 0 0) []
  | .frame cmd len seq crc => .wire (headerBody cmd len seq ++ [crc])
  | .junk b => .wire [b]

/-! ### Words as spec/opcode_table.json numbers them -/

/-- The data bytes of a table row's command word: `len` zeros after a PUSH word, none after another. -/
def tableData (w : Word) : List Byte :=
  if opField w = 1 then List.replicate (argField w).toNat 0 else []

/-- `n` bytes of a number, byte 0 the most significant: how the table numbers a wire row (R309). -/
def bigEndianBytes : Nat → Nat → List Byte
  | 0, _ => []
  | n + 1, w => BitVec.ofNat 8 (w / 2 ^ (8 * n)) :: bigEndianBytes n w

/-- The bytes of a wire row of `nbits` bits, with zeros after them up to a header's length. -/
def tableWireBytes (nbits w : Nat) : List Byte :=
  (bigEndianBytes (nbits / 8) w ++ List.replicate headerSize 0).take headerSize

/-- The code a table row's number stands for: rows of 32 bits are command words, rows of another width are wire
units. -/
def tableCode (nbits w : Nat) : Code :=
  if nbits = 32 then .host (BitVec.ofNat 32 w) (tableData (BitVec.ofNat 32 w))
  else .wire (tableWireBytes nbits w)

/-- The instruction the decoder reads from a table row's number. -/
def decodeTableWord (nbits w : Nat) : Option Instr :=
  match decode (tableCode nbits w) with
  | .ok i => some i
  | .error _ => none

end Sys2Proof
end

