-- ==== Sys2Proof/Machine/State.lean ====
section
/-! DEFINITION. The state of the block (10_state.md), the reasons a step can stop, and the state after reset
(70_reset_and_hazards.md R901). -/

namespace Sys2Proof.Machine

/-- The five fault kinds of the block (10_state.md R107; 60_exceptions.md R804 to R808). -/
inductive FaultKind where
  | illegalCommand
  | viewRange
  | undefByte
  | arenaOverrun
  | arenaRange
deriving DecidableEq, Repr

/-- The status names of 30_encoding.md R316. The block produces `ok`, `bufferOverflow` and `faulted`; the six between
are the source's reserved names. -/
inductive Status where
  | ok
  | bufferOverflow
  | insufficientData
  | noFrameHeader
  | invalidFrameHeader
  | crcMismatch
  | internalError
  | invalidCommand
  | faulted
deriving DecidableEq, Repr

/-- The response that ends a host command (30_encoding.md R315). -/
structure Response where
  status : Status
  value  : Word
deriving DecidableEq, Repr

/-- What the host does to the block: a command word with the bytes it puts on the data channel (30_encoding.md R310,
R312), or a reset, which is an event and not a command (70_reset_and_hazards.md R902). -/
inductive HostEvent where
  | command (word : Word) (data : List Byte)
  | reset
deriving DecidableEq, Repr

/-- A memory of bytes: the listed cells, in strictly rising order of address (notes/assumptions/7.md). -/
abbrev Memory := List Host.Cell

/-- Why a step stops with a fault. The block's own faults are next states (60_exceptions.md R803), so only the model's
internal error is one. -/
inductive Fault where
  /-- Raised by the drain when its budget of passes runs out. R612 says this cannot happen. Safe: the model stops where
  the block would go on. -/
  | drainStuck
deriving DecidableEq, Repr

/-- Why a step refuses. -/
inductive Refusal where
  /-- An instruction without a meaning. No arm of `exec` answers it. Safe. -/
  | notModelled (mnemonic : String)
  /-- Raised by every command and by `step` on a configuration that fails a check of 70_reset_and_hazards.md R905: it is
  not a block and no command runs on it. Safe. -/
  | badConfiguration
deriving DecidableEq, Repr

/-- The state of the block, its configuration, and the host's side of the port. -/
structure State where
  /-- `RING_SIZE` and `REGISTRY`: constants of the block, which no step changes (R905). -/
  cfg       : Config
  /-- `RD`, the read index (R101). -/
  rd        : Half
  /-- `WR`, the write index (R102). -/
  wr        : Half
  /-- `RING`: a listed cell holds a byte, an unlisted one is `UNDEF` (R103). -/
  ring      : Memory
  /-- `ARENA`: an unlisted byte is `0x00` (R104). -/
  arena     : Memory
  /-- `FAULT` (R107). -/
  fault     : Word
  /-- `FAULT_INFO` (R108). -/
  faultInfo : Word
  /-- The model's own: host events not yet taken, in issue order (notes/assumptions/2.md). -/
  port      : List HostEvent
  /-- The model's own: the responses given, oldest first (notes/assumptions/3.md). -/
  responses : List Response
deriving DecidableEq, Repr

/-- The outcome of one step or one instruction. -/
abbrev Result := Host.Outcome State Fault Refusal

/-- The state after reset of a block with configuration `c` (R901): indices 0, every ring cell `UNDEF`, every arena
byte 0, no fault. -/
def State.resetOf (c : Config) : State where
  cfg := c
  rd := 0
  wr := 0
  ring := []
  arena := []
  fault := 0
  faultInfo := 0
  port := []
  responses := []

/-- The configuration `State.reset` takes: the spec's running example `REG_A` (42_registry_dispatch.md) with `N = 32`,
the pair most of 95_test_vectors.md's vectors use (DESIGN CHOICE, unsafe: notes/assumptions/1.md). -/
def exampleConfig : Config where
  ringSize := 32
  registry := [⟨0x0101, 3, 1⟩, ⟨0x0302, 4, 4⟩, ⟨0x0201, 2, 2⟩, ⟨0x0001, 1, 8⟩]

/-- The machine right after reset. -/
def State.reset : State := State.resetOf exampleConfig

end Sys2Proof.Machine
end

