-- ==== Sys2Proof/Machine/Layout.lean ====
section
/-! DEFINITION. The registry's layout, its lookup function and the configuration checks (00_scope.md R5, R7;
42_registry_dispatch.md R501 to R508; 70_reset_and_hazards.md R905). -/

namespace Sys2Proof

/-- The least multiple of `a` that is at least `x` (R502). -/
def alignUp (x a : Nat) : Nat := (x + a - 1) / a * a

/-- A registry entry with its `OFFSET` (R502, R109). -/
structure Slot where
  entry  : Entry
  offset : Nat
deriving DecidableEq, Repr

/-- The slots of `entries`, the first placed at the first aligned address from `cursor` on (R502). -/
def slotsFrom : Nat → List Entry → List Slot
  | _, [] => []
  | cursor, e :: es => ⟨e, alignUp cursor e.align⟩ :: slotsFrom (alignUp cursor e.align + e.size) es

/-- The address after the last of `entries` laid out from `cursor` on (R503). -/
def endFrom : Nat → List Entry → Nat
  | cursor, [] => cursor
  | cursor, e :: es => endFrom (alignUp cursor e.align + e.size) es

/-- Every slot of the registry, in declaration order; `OFFSET(0) = 0` (R502). -/
def Config.slots (c : Config) : List Slot := slotsFrom 0 c.registry

/-- `OFFSET(i)` (R502), none past the last entry. -/
def Config.offset (c : Config) (i : Nat) : Option Nat := c.slots[i]?.map Slot.offset

/-- `TOTAL` (R503). -/
def Config.total (c : Config) : Nat := endFrom 0 c.registry

/-- `MAXP` (R504). -/
def Config.maxPayload (c : Config) : Nat := c.registry.foldr (fun e m => max e.size m) 0

/-- `MAX_FRAME` (R505). -/
def Config.maxFrame (c : Config) : Nat := headerSize + c.maxPayload + tailSize

/-- `SlotOf(cmd)`: the slot of a known cmd, none for an unknown one (R506). -/
def Config.slotOf (c : Config) (cmd : Half) : Option Slot := c.slots.find? (fun s => s.entry.cmd == cmd)

/-! ### Configuration checks (R905) -/

/-- `N = 2^k` with `1 <= k <= 15` (R5). -/
def Config.ringPow2 (c : Config) : Bool := (List.range 15).any (fun k => c.ringSize == 2 ^ (k + 1))

/-- `liveness_fit`: `MAX_FRAME <= N - 1` (R7). -/
def Config.livenessFit (c : Config) : Bool := decide (c.maxFrame ≤ c.ringSize - 1)

/-- `reg_nonempty` (R501 (a)). -/
def Config.regNonempty (c : Config) : Bool := !c.registry.isEmpty

/-- `cmd_unique` (R501 (b)). -/
def Config.cmdUnique (c : Config) : Bool := decide ((c.registry.map Entry.cmd).Nodup)

/-- `size_pos` (R501 (c)). -/
def Config.sizePos (c : Config) : Bool := c.registry.all (fun e => decide (1 ≤ e.size))

/-- `align_pow2`: every alignment is `2^a` (R501 (d)). -/
def Config.alignPow2 (c : Config) : Bool := c.registry.all (fun e => e.align == 2 ^ e.align.log2)

/-- `arena_fit`: `TOTAL <= 65536` (R501 (e)). -/
def Config.arenaFit (c : Config) : Bool := decide (c.total ≤ 65536)

/-- Every check passes, so the configuration is a block (R905). -/
def Config.valid (c : Config) : Bool :=
  c.ringPow2 && c.livenessFit && c.regNonempty && c.cmdUnique && c.sizePos && c.alignPow2 && c.arenaFit

/-- The deployment check `ring_4x`, reported and never a reason to refuse (R7). -/
def Config.ring4x (c : Config) : Bool := decide (4 * c.maxFrame ≤ c.ringSize)

end Sys2Proof
end

