-- ==== Sys2Proof/Machine/Operands.lean ====
section
/-! DEFINITION. What the instructions read: memory cells, the ring's derived quantities (41_ring_buffer.md R401 to
R408) and examined bytes (00_scope.md R14). -/

namespace Sys2Proof.Machine

/-! ### Reading a memory -/

/-- What an unlisted ring cell reads as: `UNDEF` (R103). -/
def ringUnlisted : Option Byte := none

/-- What an unlisted arena byte reads as: `0x00` (R104). -/
def arenaUnlisted : Option Byte := some 0

/-- The cell at `a`, `u` where none is listed. -/
def Memory.read (u : Option Byte) : Memory → Nat → Option Byte
  | [], _ => u
  | (k, c) :: m, a => if a = k then some c else Memory.read u m a

/-- The canonical form: addresses strictly rising, and no entry equal to what an unlisted address reads as. -/
def Memory.wf (u : Option Byte) : Memory → Bool
  | [] => true
  | (k, c) :: m => some c != u && m.all (fun e => decide (k < e.1)) && Memory.wf u m

/-- Every listed address lies below `n`. -/
def Memory.below (n : Nat) (m : Memory) : Bool := m.all (fun e => decide (e.1 < n))

/-- `RING[p]`: a byte, or none for `UNDEF` (R14, R103). -/
def State.ringCell (s : State) (p : Nat) : Option Byte := Memory.read ringUnlisted s.ring p

/-- `ARENA[a]` (R14, R104). -/
def State.arenaByte (s : State) (a : Nat) : Byte := (Memory.read arenaUnlisted s.arena a).getD 0

/-! ### Derived quantities -/

/-- `N` (R5). -/
def State.ringSize (s : State) : Nat := s.cfg.ringSize

/-- `AVAIL = (WR - RD) mod N` (R401), for indices in `[0, N)`. -/
def State.avail (s : State) : Nat := (s.wr.toNat + s.ringSize - s.rd.toNat) % s.ringSize

/-- `SPACE = N - 1 - AVAIL` (R402). -/
def State.space (s : State) : Nat := s.ringSize - 1 - s.avail

/-- `RVIEW`, the length of the readable view (R405). -/
def State.rview (s : State) : Nat :=
  if s.rd.toNat ≤ s.wr.toNat then s.wr.toNat - s.rd.toNat else s.ringSize - s.rd.toNat

/-- `WVIEW_LEN`, the length of the writable view (R406). -/
def State.wviewLen (s : State) : Nat :=
  if s.rd.toNat = 0 then s.ringSize - 1 - s.wr.toNat
  else if s.rd.toNat ≤ s.wr.toNat then s.ringSize - s.wr.toNat
  else s.rd.toNat - 1 - s.wr.toNat

/-- The physical cell at logical offset `j` from the read index (R14). -/
def State.cellAt (s : State) (j : Nat) : Nat := (s.rd.toNat + j) % s.ringSize

/-- `B(j)`: the examined byte at logical offset `j`, none where the cell is `UNDEF` (R14). -/
def State.byteAt (s : State) (j : Nat) : Option Byte := s.ringCell (s.cellAt j)

/-- A peek: the `n` examined bytes from logical offset `j` on, in order, or the physical index of the first `UNDEF`
cell among them (R407, R620). -/
def State.peek (s : State) : Nat → Nat → Except Nat (List Byte)
  | _, 0 => .ok []
  | j, n + 1 =>
    match s.byteAt j with
    | none => .error (s.cellAt j)
    | some b =>
      match s.peek (j + 1) n with
      | .error p => .error p
      | .ok bs => .ok (b :: bs)

/-- The result of a byte search over examined bytes. -/
inductive ScanResult where
  /-- The cell examined next is `UNDEF`, at this physical index. -/
  | undef (cell : Nat)
  /-- No such byte among those searched: `NONE` of R602, `NOT_FOUND` of R408. -/
  | notFound
  /-- The least offset that holds the byte. -/
  | found (offset : Nat)
deriving DecidableEq, Repr

/-- Examine `n` bytes from logical offset `j` on, in order, up to the first that is `b` (R602, R620). -/
def State.scanFor (s : State) (b : Byte) : Nat → Nat → ScanResult
  | _, 0 => .notFound
  | j, n + 1 =>
    match s.byteAt j with
    | none => .undef (s.cellAt j)
    | some c => if c = b then .found j else s.scanFor b (j + 1) n

/-- `Scan(v)`: the first SOF among the first `v` bytes (R602). -/
def State.scan (s : State) (v : Nat) : ScanResult := s.scanFor sof 0 v

/-- `FindByte(b)`: the first `b` among the committed bytes, across the wrap (R408). No instruction uses it. -/
def State.findByte (s : State) (b : Byte) : ScanResult := s.scanFor b 0 s.avail

end Sys2Proof.Machine
end

