-- ==== Sys2Proof/Machine/Flags.lean ====
section
/-! DEFINITION. The derived flags (10_state.md R106), the fault register's bits (R107) and the status codes
(30_encoding.md R316). The block stores no flag. -/

namespace Sys2Proof.Machine

/-- `EMPTY = (AVAIL == 0)` (R106). -/
def State.isEmpty (s : State) : Bool := s.avail == 0

/-- `FULL = (SPACE == 0)` (R106). -/
def State.isFull (s : State) : Bool := s.space == 0

/-- The response value of a flag query: 1 for true, 0 for false (R315). -/
def flagValue (b : Bool) : Word := if b then 1 else 0

/-- The bit of `FAULT` a fault sets (R107). -/
def FaultKind.bit : FaultKind → Nat
  | .illegalCommand => 0
  | .viewRange => 1
  | .undefByte => 2
  | .arenaOverrun => 3
  | .arenaRange => 4

/-- `1 << bit(kind)` (R803). -/
def FaultKind.mask (k : FaultKind) : Word := 1#32 <<< k.bit

/-- *Faulted* means `FAULT != 0` (00_scope.md R18). -/
def State.isFaulted (s : State) : Bool := s.fault != 0

/-- The 4-bit code of a status (R316). -/
def Status.code : Status → BitVec 4
  | .ok => 0x0
  | .bufferOverflow => 0x1
  | .insufficientData => 0x2
  | .noFrameHeader => 0x3
  | .invalidFrameHeader => 0x4
  | .crcMismatch => 0x5
  | .internalError => 0x6
  | .invalidCommand => 0x7
  | .faulted => 0xF

/-- The statuses this block produces (R316, R801). -/
def Status.produced : Status → Bool
  | .ok => true
  | .bufferOverflow => true
  | .faulted => true
  | .insufficientData => false
  | .noFrameHeader => false
  | .invalidFrameHeader => false
  | .crcMismatch => false
  | .internalError => false
  | .invalidCommand => false

end Sys2Proof.Machine
end

