-- ==== Sys2Proof/Machine/Ops.lean ====
section
/-! DEFINITION. The named operations: memory writes, the ring's index operations, responses, fault entry and reset, and
the order of checks every command starts with. -/

namespace Sys2Proof.Machine

/-! ### Writing a memory -/

/-- Store byte `b` at address `a`, keeping the canonical form: writing what an unlisted address reads as lists
nothing. -/
def Memory.write (u : Option Byte) : Memory → Nat → Byte → Memory
  | [], a, b => if some b = u then [] else [(a, b)]
  | (k, c) :: m, a, b =>
    if a < k then (if some b = u then (k, c) :: m else (a, b) :: (k, c) :: m)
    else if a = k then (if some b = u then m else (a, b) :: m)
    else (k, c) :: Memory.write u m a b

/-- Store ring bytes from cell `p` on, each at its address modulo `n` (R403). -/
def Memory.writeRing (n : Nat) : Memory → Nat → List Byte → Memory
  | m, _, [] => m
  | m, p, b :: bs => Memory.writeRing n (Memory.write ringUnlisted m (p % n) b) (p + 1) bs

/-- Store arena bytes at rising addresses from `a` on (R510). -/
def Memory.writeArena : Memory → Nat → List Byte → Memory
  | m, _, [] => m
  | m, a, b :: bs => Memory.writeArena (Memory.write arenaUnlisted m a b) (a + 1) bs

/-! ### The ring's operations -/

/-- A ring index `p mod N` as register contents (R9, R101). -/
def State.ringIndex (s : State) (p : Nat) : Half := BitVec.ofNat 16 (p % s.ringSize)

/-- `WR <- (WR + n) mod N` (R403, R413). -/
def State.commit (s : State) (n : Nat) : State := { s with wr := s.ringIndex (s.wr.toNat + n) }

/-- `RingWrite(d)`: store `d` from `WR` on and commit it (R403). The caller has checked `|d| <= SPACE`. -/
def State.ringWrite (s : State) (d : List Byte) : State :=
  { s with
    ring := Memory.writeRing s.ringSize s.ring s.wr.toNat d
    wr := s.ringIndex (s.wr.toNat + d.length) }

/-- `Discard(n)`: `RD <- (RD + n) mod N`, no cell read or changed (R14, R404). Every caller has `n <= AVAIL`; the model
gives no failure to other `n` (notes/assumptions/12.md). -/
def State.discard (s : State) (n : Nat) : State := { s with rd := s.ringIndex (s.rd.toNat + n) }

/-- `RING[WR + i] <- b` (R412), for `i` inside the writable view. -/
def State.stage (s : State) (i : Nat) (b : Byte) : State :=
  { s with ring := Memory.write ringUnlisted s.ring (s.wr.toNat + i) b }

/-- `RD <- 0; WR <- 0` (R414). -/
def State.clearRing (s : State) : State := { s with rd := 0, wr := 0 }

/-- `ARENA[a + k] <- bs[k]` for each `k` (R510). -/
def State.storeArena (s : State) (a : Nat) (bs : List Byte) : State :=
  { s with arena := Memory.writeArena s.arena a bs }

/-! ### Responses, fault entry and reset -/

/-- `respond(status, value)` (R15, R315). -/
def State.respond (s : State) (st : Status) (v : Word) : State :=
  { s with responses := s.responses ++ [⟨st, v⟩] }

/-- `raise Fault(kind, info)` (R803): set the kind's bit of `FAULT`, record `info`, end the command with
`(FAULTED, 0)`; nothing is undone and nothing else changes. -/
def State.raise (s : State) (k : FaultKind) (info : Word) : State :=
  State.respond { s with fault := s.fault ||| k.mask, faultInfo := info } .faulted 0

/-- Reset, the only exit from the faulted state (R814, R901, R902): every register, cell and arena byte at its reset
value, the configuration kept. It gives no response; the host's port and the record of responses are the host's
(notes/assumptions/6.md). -/
def State.resetBlock (s : State) : State :=
  { State.resetOf s.cfg with port := s.port, responses := s.responses }

/-! ### The order of checks -/

/-- Run `body` on a block: a configuration that fails a check of R905 is none and is refused. -/
def onBlock (s : State) (body : State → Result) : Result :=
  if s.cfg.valid then body s else .refused .badConfiguration

/-- A command that a faulted block does not execute: it answers `(FAULTED, 0)` and changes nothing (R317, R809). -/
def command (s : State) (body : State → Result) : Result :=
  onBlock s fun s => if s.isFaulted then .next (s.respond .faulted 0) else body s

/-- A query: no state changes, one response (R210). -/
def query (s : State) (v : State → Word) : Result := command s fun s => .next (s.respond .ok (v s))

/-- A word that is no command (R314): ILLEGAL_COMMAND with the word as its information (R804); in a faulted block it is
not decoded at all (R809). -/
def rejectWord (w : Word) (s : State) : Result := command s fun s => .next (s.raise .illegalCommand w)

end Sys2Proof.Machine
end

