-- ==== Sys2Proof/Machine/FaultRegs.lean ====
section
/-! DEFINITION. The fault register commands (60_exceptions.md R811, R812). They execute in a faulted block too. -/

namespace Sys2Proof.Machine

/-- FAULTS (R811). -/
def execFaults (s : State) : Result := onBlock s fun s => .next (s.respond .ok s.fault)

/-- FAULTINFO (R812). -/
def execFaultinfo (s : State) : Result := onBlock s fun s => .next (s.respond .ok s.faultInfo)

end Sys2Proof.Machine
end

