-- ==== Sys2Proof/Machine/Registry.lean ====
section
/-! DEFINITION. The registry and arena commands (42_registry_dispatch.md R511, R512). -/

namespace Sys2Proof.Machine

/-- The value of LOOKUP: `{15'b0, hit, off[15:0]}`, 0 for an unknown cmd (R511, R315). -/
def lookupValue (c : Config) (cmd : Half) : Word :=
  match c.slotOf cmd with
  | some slot => 1#16 ++ BitVec.ofNat 16 slot.offset
  | none => 0

/-- LOOKUP (R511). -/
def execLookup (cmd : Half) (s : State) : Result := query s fun s => lookupValue s.cfg cmd

/-- ARENA_READ (R512): one byte of the arena, or ARENA_RANGE (60_exceptions.md R808). -/
def execArenaRead (addr : Half) (s : State) : Result :=
  command s fun s =>
    if s.cfg.total ≤ addr.toNat then .next (s.raise .arenaRange (addr.setWidth 32))
    else .next (s.respond .ok ((s.arenaByte addr.toNat).setWidth 32))

end Sys2Proof.Machine
end

