-- ==== Sys2Proof/Machine/Sync.lean ====
section
/-! DEFINITION. The frame synchronizer (43_frame_sync.md): the checks of a frame, its dispatch (42_registry_dispatch.md
R510), one pass of the parse loop, the drain, and the two wire units FRAME and JUNK as instructions. -/

namespace Sys2Proof.Machine

/-! ### Frames as byte sequences -/

/-- `FRAME(cmd, seq, payload)`: what a conforming sender emits (30_encoding.md R304). The block emits none. -/
def frameBytes (cmd : Half) (seq : Byte) (payload : List Byte) : List Byte :=
  let body := headerBody cmd (BitVec.ofNat 16 payload.length) seq
  let covered := body ++ [crc8 body] ++ payload
  covered ++ [lowByte (crc16 covered), highByte (crc16 covered)]

/-- The 16-bit value of two wire bytes of a sequence (R302, R303); bytes past its end read 0. -/
def fieldAt (f : List Byte) (i : Nat) : Half := le16 (f.getD i 0) (f.getD (i + 1) 0)

/-- The sequence starts with a valid frame, for a registry of largest payload `maxp` (R306). -/
def startsValid (maxp : Nat) (f : List Byte) : Bool :=
  f.getD 0 0 == sof && decide (headerSize ≤ f.length) && crc8 (f.take 6) == f.getD 6 0
    && decide ((fieldAt f 3).toNat ≤ maxp)
    && decide (headerSize + (fieldAt f 3).toNat + tailSize ≤ f.length)
    && crc16 (f.take (headerSize + (fieldAt f 3).toNat)) == fieldAt f (headerSize + (fieldAt f 3).toNat)

/-! ### parse_frame -/

/-- The results of `ParseFrame` (R604), and the fault an examined `UNDEF` cell or an arena overrun raises. -/
inductive Parse where
  | success (s : State)
  | failure
  | incomplete
  | raised (s : State)
deriving DecidableEq, Repr

/-- UNDEF_BYTE with the physical cell index as its information (60_exceptions.md R806). -/
def State.raiseUndef (s : State) (cell : Nat) : State := s.raise .undefByte (BitVec.ofNat 32 cell)

/-- `Dispatch(cmd, L)` on the payload the frame's CRC16 check has examined (R510): ARENA_OVERRUN before any change, or
the payload copied to the known cmd's slot, or dropped for an unknown one; header, payload and tail consumed. -/
def dispatch (cmd len : Half) (payload : List Byte) (s : State) : Parse :=
  match s.cfg.slotOf cmd with
  | some slot =>
    if s.cfg.total < slot.offset + len.toNat then .raised (s.raise .arenaOverrun (cmd ++ len))
    else .success ((((s.discard headerSize).storeArena slot.offset payload).discard len.toNat).discard tailSize)
  | none => .success (((s.discard headerSize).discard len.toNat).discard tailSize)

/-- Steps 7 to 9 of parse_frame: the CRC16 over header and payload against the tail, then dispatch (R610). -/
def checkTail (cmd len : Half) (s : State) : Parse :=
  match s.peek 0 (headerSize + len.toNat) with
  | .error p => .raised (s.raiseUndef p)
  | .ok covered =>
    match s.peek (headerSize + len.toNat) tailSize with
    | .error p => .raised (s.raiseUndef p)
    | .ok tail =>
      if crc16 covered ≠ fieldAt tail 0 then .failure
      else dispatch cmd len (covered.drop headerSize) s

/-- Steps 3 to 9 of parse_frame on a decoded header: the CRC8 check (R606), the length bound (R608), completeness
(R609), then `checkTail`. -/
def checkFrame (cmd len : Half) (seq crc : Byte) (s : State) : Parse :=
  if crc8 (headerBody cmd len seq) ≠ crc then .failure
  else if s.cfg.maxPayload < len.toNat then .failure
  else if s.avail < headerSize + len.toNat + tailSize then .incomplete
  else checkTail cmd len s

/-- `ParseFrame` (R604): the header is examined (R605) and decoded (R607); a head that is not SOF fails (R606). -/
def parseFrame (s : State) : Parse :=
  match s.peek 0 headerSize with
  | .error p => .raised (s.raiseUndef p)
  | .ok h =>
    match decodeWire h with
    | .ok (.frame cmd len seq crc) => checkFrame cmd len seq crc s
    | _ => .failure

/-! ### The drain -/

/-- How one pass of the parse loop ends: the loop goes on, it returns, or a fault ended the command (R601). -/
inductive Pass where
  | again (s : State)
  | leave (s : State)
  | raised (s : State)
deriving DecidableEq, Repr

/-- What the loop does with a parse result (R611): a failure drops exactly one byte, the SOF. -/
def afterParse (s : State) : Parse → Pass
  | .success t => .again t
  | .failure => .again (s.discard 1)
  | .incomplete => .leave s
  | .raised t => .raised t

/-- What the loop does with a scan that found no SOF at the head: the scanned bytes, or those before the SOF, are junk
and are dropped (R603). -/
def afterScan (s : State) : ScanResult → Pass
  | .undef p => .raised (s.raiseUndef p)
  | .notFound => .again (s.discard s.rview)
  | .found k => .again (s.discard k)

/-- One pass of the parse loop (R601). -/
def drainPass (s : State) : Pass :=
  if s.avail < headerSize then .leave s
  else if s.scan s.rview = .found 0 then afterParse s (parseFrame s)
  else afterScan s (s.scan s.rview)

/-- How a drain ends. -/
inductive Drained where
  | done (s : State)
  | raised (s : State)
  | stuck
deriving DecidableEq, Repr

/-- At most `n` passes of the parse loop. -/
def drain : Nat → State → Drained
  | 0, _ => .stuck
  | n + 1, s =>
    match drainPass s with
    | .again t => drain n t
    | .leave t => .done t
    | .raised t => .raised t

/-- `Drain()` (R601). Every pass that goes on drops a byte, so `AVAIL + 1` passes are enough (R612). -/
def drainAll (s : State) : Drained := drain (s.avail + 1) s

/-- The end of a command that ran a drain: `respond(OK, 0)`, unless the drain's fault ended it (R410, R413). -/
def afterDrain : Drained → Result
  | .done s => .next (s.respond .ok 0)
  | .raised s => .next s
  | .stuck => .fault .drainStuck

/-! ### The wire units as instructions -/

/-- A pass as an outcome: the state it leaves. -/
def Pass.result : Pass → Result
  | .again s => .next s
  | .leave s => .next s
  | .raised s => .next s

/-- The engine's act on a wire unit at the head: none in a faulted block (R809) and none while fewer than seven bytes
are committed (R601). -/
def engine (s : State) (pass : State → Pass) : Result :=
  onBlock s fun s =>
    if s.isFaulted then .next s
    else if s.avail < headerSize then .next s
    else (pass s).result

/-- FRAME (R604, R611): the drain's pass on a header with these fields at the head. -/
def execFrame (cmd len : Half) (seq crc : Byte) (s : State) : Result :=
  engine s fun s => afterParse s (checkFrame cmd len seq crc s)

/-- JUNK (R603): the drain's pass on a head that is not SOF. The byte itself is not used. -/
def execJunk (_b : Byte) (s : State) : Result :=
  engine s fun s => afterScan s (s.scan s.rview)

end Sys2Proof.Machine
end

