-- ==== Sys2Proof/Machine/Ring.lean ====
section
/-! DEFINITION. The ring commands (41_ring_buffer.md R410 to R418), one meaning per instruction. -/

namespace Sys2Proof.Machine

/-- PUSH (R410). A data count that is not `len` is R314's illegal word; the decoder never yields it. -/
def execPush (len : Half) (data : List Byte) (s : State) : Result :=
  command s fun s =>
    if data.length ≠ len.toNat then .next (s.raise .illegalCommand (hostWord 1 len 0))
    else if s.space < data.length then .next (s.respond .bufferOverflow 0)
    else afterDrain (drainAll (s.ringWrite data))

/-- WVIEW (R411): `WR` in bits 31:16, `WVIEW_LEN` in bits 15:0. -/
def execWview (s : State) : Result := query s fun s => s.wr ++ BitVec.ofNat 16 s.wviewLen

/-- VWRITE (R412): stage one byte inside the view, or VIEW_RANGE (R805). -/
def execVwrite (i : Half) (b : Byte) (s : State) : Result :=
  command s fun s =>
    if s.wviewLen ≤ i.toNat then .next (s.raise .viewRange (i.setWidth 32))
    else .next ((s.stage i.toNat b).respond .ok 0)

/-- ADVANCE (R413). Bounded by `SPACE` alone; the cells committed hold whatever they held. -/
def execAdvance (n : Half) (s : State) : Result :=
  command s fun s =>
    if s.space < n.toNat then .next (s.respond .bufferOverflow 0)
    else afterDrain (drainAll (s.commit n.toNat))

/-- CLEAR (R414). -/
def execClear (s : State) : Result := command s fun s => .next (s.clearRing.respond .ok 0)

/-- AVAIL (R415). -/
def execAvail (s : State) : Result := query s fun s => BitVec.ofNat 32 s.avail

/-- SPACE (R416). -/
def execSpace (s : State) : Result := query s fun s => BitVec.ofNat 32 s.space

/-- EMPTY (R417). -/
def execEmpty (s : State) : Result := query s fun s => flagValue s.isEmpty

/-- FULL (R418). -/
def execFull (s : State) : Result := query s fun s => flagValue s.isFull

end Sys2Proof.Machine
end

