-- ==== Sys2Proof/Machine/Dispatch.lean ====
section
/-! DEFINITION. The meaning of every instruction, one arm per constructor. -/

namespace Sys2Proof.Machine

/-- The effect of one instruction on a state. -/
def exec (i : Instr) (s : State) : Host.Outcome State Fault Refusal :=
  match i with
  | .push len data => Sys2Proof.Machine.execPush len data s
  | .wview => Sys2Proof.Machine.execWview s
  | .vwrite j b => Sys2Proof.Machine.execVwrite j b s
  | .advance n => Sys2Proof.Machine.execAdvance n s
  | .clear => Sys2Proof.Machine.execClear s
  | .avail => Sys2Proof.Machine.execAvail s
  | .space => Sys2Proof.Machine.execSpace s
  | .full => Sys2Proof.Machine.execFull s
  | .empty => Sys2Proof.Machine.execEmpty s
  | .lookup cmd => Sys2Proof.Machine.execLookup cmd s
  | .arenaRead addr => Sys2Proof.Machine.execArenaRead addr s
  | .faults => Sys2Proof.Machine.execFaults s
  | .faultinfo => Sys2Proof.Machine.execFaultinfo s
  | .frame cmd len seq crc => Sys2Proof.Machine.execFrame cmd len seq crc s
  | .junk b => Sys2Proof.Machine.execJunk b s

end Sys2Proof.Machine
end

