-- ==== Sys2Proof/Machine/Port.lean ====
section
/-! DEFINITION. The command port: what one host event does (30_encoding.md R317; 70_reset_and_hazards.md R902), and how
a table row's code is put where the next step takes it. -/

namespace Sys2Proof.Machine

/-- One event of the port (R317): a word that decodes runs its command, one that does not is rejected by `rejectWord`,
and a reset event resets the block. A faulted block's commands answer FAULTED themselves (R809). -/
def runEvent (e : HostEvent) (s : State) : Result :=
  match e with
  | .reset => .next s.resetBlock
  | .command w data =>
    match decode (.host w data) with
    | .ok i => exec i s
    | .error _ => rejectWord w s

/-- Take the first event of the port and run it; with none the block is idle and holds its state (60_exceptions.md
R822). -/
def takeEvent (s : State) : Result :=
  match s.port with
  | [] => .next s
  | e :: rest => runEvent e { s with port := rest }

/-- The state with a code placed so that the next step runs it: a command word at the head of the port; a wire unit in
the ring at the read index, committed, with `ADVANCE 0` at the head of the port, whose drain decodes it
(notes/assumptions/14.md). -/
def State.withCode (s : State) : Code → State
  | .host w data => { s with port := .command w data :: s.port }
  | .wire bytes =>
    { s with
      ring := Memory.writeRing s.ringSize s.ring s.rd.toNat bytes
      wr := s.ringIndex (s.rd.toNat + bytes.length)
      port := .command (hostWord 4 0 0) [] :: s.port }

end Sys2Proof.Machine
end

