-- ==== Sys2Proof/Machine/Step.lean ====
section
/-! DEFINITION. One step of the machine: one host event with all it sets running (00_scope.md R4, 20_memory.md R211,
70_reset_and_hazards.md R914). -/

namespace Sys2Proof.Machine

/-- One step. A configuration that fails a check of R905 is no block, and nothing runs on it. -/
def step (s : State) : Host.Outcome State Fault Refusal := onBlock s takeEvent

/-- The state in which the next step runs the table row's number `w` of `nbits` bits. -/
def State.withFetchWord (s : State) (nbits w : Nat) : State := s.withCode (tableCode nbits w)

end Sys2Proof.Machine
end

