-- ==== Sys2Proof/Machine/Trace.lean ====
section
/-! DEFINITION. What the fragmentation law (43_frame_sync.md R617) compares: the committed stream of a run of commands, and
its dispatch sequence, the dispatch log of 95_test_vectors.md. Neither is block state, and no step reads them. -/

namespace Sys2Proof.Machine

/-- One call of Dispatch that succeeds: its cmd and its payload, for a known or an unknown cmd (42_registry_dispatch.md
R510). -/
structure Dispatched where
  cmd     : Half
  payload : List Byte
deriving DecidableEq, Repr

/-! ### The dispatch sequence -/

/-- The cmd of the header at the head of the committed bytes, and the payload behind it (30_encoding.md R302). -/
def State.frameAtHead (s : State) : Option Dispatched :=
  match s.peek 0 headerSize with
  | .error _ => none
  | .ok h =>
    match s.peek headerSize (fieldAt h 3).toNat with
    | .error _ => none
    | .ok payload => some ⟨fieldAt h 1, payload⟩

/-- The dispatch a ParseFrame makes: one when it returns SUCCESS (R604), none otherwise. -/
def State.parseDispatches (s : State) : List Dispatched :=
  match parseFrame s with
  | .success _ => s.frameAtHead.toList
  | .failure => []
  | .incomplete => []
  | .raised _ => []

/-- The dispatch a pass of the parse loop makes: that of its ParseFrame, if the pass comes to one (R601). -/
def State.passDispatches (s : State) : List Dispatched :=
  if s.avail < headerSize then []
  else if s.scan s.rview = .found 0 then s.parseDispatches
  else []

/-- The dispatches of at most `n` passes of the parse loop, in order. -/
def drainDispatches : Nat → State → List Dispatched
  | 0, _ => []
  | n + 1, s =>
    match drainPass s with
    | .again t => s.passDispatches ++ drainDispatches n t
    | .leave _ => []
    | .raised _ => []

/-- The dispatch sequence of a drain. -/
def State.drainLog (s : State) : List Dispatched := drainDispatches (s.avail + 1) s

/-! ### Commands as deliveries -/

/-- The state from which a command's drain starts: for a PUSH or an ADVANCE within `SPACE`, its bytes committed; none for
every command that runs no drain (R410, R413). -/
def State.delivery (s : State) (i : Instr) : Option State :=
  if s.isFaulted then none
  else match i with
    | .push len data =>
      if data.length = len.toNat ∧ data.length ≤ s.space then some (s.ringWrite data) else none
    | .advance n => if n.toNat ≤ s.space then some (s.commit n.toNat) else none
    | .wview => none
    | .vwrite _ _ => none
    | .clear => none
    | .avail => none
    | .space => none
    | .full => none
    | .empty => none
    | .lookup _ => none
    | .arenaRead _ => none
    | .faults => none
    | .faultinfo => none
    | .frame _ _ _ _ => none
    | .junk _ => none

/-- The cells a command commits, in stream order; one that ADVANCE commits may be `UNDEF` (R413). -/
def State.commits (s : State) (i : Instr) : List (Option Byte) :=
  match s.delivery i with
  | some c => (List.range (c.avail - s.avail)).map (fun k => c.byteAt (s.avail + k))
  | none => []

/-- The dispatch sequence of a command. -/
def State.dispatches (s : State) (i : Instr) : List Dispatched :=
  match s.delivery i with
  | some c => c.drainLog
  | none => []

/-- The committed stream of a run: the cells its commands commit, in issue order. -/
def streamOf : List Instr → State → List (Option Byte)
  | [], _ => []
  | i :: is, s =>
    s.commits i ++
      match exec i s with
      | .next t => streamOf is t
      | .fault _ => []
      | .refused _ => []

/-- The dispatch sequence of a run: those of its commands, in issue order. -/
def dispatchesOf : List Instr → State → List Dispatched
  | [], _ => []
  | i :: is, s =>
    s.dispatches i ++
      match exec i s with
      | .next t => dispatchesOf is t
      | .fault _ => []
      | .refused _ => []

/-- A host command other than CLEAR: what may stand between the chunks of one stream (R617). FRAME and JUNK are no host
commands. -/
def keepsStream (i : Instr) : Bool :=
  match i with
  | .clear => false
  | .frame _ _ _ _ => false
  | .junk _ => false
  | .push _ _ => true
  | .wview => true
  | .vwrite _ _ => true
  | .advance _ => true
  | .avail => true
  | .space => true
  | .full => true
  | .empty => true
  | .lookup _ => true
  | .arenaRead _ => true
  | .faults => true
  | .faultinfo => true

end Sys2Proof.Machine
end

