-- ==== Sys2Proof/Safety.lean ====
section
/-! DEFINITION. What counts as a safe state and a safe run: the structural invariant of 10_state.md, the residue a drain
leaves (43_frame_sync.md R611), and runs of the machine. -/

namespace Sys2Proof.Machine

/-- A decoded header at the head of an incomplete frame: CRC8 and length bound pass and the frame's bytes have not all
been committed (R611 (c)). -/
def State.awaits (s : State) : Except DecodeError Instr → Bool
  | .ok (.frame cmd len seq crc) =>
    crc8 (headerBody cmd len seq) == crc && decide (len.toNat ≤ s.cfg.maxPayload)
      && decide (s.avail < headerSize + len.toNat + tailSize)
  | _ => false

/-- The residue of a drain (R611 (c), R616): fewer than seven committed bytes, or an incomplete frame at the head. -/
def State.settled (s : State) : Bool :=
  decide (s.avail < headerSize) ||
    match s.peek 0 headerSize with
    | .ok h => s.awaits (decodeWire h)
    | .error _ => false

/-- What holds of every state a run from reset reaches. -/
structure State.Inv (s : State) : Prop where
  /-- The configuration passes every check (R905). -/
  cfg_valid : s.cfg.valid = true
  /-- `RD` is in `[0, N)` (R101). -/
  rd_lt : s.rd.toNat < s.ringSize
  /-- `WR` is in `[0, N)` (R102). -/
  wr_lt : s.wr.toNat < s.ringSize
  /-- The ring's list is canonical and lists cells of `[0, N)` only (R103, R201). -/
  ring_wf : Memory.wf ringUnlisted s.ring = true
  ring_below : Memory.below s.ringSize s.ring = true
  /-- The arena's list is canonical and lists bytes of `[0, TOTAL)` only (R104, R202). -/
  arena_wf : Memory.wf arenaUnlisted s.arena = true
  arena_below : Memory.below s.cfg.total s.arena = true
  /-- `FAULT` is 0 or has exactly one of its five bits set (R107). -/
  fault_legal : s.fault = 0 ∨ ∃ k : FaultKind, s.fault = k.mask
  /-- `FAULT_INFO` is 0 in a block that has not faulted since reset (R812). -/
  info_zero : s.fault = 0 → s.faultInfo = 0
  /-- No reserved status has been given (R316). -/
  statuses : ∀ r ∈ s.responses, r.status.produced = true

/-- A block that is not faulted stands at a residue of its last drain (R613). -/
def State.Settled (s : State) : Prop := s.fault = 0 → s.settled = true

/-- A block a command runs on: a valid configuration and no fault (R809: a claim about a program takes `FAULT = 0` as a
premise). -/
structure State.Ready (s : State) : Prop where
  cfg_valid : s.cfg.valid = true
  unfaulted : s.fault = 0

/-- `s` reaches `t` in some number of steps. -/
inductive Reaches : State → State → Prop where
  | here (s : State) : Reaches s s
  | step (s t u : State) : step s = .next t → Reaches t u → Reaches s u

/-- Run instructions in order, stopping at the first fault or refusal. -/
def execAll : List Instr → State → Result
  | [], s => .next s
  | i :: is, s =>
    match exec i s with
    | .next t => execAll is t
    | .fault r => .fault r
    | .refused r => .refused r

/-- R314's list of illegal command words, in the rule's own order: reserved opcodes, reserved bits, an unused `arg16`,
an unused `data8`, a PUSH whose data count is not `len`. -/
def illegalWord (w : Word) (data : List Byte) : Prop :=
  (opField w = 0x0 ∨ opField w = 0xE ∨ opField w = 0xF)
  ∨ rsvField w ≠ 0
  ∨ (argField w ≠ 0 ∧ opField w ∈ [0x2#4, 0x5#4, 0x6#4, 0x7#4, 0x8#4, 0x9#4, 0xC#4, 0xD#4])
  ∨ (dataField w ≠ 0 ∧ opField w ≠ 0x3)
  ∨ (opField w = 0x1 ∧ data.length ≠ (argField w).toNat)

/-- Every committed cell holds a byte, so no drain of these bytes meets `UNDEF` (R806). -/
def State.committedDefined (s : State) : Prop := ∀ j < s.avail, (s.byteAt j).isSome = true

/-- Logical offset `k` holds the first `UNDEF` cell from `RD` on. -/
def State.firstUndefAt (s : State) (k : Nat) : Prop := s.byteAt k = none ∧ ∀ j < k, (s.byteAt j).isSome = true

/-- The next pass of the parse loop comes to examine offset `k`, if no cell before it is `UNDEF` (R620): in the scan, which
goes up to the first SOF of the readable view; in the header behind a SOF at the head; or in the payload and tail of a
frame that passes the CRC8 check, the length bound and the completeness check. -/
def State.examines (s : State) (k : Nat) : Prop :=
  headerSize ≤ s.avail ∧
    ((k < s.rview ∧ ∀ j < k, s.byteAt j ≠ some sof)
      ∨ (s.byteAt 0 = some sof ∧ k < headerSize)
      ∨ ∃ (h : List Byte) (cmd len : Half) (seq crc : Byte), s.peek 0 headerSize = .ok h
          ∧ decodeWire h = .ok (.frame cmd len seq crc) ∧ crc8 (headerBody cmd len seq) = crc
          ∧ len.toNat ≤ s.cfg.maxPayload ∧ 9 + len.toNat ≤ s.avail ∧ k < 9 + len.toNat)

/-- No frame that passes the length bound can overrun the arena (R807). -/
def overrunFree (c : Config) : Prop := ∀ slot ∈ c.slots, slot.offset + c.maxPayload ≤ c.total

end Sys2Proof.Machine
end

