-- ==== Sys2Proof/Certificates/Slice0/Obligations.lean ====
section
/-! DEFINITION. The statements for the provers. Each is about the machine for every configuration the spec admits, unless
it says otherwise; the premises on the state are those of Safety.lean. The port and the record of responses are the model's
own way to hold the host's side (DESIGN CHOICE, notes/assumptions/2.md and 3.md); a response given is an entry added to
the record. That FRAME and JUNK each stand for one pass of the drain is DEDUCED (notes/assumptions/4.md). -/

section

open Sys2Proof Sys2Proof.Machine

/-! ### Encoding -/

/-- A few command words and wire units, written out from 30_encoding.md R301, R310 and R313 (95_test_vectors.md), decode
to the instructions they stand for. -/
def Obligations.DecodeWordsFromSpec : Prop :=
  decode (.host 0x10000200#32 [0x2E, 0xE0]) = .ok (.push 2 [0x2E, 0xE0])
  ∧ decode (.host 0x300001F1#32 []) = .ok (.vwrite 1 0xF1)
  ∧ decode (.host 0x40000F00#32 []) = .ok (.advance 15)
  ∧ decode (.host 0xA0030200#32 []) = .ok (.lookup 0x0302)
  ∧ decode (.host 0xD0000000#32 []) = .ok .faultinfo
  ∧ decode (.wire [0xA5, 0x02, 0x03, 0x04, 0x00, 0x00, 0x74]) = .ok (.frame 0x0302 4 0 0x74)
  ∧ decode (.wire [0x11]) = .ok (.junk 0x11)

/-- Decode and encode agree, for every instruction and every operand an encoding can carry. -/
def Obligations.DecodeEncodeRoundTrip : Prop :=
  ∀ i : Instr, i.WellFormed → decode (encode i) = .ok i

/-- A command word has one meaning: a word that decodes is the word the encoder writes for the instruction read, so no
bit of a legal word is dropped (R310, R313). The data bytes come back for a PUSH; beside another word the model drops
them (DESIGN CHOICE, notes/assumptions/10.md). -/
def Obligations.LegalWordsEncodeBack : Prop :=
  ∀ (w : Word) (data : List Byte) (i : Instr), decodeHost w data = .ok i →
    i.WellFormed ∧ encode i = .host w (if opField w = 0x1 then data else [])

/-- R314: a word decodes exactly when it is not illegal. -/
def Obligations.IllegalWordsAreRejected : Prop :=
  ∀ (w : Word) (data : List Byte), (∃ i, decodeHost w data = .ok i) ↔ ¬ illegalWord w data

/-- The fields of a wire header (R302) and the decode priority of the head byte (R309): SOF starts a header whose 16-bit
fields are little-endian, any other byte is junk, and a SOF with fewer than seven bytes decodes to nothing yet. -/
def Obligations.WireUnitFields : Prop :=
  (∀ (c0 c1 l0 l1 q k : Byte) (rest : List Byte), ∃ cmd len : Half,
    decodeWire (sof :: c0 :: c1 :: l0 :: l1 :: q :: k :: rest) = .ok (.frame cmd len q k)
    ∧ cmd.toNat = c0.toNat + 256 * c1.toNat ∧ len.toNat = l0.toNat + 256 * l1.toNat)
  ∧ (∀ (b : Byte) (rest : List Byte), b ≠ sof → decodeWire (b :: rest) = .ok (.junk b))
  ∧ (∀ rest : List Byte, rest.length < 6 → decodeWire (sof :: rest) = .error .shortUnit)

/-! ### The step and the drain run decoded instructions -/

/-- When the first event of the port is a command that decodes to `i`, the step is `exec i` on the state with that event
taken; a reset event resets, and with an empty port the block holds its state (R317, R822, R902; the port is the
model's, notes/assumptions/2.md). -/
def Obligations.StepRunsDecodedCommand : Prop :=
  ∀ s : State, s.cfg.valid = true →
    (∀ w data rest i, s.port = .command w data :: rest → decode (.host w data) = .ok i →
      i.WellFormed ∧ step s = exec i { s with port := rest })
    ∧ (∀ rest, s.port = .reset :: rest → step s = .next ({ s with port := rest } : State).resetBlock)
    ∧ (s.port = [] → step s = .next s)

/-- When the bytes at the head of the committed bytes decode to a wire unit `i`, a pass of the drain leaves the state
`exec i` leaves. A junk byte needs only itself, a header its seven bytes (R309, R601, R605; a unit as one
pass is the model's reading, notes/assumptions/4.md). -/
def Obligations.DrainPassRunsDecodedUnit : Prop :=
  ∀ s : State, s.Inv → s.fault = 0 → headerSize ≤ s.avail →
    (∀ h i, s.peek 0 headerSize = .ok h → decode (.wire h) = .ok i → (drainPass s).result = exec i s)
    ∧ (∀ b, s.byteAt 0 = some b → b ≠ sof → (drainPass s).result = exec (.junk b) s)

/-- A configuration that fails a check of R905 is refused: no instruction and no step runs on it (the refusal's form is the
model's choice, notes/assumptions/9.md). -/
def Obligations.BadConfigurationRefused : Prop :=
  ∀ (s : State) (i : Instr), s.cfg.valid = false →
    exec i s = .refused .badConfiguration ∧ step s = .refused .badConfiguration

/-! ### Queries -/

/-- AVAIL, SPACE, EMPTY and FULL answer the occupancy of R401, R402 and R106, stated on `RD`, `WR` and `N` as integers,
and change nothing but the record of responses. -/
def Obligations.OccupancyQueriesAnswer : Prop :=
  ∀ s : State, s.Inv → s.fault = 0 →
    (∃ v : Word, exec .avail s = .next { s with responses := s.responses ++ [⟨.ok, v⟩] }
      ∧ (v.toNat : Int) = ((s.wr.toNat : Int) - s.rd.toNat) % s.cfg.ringSize)
    ∧ (∃ v : Word, exec .space s = .next { s with responses := s.responses ++ [⟨.ok, v⟩] }
      ∧ (v.toNat : Int) = s.cfg.ringSize - 1 - ((s.wr.toNat : Int) - s.rd.toNat) % s.cfg.ringSize)
    ∧ exec .empty s = .next { s with responses := s.responses ++ [⟨.ok, if s.rd = s.wr then 1 else 0⟩] }
    ∧ exec .full s = .next { s with responses := s.responses ++
        [⟨.ok, if (s.wr.toNat + 1) % s.cfg.ringSize = s.rd.toNat then 1 else 0⟩] }

/-- WVIEW answers `WR` in bits 31:16 and the length of R406 in bits 15:0, and changes nothing else (R411). -/
def Obligations.WviewAnswers : Prop :=
  ∀ s : State, s.Inv → s.fault = 0 →
    ∃ v : Word, exec .wview s = .next { s with responses := s.responses ++ [⟨.ok, v⟩] }
      ∧ v.toNat = s.wr.toNat * 65536 +
        (if s.rd.toNat = 0 then s.cfg.ringSize - 1 - s.wr.toNat
         else if s.rd.toNat ≤ s.wr.toNat then s.cfg.ringSize - s.wr.toNat
         else s.rd.toNat - 1 - s.wr.toNat)

/-- LOOKUP of the cmd of registry entry `i` answers hit and `OFFSET(i)`; of a cmd in no entry, 0; nothing else changes
(R506, R511). -/
def Obligations.LookupAnswers : Prop :=
  ∀ (s : State) (cmd : Half), s.Ready →
    (∀ (i : Nat) (e : Entry), s.cfg.registry[i]? = some e → e.cmd = cmd →
      ∃ (off : Nat) (v : Word), s.cfg.offset i = some off
        ∧ exec (.lookup cmd) s = .next { s with responses := s.responses ++ [⟨.ok, v⟩] }
        ∧ v.toNat = 65536 + off)
    ∧ ((∀ e ∈ s.cfg.registry, e.cmd ≠ cmd) →
      exec (.lookup cmd) s = .next { s with responses := s.responses ++ [⟨.ok, 0⟩] })

/-- ARENA_READ inside the arena answers the byte and changes nothing else; outside it raises ARENA_RANGE with the
address (R512, R808). -/
def Obligations.ArenaReadAnswersOrFaults : Prop :=
  ∀ (s : State) (addr : Half), s.Ready →
    (addr.toNat < s.cfg.total →
      ∃ v : Word, exec (.arenaRead addr) s = .next { s with responses := s.responses ++ [⟨.ok, v⟩] }
        ∧ v.toNat = (s.arenaByte addr.toNat).toNat)
    ∧ (s.cfg.total ≤ addr.toNat →
      ∃ info : Word, exec (.arenaRead addr) s = .next
          { s with fault := 0x10, faultInfo := info, responses := s.responses ++ [⟨.faulted, 0⟩] }
        ∧ info.toNat = addr.toNat)

/-- FAULTS and FAULTINFO answer the fault registers, faulted or not, and change nothing else (R811, R812). -/
def Obligations.FaultRegistersAnswer : Prop :=
  ∀ s : State, s.cfg.valid = true →
    exec .faults s = .next { s with responses := s.responses ++ [⟨.ok, s.fault⟩] }
    ∧ exec .faultinfo s = .next { s with responses := s.responses ++ [⟨.ok, s.faultInfo⟩] }

/-! ### Ring commands -/

/-- VWRITE inside the view stores one byte in cell `WR + i`, a cell of the ring, and changes nothing else but the record of
responses (R412). -/
def Obligations.VwriteStagesOneCell : Prop :=
  ∀ (s : State) (i : Half) (b : Byte), s.Inv → s.fault = 0 → i.toNat < s.wviewLen →
    s.wr.toNat + i.toNat < s.ringSize
    ∧ ∃ t : State, exec (.vwrite i b) s = .next t
      ∧ t = { s with ring := t.ring, responses := s.responses ++ [⟨.ok, 0⟩] }
      ∧ t.ringCell (s.wr.toNat + i.toNat) = some b
      ∧ ∀ p, p ≠ s.wr.toNat + i.toNat → t.ringCell p = s.ringCell p

/-- VWRITE outside the view raises VIEW_RANGE with the index and writes no cell (R805). -/
def Obligations.VwriteOutsideViewFaults : Prop :=
  ∀ (s : State) (i : Half) (b : Byte), s.Ready → s.wviewLen ≤ i.toNat →
    ∃ info : Word, exec (.vwrite i b) s = .next
        { s with fault := 0x2, faultInfo := info, responses := s.responses ++ [⟨.faulted, 0⟩] }
      ∧ info.toNat = i.toNat

/-- CLEAR sets `RD` and `WR` to 0 and changes nothing else; then the ring is empty and the view is `N - 1` cells (R414). -/
def Obligations.ClearEmptiesRing : Prop :=
  ∀ s : State, s.Ready →
    ∃ t : State, exec .clear s = .next t
      ∧ t = { s with rd := 0, wr := 0, responses := s.responses ++ [⟨.ok, 0⟩] }
      ∧ t.avail = 0 ∧ t.space = s.ringSize - 1 ∧ t.wviewLen = s.ringSize - 1

/-- A PUSH or ADVANCE of more than `SPACE` bytes answers BUFFER_OVERFLOW and changes nothing: no cell, index or arena byte,
and `FAULT` stays (R209, R410, R413, R801). -/
def Obligations.OverflowChangesNothing : Prop :=
  ∀ s : State, s.Ready →
    (∀ (len : Half) (data : List Byte), data.length = len.toNat → s.space < len.toNat →
      exec (.push len data) s = .next { s with responses := s.responses ++ [⟨.bufferOverflow, 0⟩] })
    ∧ (∀ n : Half, s.space < n.toNat →
      exec (.advance n) s = .next { s with responses := s.responses ++ [⟨.bufferOverflow, 0⟩] })

/-- A PUSH whose data count is not `len` raises ILLEGAL_COMMAND with its command word and stores nothing (R314, R804; that `exec`
checks it too is the model's choice, notes/assumptions/5.md). -/
def Obligations.PushCountMismatchFaults : Prop :=
  ∀ (s : State) (len : Half) (data : List Byte), s.Ready → data.length ≠ len.toNat →
    ∃ w : Word, exec (.push len data) s = .next
        { s with fault := 0x1, faultInfo := w, responses := s.responses ++ [⟨.faulted, 0⟩] }
      ∧ w.toNat = 0x10000000 + 256 * len.toNat

/-- `RingWrite(d)` for `|d| <= SPACE` puts `d[k]` in cell `(WR + k) mod N`, leaves every other cell as it was, keeps every
committed byte, makes `d` the last committed bytes and moves `WR` by `|d|`; nothing else changes (R403). -/
def Obligations.RingWriteCommitsBytes : Prop :=
  ∀ (s : State) (d : List Byte), s.Inv → d.length ≤ s.space →
    (∀ (k : Nat) (h : k < d.length), (s.ringWrite d).ringCell ((s.wr.toNat + k) % s.ringSize) = some d[k])
    ∧ (∀ p, (∀ k < d.length, p ≠ (s.wr.toNat + k) % s.ringSize) → (s.ringWrite d).ringCell p = s.ringCell p)
    ∧ (∀ j < s.avail, (s.ringWrite d).byteAt j = s.byteAt j)
    ∧ (∀ (k : Nat) (h : k < d.length), (s.ringWrite d).byteAt (s.avail + k) = some d[k])
    ∧ (s.ringWrite d).avail = s.avail + d.length
    ∧ (s.ringWrite d).wr.toNat = (s.wr.toNat + d.length) % s.ringSize
    ∧ s.ringWrite d = { s with ring := (s.ringWrite d).ring, wr := (s.ringWrite d).wr }

/-- An accepted PUSH or ADVANCE commits its bytes, runs one drain, and answers `(OK, 0)` unless the drain raised UNDEF_BYTE
or ARENA_OVERRUN; it always ends (R410, R413, R612). A drain's fault leaves the drain's state with its own response. -/
def Obligations.DeliveryEndsWithItsDrain : Prop :=
  ∀ s : State, s.Inv → s.fault = 0 →
    (∀ (len : Half) (data : List Byte), data.length = len.toNat → len.toNat ≤ s.space →
      ∃ t : State,
        (drainAll (s.ringWrite data) = .done t ∧ t.fault = 0
          ∧ exec (.push len data) s = .next { t with responses := s.responses ++ [⟨.ok, 0⟩] })
        ∨ (drainAll (s.ringWrite data) = .raised t ∧ (t.fault = 0x4 ∨ t.fault = 0x8)
          ∧ t.responses = s.responses ++ [⟨.faulted, 0⟩] ∧ exec (.push len data) s = .next t))
    ∧ (∀ n : Half, n.toNat ≤ s.space →
      ∃ t : State,
        (drainAll (s.commit n.toNat) = .done t ∧ t.fault = 0
          ∧ exec (.advance n) s = .next { t with responses := s.responses ++ [⟨.ok, 0⟩] })
        ∨ (drainAll (s.commit n.toNat) = .raised t ∧ (t.fault = 0x4 ∨ t.fault = 0x8)
          ∧ t.responses = s.responses ++ [⟨.faulted, 0⟩] ∧ exec (.advance n) s = .next t))

/-- PUSH completes: with every committed cell written and a registry no bounded frame can overrun, a PUSH within `SPACE`
answers `(OK, 0)`; its bytes are in their cells, `WR` has moved by `len`, no fault is raised, and the drain stands at a
residue (R410, R611). -/
def Obligations.PushCompletes : Prop :=
  ∀ (s : State) (len : Half) (data : List Byte), s.Inv → s.fault = 0 → s.committedDefined → overrunFree s.cfg →
    data.length = len.toNat → len.toNat ≤ s.space →
    ∃ t : State, exec (.push len data) s = .next t
      ∧ t = { s with rd := t.rd, wr := t.wr, ring := t.ring, arena := t.arena,
                     responses := s.responses ++ [⟨.ok, 0⟩] }
      ∧ t.wr.toNat = (s.wr.toNat + len.toNat) % s.ringSize
      ∧ (∀ (k : Nat) (h : k < data.length), t.ringCell ((s.wr.toNat + k) % s.ringSize) = some data[k])
      ∧ (∀ p, (∀ k < data.length, p ≠ (s.wr.toNat + k) % s.ringSize) → t.ringCell p = s.ringCell p)
      ∧ t.settled = true

/-- ADVANCE completes: within `SPACE`, with every cell it commits written, it answers `(OK, 0)`; no cell changes, `WR` has
moved by `n`, and the drain stands at a residue (R413, R611). -/
def Obligations.AdvanceCompletes : Prop :=
  ∀ (s : State) (n : Half), s.Inv → s.fault = 0 → (s.commit n.toNat).committedDefined → overrunFree s.cfg →
    n.toNat ≤ s.space →
    ∃ t : State, exec (.advance n) s = .next t
      ∧ t = { s with rd := t.rd, wr := t.wr, arena := t.arena, responses := s.responses ++ [⟨.ok, 0⟩] }
      ∧ t.wr.toNat = (s.wr.toNat + n.toNat) % s.ringSize
      ∧ t.settled = true

/-- ADVANCE over cells nothing has written. If the first pass of its drain examines an `UNDEF` cell, the first one `k` cells
from `RD`, it raises UNDEF_BYTE with that cell's index, and nothing but `WR` and the fault state changes. Whatever pass
raises UNDEF_BYTE, the index is that of the first `UNDEF` cell from where `RD` stands, a cell that pass examines, and no
ring cell changes. The commit is kept in both (R413, R620, R803, R806, R813, R908). -/
def Obligations.AdvanceOverUnwrittenFaults : Prop :=
  ∀ (s : State) (n : Half), s.Inv → s.fault = 0 → n.toNat ≤ s.space →
    (∀ k, (s.commit n.toNat).examines k → (s.commit n.toNat).firstUndefAt k →
      ∃ t : State, exec (.advance n) s = .next t
        ∧ t = { s with wr := t.wr, fault := 0x4, faultInfo := t.faultInfo, responses := s.responses ++ [⟨.faulted, 0⟩] }
        ∧ t.wr.toNat = (s.wr.toNat + n.toNat) % s.ringSize
        ∧ t.faultInfo.toNat = (s.rd.toNat + k) % s.ringSize)
    ∧ (∀ t : State, exec (.advance n) s = .next t → t.fault = 0x4 →
      t = { s with rd := t.rd, wr := t.wr, arena := t.arena, fault := 0x4, faultInfo := t.faultInfo,
                   responses := s.responses ++ [⟨.faulted, 0⟩] }
      ∧ t.wr.toNat = (s.wr.toNat + n.toNat) % s.ringSize
      ∧ ∃ k, t.examines k ∧ t.firstUndefAt k ∧ t.faultInfo.toNat = (t.rd.toNat + k) % s.ringSize)

/-- The laws of the ring (R409), for indices in range. -/
def Obligations.RingLaws : Prop :=
  ∀ s : State, s.Inv →
    s.avail + s.space + 1 = s.ringSize
    ∧ (s.isEmpty = true ↔ s.avail = 0) ∧ (s.isFull = true ↔ s.space = 0)
    ∧ (0 < s.avail → 1 ≤ s.rview ∧ s.rview ≤ s.avail)
    ∧ s.wviewLen ≤ s.space
    ∧ (s.wviewLen = 0 ↔ s.space = 0 ∨ (s.wr.toNat = s.ringSize - 1 ∧ s.rd.toNat = 0))
    ∧ (s.wr.toNat = s.ringSize - 1 ∧ s.rd.toNat = 0 → s.space = 0)
    ∧ (s.wviewLen = 0 ↔ s.isFull = true)
    ∧ (∀ d : List Byte, d.length ≤ s.space → (s.ringWrite d).avail = s.avail + d.length)
    ∧ (∀ n, n ≤ s.space → (s.commit n).avail = s.avail + n)

/-- `FindByte(b)` (R408): the least offset below `AVAIL` that holds `b`, across the wrap; `NOT_FOUND` if every committed
cell is written and none holds it; and the first `UNDEF` cell if one stands before any `b`. -/
def Obligations.FindByteFindsFirst : Prop :=
  ∀ (s : State) (b : Byte),
    (∀ j, s.findByte b = .found j ↔
      j < s.avail ∧ s.byteAt j = some b ∧ ∀ i < j, ∃ c, s.byteAt i = some c ∧ c ≠ b)
    ∧ (s.findByte b = .notFound ↔ ∀ i < s.avail, ∃ c, s.byteAt i = some c ∧ c ≠ b)
    ∧ (∀ p, s.findByte b = .undef p ↔
      ∃ j < s.avail, s.byteAt j = none ∧ p = s.cellAt j ∧ ∀ i < j, ∃ c, s.byteAt i = some c ∧ c ≠ b)

/-- In a settled, unfaulted block the ring is never full: FULL answers 0, and `SPACE >= N - MAX_FRAME`, so a PUSH of at
most `N - MAX_FRAME` bytes never overflows (R418, R912). -/
def Obligations.NeverFullAtCommandBoundary : Prop :=
  ∀ s : State, s.Inv → s.fault = 0 → s.Settled →
    s.ringSize - s.cfg.maxFrame ≤ s.space
    ∧ exec .full s = .next { s with responses := s.responses ++ [⟨.ok, 0⟩] }
    ∧ ∀ (len : Half) (data : List Byte), data.length = len.toNat → len.toNat ≤ s.ringSize - s.cfg.maxFrame →
      exec (.push len data) s ≠ .next { s with responses := s.responses ++ [⟨.bufferOverflow, 0⟩] }

/-! ### The zero-copy path and fragmentation -/

/-- The two delivery paths agree: staging `d`, of at most one writable view, and committing it leaves the block as
PUSH of `d` does, in everything but the record of responses (R217, R319 (b), R412, R413). -/
def Obligations.ZeroCopyAgreesWithPush : Prop :=
  ∀ (s : State) (d : List Byte), s.Inv → s.fault = 0 → d.length ≤ s.wviewLen →
    ∃ t u : State,
      exec (.push (BitVec.ofNat 16 d.length) d) s = .next t
      ∧ execAll (d.zipIdx.map (fun e => Instr.vwrite (BitVec.ofNat 16 e.2) e.1)
          ++ [.advance (BitVec.ofNat 16 d.length)]) s = .next u
      ∧ u = { t with responses := u.responses }

/-- Fragmentation (R617) for one cut of a PUSH: if neither delivery faults, pushing `a` and then `b` leaves the arena, the
ring cells and `WR` as one PUSH of `a ++ b` does. The residue, and so `RD`, may differ (90_conflicts.md C10). -/
def Obligations.FragmentationKeepsArena : Prop :=
  ∀ (s t u v : State) (a b : List Byte), s.Inv → s.fault = 0 → s.Settled → (a ++ b).length ≤ s.space →
    exec (.push (BitVec.ofNat 16 (a ++ b).length) (a ++ b)) s = .next t →
    exec (.push (BitVec.ofNat 16 a.length) a) s = .next u →
    exec (.push (BitVec.ofNat 16 b.length) b) u = .next v →
    t.fault = 0 → v.fault = 0 →
    v.arena = t.arena ∧ v.ring = t.ring ∧ v.wr = t.wr

/-- Fragmentation invariance (R617): two runs of host commands from one state, neither with a CLEAR and neither ending in a
fault, that commit the same stream make the same sequence of dispatches, each with its cmd and payload, and so leave the
same arena, however PUSH and ADVANCE cut the stream and whatever queries and VWRITEs stand between. A delivery turned away
with BUFFER_OVERFLOW commits nothing, so it needs no premise. The residue may differ (90_conflicts.md C10). -/
def Obligations.FragmentationKeepsDispatches : Prop :=
  ∀ (s t u : State) (is js : List Instr), s.Inv → s.fault = 0 → s.Settled →
    (∀ i ∈ is ++ js, keepsStream i = true) →
    execAll is s = .next t → execAll js s = .next u → t.fault = 0 → u.fault = 0 →
    streamOf is s = streamOf js s →
    dispatchesOf is s = dispatchesOf js s ∧ t.arena = u.arena ∧ t.wr = u.wr

/-- A conforming frame is received (R304, R510 case 1, R618): into an empty ring, PUSH of junk without SOF followed by
`FRAME(cmd, seq, p)` for a registered cmd of size `|p|` puts exactly `p` in that cmd's slot, changes no other arena byte,
and leaves the ring empty. -/
def Obligations.PushedFrameReachesSlot : Prop :=
  ∀ (s : State) (cmd : Half) (seq : Byte) (slot : Slot) (j p : List Byte), s.Inv → s.fault = 0 → s.avail = 0 →
    s.cfg.slotOf cmd = some slot → p.length = slot.entry.size → (∀ b ∈ j, b ≠ sof) →
    (j ++ frameBytes cmd seq p).length ≤ s.space →
    ∃ t : State,
      exec (.push (BitVec.ofNat 16 (j ++ frameBytes cmd seq p).length) (j ++ frameBytes cmd seq p)) s = .next t
      ∧ t.responses = s.responses ++ [⟨.ok, 0⟩] ∧ t.fault = 0 ∧ t.avail = 0
      ∧ t.wr.toNat = (s.wr.toNat + (j.length + 9 + p.length)) % s.ringSize
      ∧ (∀ (k : Nat) (h : k < p.length), t.arenaByte (slot.offset + k) = p[k])
      ∧ (∀ a, a < slot.offset ∨ slot.offset + p.length ≤ a → t.arenaByte a = s.arenaByte a)

/-! ### The wire units -/

/-- JUNK drops exactly the bytes before the first SOF of the readable view, or the whole view if it holds none, and changes
`RD` alone (R603; JUNK as one pass: notes/assumptions/4.md). -/
def Obligations.JunkDropsBytesBeforeSof : Prop :=
  ∀ (s : State) (b : Byte) (k : Nat), s.Inv → s.fault = 0 → headerSize ≤ s.avail → k ≤ s.rview →
    (∀ j < k, ∃ c, s.byteAt j = some c ∧ c ≠ sof) → (k = s.rview ∨ s.byteAt k = some sof) →
    ∃ t : State, exec (.junk b) s = .next t ∧ t = { s with rd := t.rd }
      ∧ t.rd.toNat = (s.rd.toNat + k) % s.ringSize ∧ t.avail + k = s.avail

/-- JUNK that meets an `UNDEF` cell before any SOF raises UNDEF_BYTE with the cell's index and drops nothing (R620,
R806; JUNK as one pass: notes/assumptions/4.md). -/
def Obligations.JunkMeetsUnwrittenCell : Prop :=
  ∀ (s : State) (b : Byte) (k : Nat), s.Inv → s.fault = 0 → headerSize ≤ s.avail → k < s.rview →
    (∀ j < k, ∃ c, s.byteAt j = some c ∧ c ≠ sof) → s.byteAt k = none →
    ∃ info : Word, exec (.junk b) s = .next
        { s with fault := 0x4, faultInfo := info, responses := s.responses ++ [⟨.faulted, 0⟩] }
      ∧ info.toNat = (s.rd.toNat + k) % s.ringSize

/-- The checks of parse_frame before the CRC16, in order (R606, R608, R609, R611): a bad CRC8 or an implausible length
drops one byte and changes `RD` alone; an incomplete frame changes nothing. FRAME as one pass: notes/assumptions/4.md. -/
def Obligations.FrameHeaderChecks : Prop :=
  ∀ (s : State) (cmd len : Half) (seq crc : Byte), s.Inv → s.fault = 0 → headerSize ≤ s.avail →
    ((crc8 (headerBody cmd len seq) ≠ crc ∨ s.cfg.maxPayload < len.toNat) →
      ∃ t : State, exec (.frame cmd len seq crc) s = .next t ∧ t = { s with rd := t.rd }
        ∧ t.rd.toNat = (s.rd.toNat + 1) % s.ringSize ∧ t.avail + 1 = s.avail)
    ∧ (crc8 (headerBody cmd len seq) = crc → len.toNat ≤ s.cfg.maxPayload → s.avail < 9 + len.toNat →
      exec (.frame cmd len seq crc) s = .next s)

/-- The CRC16 check (R610): a complete frame whose CRC16 is not its little-endian tail drops one byte and changes `RD`
alone (R611; FRAME as one pass: notes/assumptions/4.md). -/
def Obligations.FrameTailMismatchDropsOneByte : Prop :=
  ∀ (s : State) (cmd len : Half) (seq crc t0 t1 : Byte) (covered : List Byte), s.Inv → s.fault = 0 →
    crc8 (headerBody cmd len seq) = crc → len.toNat ≤ s.cfg.maxPayload → 9 + len.toNat ≤ s.avail →
    s.peek 0 (9 + len.toNat) = .ok (covered ++ [t0, t1]) →
    (crc16 covered).toNat ≠ t0.toNat + 256 * t1.toNat →
    ∃ t : State, exec (.frame cmd len seq crc) s = .next t ∧ t = { s with rd := t.rd }
      ∧ t.rd.toNat = (s.rd.toNat + 1) % s.ringSize ∧ t.avail + 1 = s.avail

/-- UNDEF_BYTE of the engine (R605, R610, R620, R806). A FRAME that passes its CRC8 check, the length bound and the
completeness check, with its first `UNDEF` cell `k < 9 + L` cells from `RD`, raises UNDEF_BYTE with that cell's index and
changes nothing else (FRAME as one pass: notes/assumptions/4.md). A pass of the drain does the same at the first `UNDEF`
cell it examines, in the scan, in the header, or in the payload and tail; and it raises UNDEF_BYTE at no other cell. -/
def Obligations.EngineMeetsUnwrittenCell : Prop :=
  ∀ s : State, s.Inv → s.fault = 0 →
    (∀ (cmd len : Half) (seq crc : Byte) (k : Nat), crc8 (headerBody cmd len seq) = crc →
      len.toNat ≤ s.cfg.maxPayload → 9 + len.toNat ≤ s.avail → k < 9 + len.toNat → s.firstUndefAt k →
      ∃ info : Word, exec (.frame cmd len seq crc) s = .next
          { s with fault := 0x4, faultInfo := info, responses := s.responses ++ [⟨.faulted, 0⟩] }
        ∧ info.toNat = (s.rd.toNat + k) % s.ringSize)
    ∧ (∀ k, s.examines k → s.firstUndefAt k →
      ∃ info : Word, drainPass s = .raised
          { s with fault := 0x4, faultInfo := info, responses := s.responses ++ [⟨.faulted, 0⟩] }
        ∧ info.toNat = (s.rd.toNat + k) % s.ringSize)
    ∧ (∀ t, drainPass s = .raised t → t.fault = 0x4 →
      ∃ k, s.examines k ∧ s.firstUndefAt k ∧ t.faultInfo.toNat = (s.rd.toNat + k) % s.ringSize)

/-- A valid frame at the head is consumed whole (R510): for a known cmd whose slot start leaves room its payload, of any
bounded length, is written from the slot's start, in wire order, and no other arena byte changes; for an unknown cmd no
arena byte changes. FRAME as one pass: notes/assumptions/4.md. -/
def Obligations.ValidFrameDispatches : Prop :=
  ∀ (s : State) (cmd : Half) (seq : Byte) (p : List Byte), s.Inv → s.fault = 0 →
    p.length ≤ s.cfg.maxPayload → 9 + p.length ≤ s.avail →
    s.peek 0 (9 + p.length) = .ok (frameBytes cmd seq p) →
    (∀ slot, s.cfg.slotOf cmd = some slot → slot.offset + p.length ≤ s.cfg.total →
      ∃ t : State, exec (.frame cmd (BitVec.ofNat 16 p.length) seq
          (crc8 (headerBody cmd (BitVec.ofNat 16 p.length) seq))) s = .next t
        ∧ t = { s with rd := t.rd, arena := t.arena } ∧ t.rd.toNat = (s.rd.toNat + (9 + p.length)) % s.ringSize
        ∧ (∀ (k : Nat) (h : k < p.length), t.arenaByte (slot.offset + k) = p[k])
        ∧ (∀ a, a < slot.offset ∨ slot.offset + p.length ≤ a → t.arenaByte a = s.arenaByte a))
    ∧ (s.cfg.slotOf cmd = none →
      ∃ t : State, exec (.frame cmd (BitVec.ofNat 16 p.length) seq
          (crc8 (headerBody cmd (BitVec.ofNat 16 p.length) seq))) s = .next t
        ∧ t = { s with rd := t.rd } ∧ t.rd.toNat = (s.rd.toNat + (9 + p.length)) % s.ringSize)

/-- A valid frame of a known cmd that would write past the arena raises ARENA_OVERRUN with cmd and length, before its
header is discarded and before any byte is written (R807; FRAME as one pass: notes/assumptions/4.md). -/
def Obligations.OverrunningFrameFaults : Prop :=
  ∀ (s : State) (cmd : Half) (seq : Byte) (p : List Byte) (slot : Slot), s.Inv → s.fault = 0 →
    p.length ≤ s.cfg.maxPayload → 9 + p.length ≤ s.avail →
    s.peek 0 (9 + p.length) = .ok (frameBytes cmd seq p) →
    s.cfg.slotOf cmd = some slot → s.cfg.total < slot.offset + p.length →
    ∃ info : Word, exec (.frame cmd (BitVec.ofNat 16 p.length) seq
          (crc8 (headerBody cmd (BitVec.ofNat 16 p.length) seq))) s = .next
        { s with fault := 0x8, faultInfo := info, responses := s.responses ++ [⟨.faulted, 0⟩] }
      ∧ info.toNat = cmd.toNat * 65536 + p.length

/-- Dispatched implies valid (R306, R619), for every dispatch, of a known or an unknown cmd, of any length, whether or not
it changes a byte: if ParseFrame returns SUCCESS, or a pass of the drain dispatches or changes an arena byte, the committed
bytes at the head start with a valid frame, what is dispatched is that frame's cmd and payload, and the frame's whole
length is consumed. -/
def Obligations.DispatchedImpliesValid : Prop :=
  ∀ s t : State, s.Inv →
    parseFrame s = .success t ∨ (drainPass s = .again t ∧ (s.passDispatches ≠ [] ∨ t.arena ≠ s.arena)) →
    ∃ f : List Byte, s.peek 0 f.length = .ok f ∧ f.length ≤ s.avail
      ∧ startsValid s.cfg.maxPayload f = true ∧ f.length = 9 + (fieldAt f 3).toNat
      ∧ t.rd.toNat = (s.rd.toNat + f.length) % s.ringSize
      ∧ drainPass s = .again t
      ∧ s.passDispatches = [⟨fieldAt f 1, (f.drop headerSize).take (fieldAt f 3).toNat⟩]

/-- Every `FRAME(cmd, seq, p)` with `|p| <= MAXP` starts with a valid frame (R306), for a bound a `data_len` field can
hold. -/
def Obligations.ConstructedFramesAreValid : Prop :=
  ∀ (maxp : Nat) (cmd : Half) (seq : Byte) (p rest : List Byte), maxp < 65536 → p.length ≤ maxp →
    startsValid maxp (frameBytes cmd seq p ++ rest) = true ∧ (frameBytes cmd seq p).length = 9 + p.length

/-! ### The drain -/

/-- Every pass that goes on drops at least one committed byte, and a drain never runs out of its `AVAIL + 1` passes
(R612). -/
def Obligations.DrainTerminates : Prop :=
  ∀ s : State, s.Inv →
    (∀ t, drainPass s = .again t → t.avail < s.avail) ∧ drainAll s ≠ .stuck

/-- Forward progress (R616): a drain that ends without a fault leaves fewer than seven committed bytes, or a SOF at the head
and too few bytes to complete the frame there. -/
def Obligations.DrainMakesProgress : Prop :=
  ∀ s t : State, s.Inv → drainAll s = .done t →
    t.settled = true
    ∧ (t.avail < 7 ∨ (t.byteAt 0 = some sof
        ∧ ∃ l0 l1 : Byte, t.byteAt 3 = some l0 ∧ t.byteAt 4 = some l1
          ∧ t.avail < 9 + (l0.toNat + 256 * l1.toNat)))

/-- A drain is its passes, one after another: a pass that goes on leaves the rest of the drain to the state it left, and a
pass that returns or raises a fault ends it (R601, R611). So the drain of a command runs every unit `exec` decodes. -/
def Obligations.DrainFollowsItsPasses : Prop :=
  ∀ s : State, s.Inv →
    (∀ t, drainPass s = .again t → drainAll s = drainAll t)
    ∧ (∀ t, drainPass s = .leave t → drainAll s = .done t ∧ t = s)
    ∧ (∀ t, drainPass s = .raised t → drainAll s = .raised t)

/-- Idempotence (R613): a second drain of a state a drain has left changes nothing. -/
def Obligations.SecondDrainChangesNothing : Prop :=
  ∀ s t : State, s.Inv → drainAll s = .done t → drainAll t = .done t

/-- What a drain may change (R101, R104, R111, R601): `RD` and the arena; and, if it raised a fault, the fault registers and
one response. The ring's cells, `WR`, the port and the configuration stay. -/
def Obligations.DrainFrame : Prop :=
  ∀ s t : State,
    (drainAll s = .done t → t = { s with rd := t.rd, arena := t.arena })
    ∧ (drainAll s = .raised t →
      t = { s with rd := t.rd, arena := t.arena, fault := t.fault, faultInfo := t.faultInfo,
                   responses := s.responses ++ [⟨.faulted, 0⟩] })

/-! ### Kernels and layout -/

/-- The table form of CRC8 gives the same value for every input and seed (R702), and `T8[x]` is `CRC8([x], 0)`. -/
def Obligations.Crc8TableForm : Prop :=
  (∀ (seed : Byte) (bs : List Byte), crc8ByTable seed bs = crc8From seed bs)
  ∧ ∀ x : Byte, t8[x.toNat]? = some (crc8From 0 [x])

/-- The table form of CRC16 gives the same value for every input and seed (R705), and `T16[x]` is `CRC16([x], 0)`. -/
def Obligations.Crc16TableForm : Prop :=
  (∀ (seed : Half) (bs : List Byte), crc16ByTable seed bs = crc16From seed bs)
  ∧ ∀ x : Byte, t16[x.toNat]? = some (crc16From 0 [x])

/-- Continuation (R703 (1), R706): a kernel run over a sequence cut anywhere, the second part seeded with the first part's
value, gives the value of the whole. -/
def Obligations.KernelsContinue : Prop :=
  ∀ a b : List Byte,
    (∀ seed : Byte, crc8From seed (a ++ b) = crc8From (crc8From seed a) b)
    ∧ ∀ seed : Half, crc16From seed (a ++ b) = crc16From (crc16From seed a) b

/-- Any change confined to one byte of a message is seen by both kernels, whatever precedes and follows it (R619's
single-bit corruption is a case): the kernels are injective in each byte. -/
def Obligations.KernelsSeeSingleByteChanges : Prop :=
  ∀ (pre post : List Byte) (x y : Byte), x ≠ y →
    crc8 (pre ++ x :: post) ≠ crc8 (pre ++ y :: post) ∧ crc16 (pre ++ x :: post) ≠ crc16 (pre ++ y :: post)

/-- The laws of the registry layout (R507), for every configuration that passes the checks. -/
def Obligations.LayoutLaws : Prop :=
  ∀ c : Config, c.valid = true →
    (∀ (i : Nat) (a : Slot), c.slots[i]? = some a →
      a.offset % a.entry.align = 0 ∧ c.registry[i]? = some a.entry ∧ a.offset + a.entry.size ≤ c.total
      ∧ ∀ (j : Nat) (b : Slot), i < j → c.slots[j]? = some b →
        a.offset + a.entry.size ≤ b.offset ∧ a.offset < b.offset)
    ∧ (∀ a : Slot, c.slots.getLast? = some a → a.offset + a.entry.size = c.total)
    ∧ c.slots.length = c.registry.length

/-! ### Faults, reset and whole-machine rules -/

/-- An illegal word at the port of a block that is not faulted executes nothing and raises ILLEGAL_COMMAND with the word
(R314, R804). -/
def Obligations.IllegalWordFaults : Prop :=
  ∀ (s : State) (w : Word) (data : List Byte) (rest : List HostEvent), s.Ready →
    s.port = .command w data :: rest → illegalWord w data →
    step s = .next { s with port := rest, fault := 0x1, faultInfo := w,
                            responses := s.responses ++ [⟨.faulted, 0⟩] }

/-- A faulted block (R809): the FAULTS and FAULTINFO words answer their registers; every other command word, legal or
illegal, answers `(FAULTED, 0)`; no state changes but the event taken and the response given. -/
def Obligations.FaultedBlockIsQuiescent : Prop :=
  ∀ (s : State) (w : Word) (data : List Byte) (rest : List HostEvent), s.cfg.valid = true → s.fault ≠ 0 →
    s.port = .command w data :: rest →
    (w = 0xC0000000 → step s = .next { s with port := rest, responses := s.responses ++ [⟨.ok, s.fault⟩] })
    ∧ (w = 0xD0000000 → step s = .next { s with port := rest, responses := s.responses ++ [⟨.ok, s.faultInfo⟩] })
    ∧ (w ≠ 0xC0000000 → w ≠ 0xD0000000 →
      step s = .next { s with port := rest, responses := s.responses ++ [⟨.faulted, 0⟩] })

/-- In a faulted block the engine does not run: FRAME and JUNK change nothing (R809; that `exec` answers their
state unchanged is the model's choice, notes/assumptions/16.md). -/
def Obligations.FaultedEngineIsIdle : Prop :=
  ∀ (s : State) (cmd len : Half) (seq crc b : Byte), s.cfg.valid = true → s.fault ≠ 0 →
    exec (.frame cmd len seq crc) s = .next s ∧ exec (.junk b) s = .next s

/-- A reset event puts every register, cell and arena byte at its reset value and keeps the configuration (R901, R902); the
port and the record of responses, the host's, stay (notes/assumptions/6.md). -/
def Obligations.ResetEventRestores : Prop :=
  ∀ (s : State) (rest : List HostEvent), s.cfg.valid = true → s.port = .reset :: rest →
    ∃ t : State, step s = .next t ∧ t.cfg = s.cfg ∧ t.port = rest ∧ t.responses = s.responses
      ∧ t.rd = 0 ∧ t.wr = 0 ∧ t.fault = 0 ∧ t.faultInfo = 0
      ∧ (∀ p, t.ringCell p = none) ∧ (∀ a, t.arenaByte a = 0)
      ∧ t.avail = 0 ∧ t.space = s.ringSize - 1 ∧ t.wviewLen = s.ringSize - 1 ∧ t.rview = 0
      ∧ t.isEmpty = true ∧ t.isFull = false

/-- Reset is the only exit from the faulted state, and the first fault is kept (R107, R809, R814): any other step of a
faulted block leaves `FAULT` and `FAULT_INFO` as they are. -/
def Obligations.OnlyResetClearsFault : Prop :=
  ∀ s t : State, step s = .next t → s.fault ≠ 0 →
    (t.fault = s.fault ∧ t.faultInfo = s.faultInfo) ∨ (s.port = .reset :: t.port ∧ t.fault = 0 ∧ t.faultInfo = 0)

/-- The reset state of every admitted configuration satisfies the invariant and stands at a residue; `State.reset` is one of
them (its configuration is the model's choice, notes/assumptions/1.md). -/
def Obligations.ResetSatisfiesInvariant : Prop :=
  (∀ c : Config, c.valid = true → (State.resetOf c).Inv ∧ (State.resetOf c).Settled)
  ∧ State.reset = State.resetOf State.reset.cfg ∧ State.reset.cfg.valid = true

/-- Every step keeps the invariant of Safety.lean: indices in range, both memories canonical and inside their spaces, at
most one bit of `FAULT` set, no reserved status given (R101 to R108, R316). -/
def Obligations.StepKeepsInvariant : Prop :=
  ∀ s t : State, s.Inv → step s = .next t → t.Inv

/-- At every command boundary a block that is not faulted stands at a residue (R613). -/
def Obligations.StepKeepsSettled : Prop :=
  ∀ s t : State, s.Inv → s.Settled → step s = .next t → t.Settled

/-- Every command ends: from a state of the invariant a step is never a fault or a refusal, and a taken command gives
exactly one response (R211, R315, R612; the record of responses is the model's, notes/assumptions/3.md). -/
def Obligations.EveryStepAnswers : Prop :=
  ∀ s : State, s.Inv → ∃ t : State, step s = .next t
    ∧ (∀ w data rest, s.port = .command w data :: rest →
      t.port = rest ∧ ∃ r : Response, t.responses = s.responses ++ [r])

/-- The configuration is fixed for the block's life (R109, R905), over any run. -/
def Obligations.ConfigurationIsConstant : Prop :=
  ∀ s t : State, Reaches s t → t.cfg = s.cfg

/-- Only a drain writes the arena, apart from reset (R104, R904): a step whose event is neither a PUSH word, an ADVANCE word
nor a reset leaves every arena byte. -/
def Obligations.ArenaWrittenOnlyByDrain : Prop :=
  ∀ s t : State, step s = .next t → t.arena ≠ s.arena →
    (∃ rest, s.port = .reset :: rest)
    ∨ ∃ w data rest, s.port = .command w data :: rest ∧ (opField w = 0x1 ∨ opField w = 0x4)

end
end

