-- ==== Sys2Proof/Laws/Decode.lean ====
section
/-! SUPPORT. The fields of an assembled command word and the bytes of a 16-bit value, each read back whole. -/

namespace Sys2Proof

@[simp] theorem opField_hostWord (o : BitVec 4) (a : Half) (d : Byte) : opField (hostWord o a d) = o := by
  apply BitVec.eq_of_getLsbD_eq
  intro i hi
  simp only [opField, hostWord, BitVec.getLsbD_extractLsb', BitVec.getLsbD_append]
  have : ¬ 28 + i < 8 := by omega
  have : ¬ 28 + i - 8 < 16 := by omega
  have : ¬ 28 + i - 8 - 16 < 4 := by omega
  simp [*, show 28 + i - 8 - 16 - 4 = i by omega]

@[simp] theorem rsvField_hostWord (o : BitVec 4) (a : Half) (d : Byte) : rsvField (hostWord o a d) = 0 := by
  apply BitVec.eq_of_getLsbD_eq
  intro i hi
  simp only [rsvField, hostWord, BitVec.getLsbD_extractLsb', BitVec.getLsbD_append]
  have : ¬ 24 + i < 8 := by omega
  have : ¬ 24 + i - 8 < 16 := by omega
  have : 24 + i - 8 - 16 < 4 := by omega
  simp [*]

@[simp] theorem argField_hostWord (o : BitVec 4) (a : Half) (d : Byte) : argField (hostWord o a d) = a := by
  apply BitVec.eq_of_getLsbD_eq
  intro i hi
  simp only [argField, hostWord, BitVec.getLsbD_extractLsb', BitVec.getLsbD_append]
  have : ¬ 8 + i < 8 := by omega
  simp [*]

@[simp] theorem dataField_hostWord (o : BitVec 4) (a : Half) (d : Byte) : dataField (hostWord o a d) = d := by
  apply BitVec.eq_of_getLsbD_eq
  intro i hi
  simp only [dataField, hostWord, BitVec.getLsbD_extractLsb', BitVec.getLsbD_append]
  have : 0 + i < 8 := by omega
  simp [*]

/-- A word without reserved bits is the one assembled from its fields. -/
theorem hostWord_fields {w : Word} (h : rsvField w = 0) : hostWord (opField w) (argField w) (dataField w) = w := by
  apply BitVec.eq_of_getLsbD_eq
  intro i hi
  have hr : ∀ j, j < 4 → w.getLsbD (24 + j) = false := by
    intro j hj
    have := congrArg (fun v => v.getLsbD j) h
    simpa [rsvField, hj] using this
  simp only [hostWord, opField, argField, dataField, BitVec.getLsbD_append, BitVec.getLsbD_extractLsb']
  split
  · simp [*]
  · split
    · simp [*, show 8 + (i - 8) = i by omega]
    · split
      · have := hr (i - 24) (by omega)
        rw [show 24 + (i - 24) = i by omega] at this
        simp [this]
      · have : i - 8 - 16 - 4 < 4 := by omega
        simp [this, show 28 + (i - 8 - 16 - 4) = i by omega]

@[simp] theorem lowByte_le16 (lo hi : Byte) : lowByte (le16 lo hi) = lo := by
  apply BitVec.eq_of_getLsbD_eq
  intro i hi'
  simp only [lowByte, le16, BitVec.getLsbD_extractLsb', BitVec.getLsbD_append]
  have : 0 + i < 8 := by omega
  simp [*]

@[simp] theorem highByte_le16 (lo hi : Byte) : highByte (le16 lo hi) = hi := by
  apply BitVec.eq_of_getLsbD_eq
  intro i hi'
  simp only [highByte, le16, BitVec.getLsbD_extractLsb', BitVec.getLsbD_append]
  have : ¬ 8 + i < 8 := by omega
  simp [*]

@[simp] theorem le16_bytes (v : Half) : le16 (lowByte v) (highByte v) = v := by
  apply BitVec.eq_of_getLsbD_eq
  intro i hi'
  simp only [lowByte, highByte, le16, BitVec.getLsbD_extractLsb', BitVec.getLsbD_append]
  split
  · simp [*]
  · have : i - 8 < 8 := by omega
    simp [*, show 8 + (i - 8) = i by omega]

theorem toNat_append {m n : Nat} (x : BitVec m) (y : BitVec n) : (x ++ y).toNat = x.toNat * 2 ^ n + y.toNat := by
  rw [BitVec.toNat_append, ← Nat.shiftLeft_add_eq_or_of_lt y.isLt, Nat.shiftLeft_eq]

/-- The number two wire bytes stand for (R13). -/
theorem le16_toNat (lo hi : Byte) : (le16 lo hi).toNat = lo.toNat + 256 * hi.toNat := by
  rw [le16, toNat_append]
  omega

end Sys2Proof
end

