-- ==== Sys2Proof/Laws/State.lean ====
section
/-! SUPPORT. What each named update of `State` does to each field and to the quantities derived from the fields: every
lemma true by `rfl`, so that no proof unfolds a record update. -/

namespace Sys2Proof.Machine

/-! ### `respond` -/

@[simp] theorem respond_cfg (s : State) (st : Status) (v : Word) : (s.respond st v).cfg = s.cfg := rfl
@[simp] theorem respond_rd (s : State) (st : Status) (v : Word) : (s.respond st v).rd = s.rd := rfl
@[simp] theorem respond_wr (s : State) (st : Status) (v : Word) : (s.respond st v).wr = s.wr := rfl
@[simp] theorem respond_ring (s : State) (st : Status) (v : Word) : (s.respond st v).ring = s.ring := rfl
@[simp] theorem respond_arena (s : State) (st : Status) (v : Word) : (s.respond st v).arena = s.arena := rfl
@[simp] theorem respond_fault (s : State) (st : Status) (v : Word) : (s.respond st v).fault = s.fault := rfl
@[simp] theorem respond_faultInfo (s : State) (st : Status) (v : Word) : (s.respond st v).faultInfo = s.faultInfo := rfl
@[simp] theorem respond_port (s : State) (st : Status) (v : Word) : (s.respond st v).port = s.port := rfl
@[simp] theorem respond_responses (s : State) (st : Status) (v : Word) : (s.respond st v).responses = s.responses ++ [⟨st, v⟩] := rfl

@[simp] theorem respond_ringSize (s : State) (st : Status) (v : Word) : (s.respond st v).ringSize = s.ringSize := rfl
@[simp] theorem respond_avail (s : State) (st : Status) (v : Word) : (s.respond st v).avail = s.avail := rfl
@[simp] theorem respond_space (s : State) (st : Status) (v : Word) : (s.respond st v).space = s.space := rfl
@[simp] theorem respond_rview (s : State) (st : Status) (v : Word) : (s.respond st v).rview = s.rview := rfl
@[simp] theorem respond_wviewLen (s : State) (st : Status) (v : Word) : (s.respond st v).wviewLen = s.wviewLen := rfl
@[simp] theorem respond_isEmpty (s : State) (st : Status) (v : Word) : (s.respond st v).isEmpty = s.isEmpty := rfl
@[simp] theorem respond_isFull (s : State) (st : Status) (v : Word) : (s.respond st v).isFull = s.isFull := rfl
@[simp] theorem respond_isFaulted (s : State) (st : Status) (v : Word) : (s.respond st v).isFaulted = s.isFaulted := rfl
@[simp] theorem respond_ringCell (s : State) (st : Status) (v : Word) (p : Nat) : (s.respond st v).ringCell p = s.ringCell p := rfl
@[simp] theorem respond_arenaByte (s : State) (st : Status) (v : Word) (a : Nat) : (s.respond st v).arenaByte a = s.arenaByte a := rfl
@[simp] theorem respond_cellAt (s : State) (st : Status) (v : Word) (j : Nat) : (s.respond st v).cellAt j = s.cellAt j := rfl
@[simp] theorem respond_byteAt (s : State) (st : Status) (v : Word) (j : Nat) : (s.respond st v).byteAt j = s.byteAt j := rfl

/-! ### `raise` -/

@[simp] theorem raise_cfg (s : State) (k : FaultKind) (info : Word) : (s.raise k info).cfg = s.cfg := rfl
@[simp] theorem raise_rd (s : State) (k : FaultKind) (info : Word) : (s.raise k info).rd = s.rd := rfl
@[simp] theorem raise_wr (s : State) (k : FaultKind) (info : Word) : (s.raise k info).wr = s.wr := rfl
@[simp] theorem raise_ring (s : State) (k : FaultKind) (info : Word) : (s.raise k info).ring = s.ring := rfl
@[simp] theorem raise_arena (s : State) (k : FaultKind) (info : Word) : (s.raise k info).arena = s.arena := rfl
@[simp] theorem raise_fault (s : State) (k : FaultKind) (info : Word) : (s.raise k info).fault = s.fault ||| k.mask := rfl
@[simp] theorem raise_faultInfo (s : State) (k : FaultKind) (info : Word) : (s.raise k info).faultInfo = info := rfl
@[simp] theorem raise_port (s : State) (k : FaultKind) (info : Word) : (s.raise k info).port = s.port := rfl
@[simp] theorem raise_responses (s : State) (k : FaultKind) (info : Word) : (s.raise k info).responses = s.responses ++ [⟨.faulted, 0⟩] := rfl

@[simp] theorem raise_ringSize (s : State) (k : FaultKind) (info : Word) : (s.raise k info).ringSize = s.ringSize := rfl
@[simp] theorem raise_avail (s : State) (k : FaultKind) (info : Word) : (s.raise k info).avail = s.avail := rfl
@[simp] theorem raise_space (s : State) (k : FaultKind) (info : Word) : (s.raise k info).space = s.space := rfl
@[simp] theorem raise_rview (s : State) (k : FaultKind) (info : Word) : (s.raise k info).rview = s.rview := rfl
@[simp] theorem raise_wviewLen (s : State) (k : FaultKind) (info : Word) : (s.raise k info).wviewLen = s.wviewLen := rfl
@[simp] theorem raise_isEmpty (s : State) (k : FaultKind) (info : Word) : (s.raise k info).isEmpty = s.isEmpty := rfl
@[simp] theorem raise_isFull (s : State) (k : FaultKind) (info : Word) : (s.raise k info).isFull = s.isFull := rfl
@[simp] theorem raise_ringCell (s : State) (k : FaultKind) (info : Word) (p : Nat) : (s.raise k info).ringCell p = s.ringCell p := rfl
@[simp] theorem raise_arenaByte (s : State) (k : FaultKind) (info : Word) (a : Nat) : (s.raise k info).arenaByte a = s.arenaByte a := rfl
@[simp] theorem raise_cellAt (s : State) (k : FaultKind) (info : Word) (j : Nat) : (s.raise k info).cellAt j = s.cellAt j := rfl
@[simp] theorem raise_byteAt (s : State) (k : FaultKind) (info : Word) (j : Nat) : (s.raise k info).byteAt j = s.byteAt j := rfl

/-! ### `commit` -/

@[simp] theorem commit_cfg (s : State) (n : Nat) : (s.commit n).cfg = s.cfg := rfl
@[simp] theorem commit_rd (s : State) (n : Nat) : (s.commit n).rd = s.rd := rfl
@[simp] theorem commit_wr (s : State) (n : Nat) : (s.commit n).wr = s.ringIndex (s.wr.toNat + n) := rfl
@[simp] theorem commit_ring (s : State) (n : Nat) : (s.commit n).ring = s.ring := rfl
@[simp] theorem commit_arena (s : State) (n : Nat) : (s.commit n).arena = s.arena := rfl
@[simp] theorem commit_fault (s : State) (n : Nat) : (s.commit n).fault = s.fault := rfl
@[simp] theorem commit_faultInfo (s : State) (n : Nat) : (s.commit n).faultInfo = s.faultInfo := rfl
@[simp] theorem commit_port (s : State) (n : Nat) : (s.commit n).port = s.port := rfl
@[simp] theorem commit_responses (s : State) (n : Nat) : (s.commit n).responses = s.responses := rfl

@[simp] theorem commit_ringSize (s : State) (n : Nat) : (s.commit n).ringSize = s.ringSize := rfl
@[simp] theorem commit_isFaulted (s : State) (n : Nat) : (s.commit n).isFaulted = s.isFaulted := rfl
@[simp] theorem commit_ringCell (s : State) (n : Nat) (p : Nat) : (s.commit n).ringCell p = s.ringCell p := rfl
@[simp] theorem commit_arenaByte (s : State) (n : Nat) (a : Nat) : (s.commit n).arenaByte a = s.arenaByte a := rfl
@[simp] theorem commit_cellAt (s : State) (n : Nat) (j : Nat) : (s.commit n).cellAt j = s.cellAt j := rfl
@[simp] theorem commit_byteAt (s : State) (n : Nat) (j : Nat) : (s.commit n).byteAt j = s.byteAt j := rfl

/-! ### `ringWrite` -/

@[simp] theorem ringWrite_cfg (s : State) (d : List Byte) : (s.ringWrite d).cfg = s.cfg := rfl
@[simp] theorem ringWrite_rd (s : State) (d : List Byte) : (s.ringWrite d).rd = s.rd := rfl
@[simp] theorem ringWrite_wr (s : State) (d : List Byte) : (s.ringWrite d).wr = s.ringIndex (s.wr.toNat + d.length) := rfl
@[simp] theorem ringWrite_ring (s : State) (d : List Byte) : (s.ringWrite d).ring = Memory.writeRing s.ringSize s.ring s.wr.toNat d := rfl
@[simp] theorem ringWrite_arena (s : State) (d : List Byte) : (s.ringWrite d).arena = s.arena := rfl
@[simp] theorem ringWrite_fault (s : State) (d : List Byte) : (s.ringWrite d).fault = s.fault := rfl
@[simp] theorem ringWrite_faultInfo (s : State) (d : List Byte) : (s.ringWrite d).faultInfo = s.faultInfo := rfl
@[simp] theorem ringWrite_port (s : State) (d : List Byte) : (s.ringWrite d).port = s.port := rfl
@[simp] theorem ringWrite_responses (s : State) (d : List Byte) : (s.ringWrite d).responses = s.responses := rfl

@[simp] theorem ringWrite_ringSize (s : State) (d : List Byte) : (s.ringWrite d).ringSize = s.ringSize := rfl
@[simp] theorem ringWrite_isFaulted (s : State) (d : List Byte) : (s.ringWrite d).isFaulted = s.isFaulted := rfl
@[simp] theorem ringWrite_arenaByte (s : State) (d : List Byte) (a : Nat) : (s.ringWrite d).arenaByte a = s.arenaByte a := rfl
@[simp] theorem ringWrite_cellAt (s : State) (d : List Byte) (j : Nat) : (s.ringWrite d).cellAt j = s.cellAt j := rfl

/-! ### `discard` -/

@[simp] theorem discard_cfg (s : State) (n : Nat) : (s.discard n).cfg = s.cfg := rfl
@[simp] theorem discard_rd (s : State) (n : Nat) : (s.discard n).rd = s.ringIndex (s.rd.toNat + n) := rfl
@[simp] theorem discard_wr (s : State) (n : Nat) : (s.discard n).wr = s.wr := rfl
@[simp] theorem discard_ring (s : State) (n : Nat) : (s.discard n).ring = s.ring := rfl
@[simp] theorem discard_arena (s : State) (n : Nat) : (s.discard n).arena = s.arena := rfl
@[simp] theorem discard_fault (s : State) (n : Nat) : (s.discard n).fault = s.fault := rfl
@[simp] theorem discard_faultInfo (s : State) (n : Nat) : (s.discard n).faultInfo = s.faultInfo := rfl
@[simp] theorem discard_port (s : State) (n : Nat) : (s.discard n).port = s.port := rfl
@[simp] theorem discard_responses (s : State) (n : Nat) : (s.discard n).responses = s.responses := rfl

@[simp] theorem discard_ringSize (s : State) (n : Nat) : (s.discard n).ringSize = s.ringSize := rfl
@[simp] theorem discard_isFaulted (s : State) (n : Nat) : (s.discard n).isFaulted = s.isFaulted := rfl
@[simp] theorem discard_ringCell (s : State) (n : Nat) (p : Nat) : (s.discard n).ringCell p = s.ringCell p := rfl
@[simp] theorem discard_arenaByte (s : State) (n : Nat) (a : Nat) : (s.discard n).arenaByte a = s.arenaByte a := rfl

/-! ### `stage` -/

@[simp] theorem stage_cfg (s : State) (i : Nat) (b : Byte) : (s.stage i b).cfg = s.cfg := rfl
@[simp] theorem stage_rd (s : State) (i : Nat) (b : Byte) : (s.stage i b).rd = s.rd := rfl
@[simp] theorem stage_wr (s : State) (i : Nat) (b : Byte) : (s.stage i b).wr = s.wr := rfl
@[simp] theorem stage_ring (s : State) (i : Nat) (b : Byte) : (s.stage i b).ring = Memory.write ringUnlisted s.ring (s.wr.toNat + i) b := rfl
@[simp] theorem stage_arena (s : State) (i : Nat) (b : Byte) : (s.stage i b).arena = s.arena := rfl
@[simp] theorem stage_fault (s : State) (i : Nat) (b : Byte) : (s.stage i b).fault = s.fault := rfl
@[simp] theorem stage_faultInfo (s : State) (i : Nat) (b : Byte) : (s.stage i b).faultInfo = s.faultInfo := rfl
@[simp] theorem stage_port (s : State) (i : Nat) (b : Byte) : (s.stage i b).port = s.port := rfl
@[simp] theorem stage_responses (s : State) (i : Nat) (b : Byte) : (s.stage i b).responses = s.responses := rfl

@[simp] theorem stage_ringSize (s : State) (i : Nat) (b : Byte) : (s.stage i b).ringSize = s.ringSize := rfl
@[simp] theorem stage_avail (s : State) (i : Nat) (b : Byte) : (s.stage i b).avail = s.avail := rfl
@[simp] theorem stage_space (s : State) (i : Nat) (b : Byte) : (s.stage i b).space = s.space := rfl
@[simp] theorem stage_rview (s : State) (i : Nat) (b : Byte) : (s.stage i b).rview = s.rview := rfl
@[simp] theorem stage_wviewLen (s : State) (i : Nat) (b : Byte) : (s.stage i b).wviewLen = s.wviewLen := rfl
@[simp] theorem stage_isEmpty (s : State) (i : Nat) (b : Byte) : (s.stage i b).isEmpty = s.isEmpty := rfl
@[simp] theorem stage_isFull (s : State) (i : Nat) (b : Byte) : (s.stage i b).isFull = s.isFull := rfl
@[simp] theorem stage_isFaulted (s : State) (i : Nat) (b : Byte) : (s.stage i b).isFaulted = s.isFaulted := rfl
@[simp] theorem stage_arenaByte (s : State) (i : Nat) (b : Byte) (a : Nat) : (s.stage i b).arenaByte a = s.arenaByte a := rfl
@[simp] theorem stage_cellAt (s : State) (i : Nat) (b : Byte) (j : Nat) : (s.stage i b).cellAt j = s.cellAt j := rfl

/-! ### `clearRing` -/

@[simp] theorem clearRing_cfg (s : State) : (s.clearRing).cfg = s.cfg := rfl
@[simp] theorem clearRing_rd (s : State) : (s.clearRing).rd = 0 := rfl
@[simp] theorem clearRing_wr (s : State) : (s.clearRing).wr = 0 := rfl
@[simp] theorem clearRing_ring (s : State) : (s.clearRing).ring = s.ring := rfl
@[simp] theorem clearRing_arena (s : State) : (s.clearRing).arena = s.arena := rfl
@[simp] theorem clearRing_fault (s : State) : (s.clearRing).fault = s.fault := rfl
@[simp] theorem clearRing_faultInfo (s : State) : (s.clearRing).faultInfo = s.faultInfo := rfl
@[simp] theorem clearRing_port (s : State) : (s.clearRing).port = s.port := rfl
@[simp] theorem clearRing_responses (s : State) : (s.clearRing).responses = s.responses := rfl

@[simp] theorem clearRing_ringSize (s : State) : (s.clearRing).ringSize = s.ringSize := rfl
@[simp] theorem clearRing_isFaulted (s : State) : (s.clearRing).isFaulted = s.isFaulted := rfl
@[simp] theorem clearRing_ringCell (s : State) (p : Nat) : (s.clearRing).ringCell p = s.ringCell p := rfl
@[simp] theorem clearRing_arenaByte (s : State) (a : Nat) : (s.clearRing).arenaByte a = s.arenaByte a := rfl

/-! ### `storeArena` -/

@[simp] theorem storeArena_cfg (s : State) (a : Nat) (bs : List Byte) : (s.storeArena a bs).cfg = s.cfg := rfl
@[simp] theorem storeArena_rd (s : State) (a : Nat) (bs : List Byte) : (s.storeArena a bs).rd = s.rd := rfl
@[simp] theorem storeArena_wr (s : State) (a : Nat) (bs : List Byte) : (s.storeArena a bs).wr = s.wr := rfl
@[simp] theorem storeArena_ring (s : State) (a : Nat) (bs : List Byte) : (s.storeArena a bs).ring = s.ring := rfl
@[simp] theorem storeArena_arena (s : State) (a : Nat) (bs : List Byte) : (s.storeArena a bs).arena = Memory.writeArena s.arena a bs := rfl
@[simp] theorem storeArena_fault (s : State) (a : Nat) (bs : List Byte) : (s.storeArena a bs).fault = s.fault := rfl
@[simp] theorem storeArena_faultInfo (s : State) (a : Nat) (bs : List Byte) : (s.storeArena a bs).faultInfo = s.faultInfo := rfl
@[simp] theorem storeArena_port (s : State) (a : Nat) (bs : List Byte) : (s.storeArena a bs).port = s.port := rfl
@[simp] theorem storeArena_responses (s : State) (a : Nat) (bs : List Byte) : (s.storeArena a bs).responses = s.responses := rfl

@[simp] theorem storeArena_ringSize (s : State) (a : Nat) (bs : List Byte) : (s.storeArena a bs).ringSize = s.ringSize := rfl
@[simp] theorem storeArena_avail (s : State) (a : Nat) (bs : List Byte) : (s.storeArena a bs).avail = s.avail := rfl
@[simp] theorem storeArena_space (s : State) (a : Nat) (bs : List Byte) : (s.storeArena a bs).space = s.space := rfl
@[simp] theorem storeArena_rview (s : State) (a : Nat) (bs : List Byte) : (s.storeArena a bs).rview = s.rview := rfl
@[simp] theorem storeArena_wviewLen (s : State) (a : Nat) (bs : List Byte) : (s.storeArena a bs).wviewLen = s.wviewLen := rfl
@[simp] theorem storeArena_isEmpty (s : State) (a : Nat) (bs : List Byte) : (s.storeArena a bs).isEmpty = s.isEmpty := rfl
@[simp] theorem storeArena_isFull (s : State) (a : Nat) (bs : List Byte) : (s.storeArena a bs).isFull = s.isFull := rfl
@[simp] theorem storeArena_isFaulted (s : State) (a : Nat) (bs : List Byte) : (s.storeArena a bs).isFaulted = s.isFaulted := rfl
@[simp] theorem storeArena_ringCell (s : State) (a : Nat) (bs : List Byte) (p : Nat) : (s.storeArena a bs).ringCell p = s.ringCell p := rfl
@[simp] theorem storeArena_cellAt (s : State) (a : Nat) (bs : List Byte) (j : Nat) : (s.storeArena a bs).cellAt j = s.cellAt j := rfl
@[simp] theorem storeArena_byteAt (s : State) (a : Nat) (bs : List Byte) (j : Nat) : (s.storeArena a bs).byteAt j = s.byteAt j := rfl

/-! ### `resetBlock` -/

@[simp] theorem resetBlock_cfg (s : State) : (s.resetBlock).cfg = s.cfg := rfl
@[simp] theorem resetBlock_rd (s : State) : (s.resetBlock).rd = 0 := rfl
@[simp] theorem resetBlock_wr (s : State) : (s.resetBlock).wr = 0 := rfl
@[simp] theorem resetBlock_ring (s : State) : (s.resetBlock).ring = [] := rfl
@[simp] theorem resetBlock_arena (s : State) : (s.resetBlock).arena = [] := rfl
@[simp] theorem resetBlock_fault (s : State) : (s.resetBlock).fault = 0 := rfl
@[simp] theorem resetBlock_faultInfo (s : State) : (s.resetBlock).faultInfo = 0 := rfl
@[simp] theorem resetBlock_port (s : State) : (s.resetBlock).port = s.port := rfl
@[simp] theorem resetBlock_responses (s : State) : (s.resetBlock).responses = s.responses := rfl

@[simp] theorem resetBlock_ringSize (s : State) : (s.resetBlock).ringSize = s.ringSize := rfl

/-! ### Taking an event from the port -/

@[simp] theorem takePort_cfg (s : State) (rest : List HostEvent) : ({ s with port := rest } : State).cfg = s.cfg := rfl
@[simp] theorem takePort_rd (s : State) (rest : List HostEvent) : ({ s with port := rest } : State).rd = s.rd := rfl
@[simp] theorem takePort_wr (s : State) (rest : List HostEvent) : ({ s with port := rest } : State).wr = s.wr := rfl
@[simp] theorem takePort_ring (s : State) (rest : List HostEvent) : ({ s with port := rest } : State).ring = s.ring := rfl
@[simp] theorem takePort_arena (s : State) (rest : List HostEvent) : ({ s with port := rest } : State).arena = s.arena := rfl
@[simp] theorem takePort_fault (s : State) (rest : List HostEvent) : ({ s with port := rest } : State).fault = s.fault := rfl
@[simp] theorem takePort_faultInfo (s : State) (rest : List HostEvent) : ({ s with port := rest } : State).faultInfo = s.faultInfo := rfl
@[simp] theorem takePort_port (s : State) (rest : List HostEvent) : ({ s with port := rest } : State).port = rest := rfl
@[simp] theorem takePort_responses (s : State) (rest : List HostEvent) : ({ s with port := rest } : State).responses = s.responses := rfl

@[simp] theorem takePort_ringSize (s : State) (rest : List HostEvent) : ({ s with port := rest } : State).ringSize = s.ringSize := rfl
@[simp] theorem takePort_avail (s : State) (rest : List HostEvent) : ({ s with port := rest } : State).avail = s.avail := rfl
@[simp] theorem takePort_space (s : State) (rest : List HostEvent) : ({ s with port := rest } : State).space = s.space := rfl
@[simp] theorem takePort_rview (s : State) (rest : List HostEvent) : ({ s with port := rest } : State).rview = s.rview := rfl
@[simp] theorem takePort_wviewLen (s : State) (rest : List HostEvent) : ({ s with port := rest } : State).wviewLen = s.wviewLen := rfl
@[simp] theorem takePort_isEmpty (s : State) (rest : List HostEvent) : ({ s with port := rest } : State).isEmpty = s.isEmpty := rfl
@[simp] theorem takePort_isFull (s : State) (rest : List HostEvent) : ({ s with port := rest } : State).isFull = s.isFull := rfl
@[simp] theorem takePort_isFaulted (s : State) (rest : List HostEvent) : ({ s with port := rest } : State).isFaulted = s.isFaulted := rfl
@[simp] theorem takePort_ringCell (s : State) (rest : List HostEvent) (p : Nat) : ({ s with port := rest } : State).ringCell p = s.ringCell p := rfl
@[simp] theorem takePort_arenaByte (s : State) (rest : List HostEvent) (a : Nat) : ({ s with port := rest } : State).arenaByte a = s.arenaByte a := rfl
@[simp] theorem takePort_cellAt (s : State) (rest : List HostEvent) (j : Nat) : ({ s with port := rest } : State).cellAt j = s.cellAt j := rfl
@[simp] theorem takePort_byteAt (s : State) (rest : List HostEvent) (j : Nat) : ({ s with port := rest } : State).byteAt j = s.byteAt j := rfl

/-! ### Peeking and scanning after an update that keeps the read index and the ring -/

theorem peek_congr {s t : State} (h : ∀ j, t.byteAt j = s.byteAt j) (hc : ∀ j, t.cellAt j = s.cellAt j) (n : Nat) :
    ∀ j, t.peek j n = s.peek j n := by
  induction n with
  | zero => intro j; rfl
  | succ n ih => intro j; simp only [State.peek, h, hc, ih]

theorem scanFor_congr {s t : State} (h : ∀ j, t.byteAt j = s.byteAt j) (hc : ∀ j, t.cellAt j = s.cellAt j) (b : Byte)
    (n : Nat) : ∀ j, t.scanFor b j n = s.scanFor b j n := by
  induction n with
  | zero => intro j; rfl
  | succ n ih => intro j; simp only [State.scanFor, h, hc, ih]

/-! ### The state after reset -/

@[simp] theorem resetOf_cfg (c : Config) : (State.resetOf c).cfg = c := rfl
@[simp] theorem resetOf_rd (c : Config) : (State.resetOf c).rd = 0 := rfl
@[simp] theorem resetOf_wr (c : Config) : (State.resetOf c).wr = 0 := rfl
@[simp] theorem resetOf_ring (c : Config) : (State.resetOf c).ring = [] := rfl
@[simp] theorem resetOf_arena (c : Config) : (State.resetOf c).arena = [] := rfl
@[simp] theorem resetOf_fault (c : Config) : (State.resetOf c).fault = 0 := rfl
@[simp] theorem resetOf_faultInfo (c : Config) : (State.resetOf c).faultInfo = 0 := rfl
@[simp] theorem resetOf_port (c : Config) : (State.resetOf c).port = [] := rfl
@[simp] theorem resetOf_responses (c : Config) : (State.resetOf c).responses = [] := rfl

end Sys2Proof.Machine
end

