-- ==== Sys2Proof/Laws/Memory.lean ====
section
/-! SUPPORT. The laws of a memory in canonical form: reading after writing, the canonical form kept by every operation,
and equal reads only of equal lists. -/

namespace Sys2Proof.Machine

variable {u : Option Byte}

/-! ### The canonical form -/

theorem wf_cons {k : Nat} {c : Byte} {m : Memory} :
    Memory.wf u ((k, c) :: m) = true ↔ some c ≠ u ∧ (∀ e ∈ m, k < e.1) ∧ Memory.wf u m = true := by
  simp [Memory.wf, and_assoc]

theorem read_of_above {a : Nat} : ∀ {m : Memory}, (∀ e ∈ m, a < e.1) → Memory.read u m a = u
  | [], _ => rfl
  | (k, c) :: m, h => by
    have hk : a ≠ k := Nat.ne_of_lt (h (k, c) (by simp))
    simp only [Memory.read, if_neg hk]
    exact read_of_above fun e he => h e (by simp [he])

theorem write_addr_mem {a : Nat} {b : Byte} :
    ∀ {m : Memory} {e : Host.Cell}, e ∈ Memory.write u m a b → e.1 = a ∨ e ∈ m
  | [], e, h => by
    unfold Memory.write at h
    split at h <;> simp_all
  | (k, c) :: m, e, h => by
    unfold Memory.write at h
    split at h
    · split at h
      · exact .inr h
      · rcases List.mem_cons.mp h with rfl | h
        · exact .inl rfl
        · exact .inr h
    · split at h
      · split at h
        · exact .inr (List.mem_cons_of_mem _ h)
        · rcases List.mem_cons.mp h with rfl | h
          · exact .inl rfl
          · exact .inr (List.mem_cons_of_mem _ h)
      · rcases List.mem_cons.mp h with rfl | h
        · exact .inr (by simp)
        · exact (write_addr_mem h).imp_right (List.mem_cons_of_mem _)

/-- Writing keeps the canonical form. -/
theorem wf_write {a : Nat} {b : Byte} :
    ∀ {m : Memory}, Memory.wf u m = true → Memory.wf u (Memory.write u m a b) = true
  | [], _ => by
    unfold Memory.write
    split
    · rfl
    · simp_all [Memory.wf]
  | (k, c) :: m, h => by
    obtain ⟨hc, hk, hm⟩ := wf_cons.mp h
    unfold Memory.write
    split
    · rename_i hak
      split
      · exact h
      · rename_i hb
        refine wf_cons.mpr ⟨hb, fun e he => ?_, h⟩
        rcases List.mem_cons.mp he with rfl | he
        · exact hak
        · exact Nat.lt_trans hak (hk e he)
    · rename_i hak
      split
      · rename_i heq
        split
        · exact hm
        · rename_i hb
          exact wf_cons.mpr ⟨hb, fun e he => heq ▸ hk e he, hm⟩
      · rename_i hne
        refine wf_cons.mpr ⟨hc, fun e he => ?_, wf_write hm⟩
        rcases write_addr_mem he with he | he
        · omega
        · exact hk e he

/-- A write adds no address but its own. -/
theorem below_write {a n : Nat} {b : Byte} {m : Memory} (h : Memory.below n m = true) (ha : a < n) :
    Memory.below n (Memory.write u m a b) = true := by
  simp only [Memory.below, List.all_eq_true, decide_eq_true_eq] at h ⊢
  intro e he
  rcases write_addr_mem he with he | he
  · omega
  · exact h e he

/-! ### Reading after writing -/

/-- A cell just written reads as the byte written. -/
theorem read_write_same {a : Nat} {b : Byte} :
    ∀ {m : Memory}, Memory.wf u m = true → Memory.read u (Memory.write u m a b) a = some b
  | [], _ => by
    unfold Memory.write
    split <;> simp_all [Memory.read]
  | (k, c) :: m, h => by
    obtain ⟨_, hk, hm⟩ := wf_cons.mp h
    unfold Memory.write
    split
    · rename_i hak
      split
      · rename_i hb
        rw [hb]
        refine read_of_above fun e he => ?_
        rcases List.mem_cons.mp he with rfl | he
        · exact hak
        · exact Nat.lt_trans hak (hk e he)
      · simp [Memory.read]
    · split
      · rename_i heq
        split
        · rename_i hb
          rw [hb]
          exact read_of_above fun e he => heq ▸ hk e he
        · simp [Memory.read]
      · rename_i hne
        simp only [Memory.read, if_neg hne]
        exact read_write_same hm

/-- Every other cell reads as before. -/
theorem read_write_other {a a' : Nat} {b : Byte} (hne : a' ≠ a) :
    ∀ {m : Memory}, Memory.read u (Memory.write u m a b) a' = Memory.read u m a'
  | [] => by
    unfold Memory.write
    split <;> simp [Memory.read, hne]
  | (k, c) :: m => by
    unfold Memory.write
    split
    · split <;> simp [Memory.read, hne]
    · split
      · rename_i heq
        subst heq
        split <;> simp [Memory.read, hne]
      · simp only [Memory.read]
        rw [read_write_other hne]

/-! ### Sequences of writes -/

theorem wf_writeRing {n : Nat} : ∀ {d : List Byte} {m : Memory} {p : Nat},
    Memory.wf ringUnlisted m = true → Memory.wf ringUnlisted (Memory.writeRing n m p d) = true
  | [], _, _, h => h
  | b :: d, m, p, h => wf_writeRing (d := d) (m := Memory.write ringUnlisted m (p % n) b) (p := p + 1) (wf_write h)

theorem wf_writeArena : ∀ {d : List Byte} {m : Memory} {a : Nat},
    Memory.wf arenaUnlisted m = true → Memory.wf arenaUnlisted (Memory.writeArena m a d) = true
  | [], _, _, h => h
  | b :: d, m, a, h => wf_writeArena (d := d) (m := Memory.write arenaUnlisted m a b) (a := a + 1) (wf_write h)

theorem below_writeRing {n : Nat} (hn : 0 < n) : ∀ {d : List Byte} {m : Memory} {p : Nat},
    Memory.below n m = true → Memory.below n (Memory.writeRing n m p d) = true
  | [], _, _, h => h
  | b :: d, m, p, h =>
    below_writeRing (d := d) (m := Memory.write ringUnlisted m (p % n) b) (p := p + 1) hn
      (below_write h (Nat.mod_lt _ hn))

theorem below_writeArena {n : Nat} : ∀ {d : List Byte} {m : Memory} {a : Nat},
    a + d.length ≤ n → Memory.below n m = true → Memory.below n (Memory.writeArena m a d) = true
  | [], _, _, _, h => h
  | b :: d, m, a, ha, h => by
    simp only [List.length_cons] at ha
    exact below_writeArena (d := d) (m := Memory.write arenaUnlisted m a b) (a := a + 1) (by omega)
      (below_write h (by omega))

/-- An arena byte outside the stored range reads as before. -/
theorem read_writeArena_outside {x : Nat} : ∀ {d : List Byte} {m : Memory} {a : Nat},
    x < a ∨ a + d.length ≤ x → Memory.read arenaUnlisted (Memory.writeArena m a d) x = Memory.read arenaUnlisted m x
  | [], _, _, _ => rfl
  | b :: d, m, a, h => by
    simp only [List.length_cons] at h
    simp only [Memory.writeArena]
    rw [read_writeArena_outside (by omega), read_write_other (by omega)]

/-- An arena byte inside the stored range reads as the byte stored there. -/
theorem read_writeArena_inside {k : Nat} : ∀ {d : List Byte} {m : Memory} {a : Nat} (hk : k < d.length),
    Memory.wf arenaUnlisted m = true →
      Memory.read arenaUnlisted (Memory.writeArena m a d) (a + k) = some d[k]
  | [], _, _, hk, _ => by simp at hk
  | b :: d, m, a, hk, h => by
    simp only [Memory.writeArena]
    cases k with
    | zero =>
      rw [read_writeArena_outside (by omega), Nat.add_zero, read_write_same h]
      rfl
    | succ k =>
      have := read_writeArena_inside (k := k) (a := a + 1) (d := d)
        (m := Memory.write arenaUnlisted m a b) (by simpa using hk) (wf_write h)
      rw [show a + (k + 1) = a + 1 + k by omega, this]
      rfl

/-! ### Equal reads, equal memories -/

theorem read_head {k : Nat} {c : Byte} {m : Memory} : Memory.read u ((k, c) :: m) k = some c := by simp [Memory.read]

/-- Two canonical memories that read alike everywhere are the same list. -/
theorem memory_ext : ∀ {m m' : Memory}, Memory.wf u m = true → Memory.wf u m' = true →
    (∀ a, Memory.read u m a = Memory.read u m' a) → m = m'
  | [], [], _, _, _ => rfl
  | [], (k, c) :: m', _, h', hr => by
    have := (hr k).trans read_head
    exact absurd this.symm (wf_cons.mp h').1
  | (k, c) :: m, [], h, _, hr => by
    have := (hr k).symm.trans read_head
    exact absurd this.symm (wf_cons.mp h).1
  | (k, c) :: m, (k', c') :: m', h, h', hr => by
    obtain ⟨hc, hk, hm⟩ := wf_cons.mp h
    obtain ⟨hc', hk', hm'⟩ := wf_cons.mp h'
    have hkk : k = k' := by
      rcases Nat.lt_trichotomy k k' with hlt | heq | hlt
      · have h1 : Memory.read u ((k', c') :: m') k = u := by
          refine read_of_above fun e he => ?_
          rcases List.mem_cons.mp he with rfl | he
          · exact hlt
          · exact Nat.lt_trans hlt (hk' e he)
        exact absurd (read_head.symm.trans ((hr k).trans h1)) hc
      · exact heq
      · have h1 : Memory.read u ((k, c) :: m) k' = u := by
          refine read_of_above fun e he => ?_
          rcases List.mem_cons.mp he with rfl | he
          · exact hlt
          · exact Nat.lt_trans hlt (hk e he)
        exact absurd (read_head.symm.trans ((hr k').symm.trans h1)) hc'
    subst hkk
    have hcc : c = c' := by
      have := read_head.symm.trans ((hr k).trans read_head)
      exact Option.some.inj this
    subst hcc
    have hmm : m = m' := memory_ext hm hm' fun a => by
      by_cases ha : a = k
      · subst ha
        rw [read_of_above hk, read_of_above hk']
      · have := hr a
        simpa only [Memory.read, if_neg ha] using this
    rw [hmm]

end Sys2Proof.Machine
end

