-- ==== Sys2Proof/Laws/Ring.lean ====
section
/-! SUPPORT. The arithmetic of ring indices, and what peeking, scanning and ring writes do, each said once. -/

namespace Sys2Proof.Machine

/-! ### The bounds of an admitted configuration -/

/-- Every named check of R905 passes. -/
theorem valid_checks {c : Config} (h : c.valid = true) :
    c.ringPow2 = true ∧ c.livenessFit = true ∧ c.regNonempty = true ∧ c.cmdUnique = true ∧ c.sizePos = true
      ∧ c.alignPow2 = true ∧ c.arenaFit = true := by
  simpa only [Config.valid, Bool.and_eq_true, and_assoc] using h

theorem ringSize_bounds {c : Config} (h : c.valid = true) : 2 ≤ c.ringSize ∧ c.ringSize ≤ 32768 := by
  have hp := (valid_checks h).1
  simp only [Config.ringPow2, List.any_eq_true, List.mem_range, beq_iff_eq] at hp
  obtain ⟨k, hk, hN⟩ := hp
  have h1 : 2 ^ 1 ≤ 2 ^ (k + 1) := Nat.pow_le_pow_right (by omega) (by omega)
  have h2 : 2 ^ (k + 1) ≤ 2 ^ 15 := Nat.pow_le_pow_right (by omega) (by omega)
  omega

theorem maxFrame_le {c : Config} (h : c.valid = true) : c.maxPayload + 9 ≤ c.ringSize - 1 := by
  have hl := of_decide_eq_true (valid_checks h).2.1
  simp only [Config.maxFrame, headerSize, tailSize] at hl
  omega

theorem total_le {c : Config} (h : c.valid = true) : c.total ≤ 65536 :=
  of_decide_eq_true (valid_checks h).2.2.2.2.2.2

theorem State.Inv.size_pos {s : State} (h : s.Inv) : 0 < s.ringSize := by
  have := ringSize_bounds h.cfg_valid
  unfold State.ringSize; omega

theorem State.Inv.size_le {s : State} (h : s.Inv) : s.ringSize ≤ 32768 := (ringSize_bounds h.cfg_valid).2

/-! ### Index arithmetic -/

theorem ringIndex_toNat {s : State} (h : s.ringSize ≤ 32768) (h0 : 0 < s.ringSize) (p : Nat) :
    (s.ringIndex p).toNat = p % s.ringSize := by
  have := Nat.mod_lt p h0
  simp only [State.ringIndex, BitVec.toNat_ofNat]
  omega

/-- `a + k` modulo `n` for `a` in range and `k` at most `n`, without a remainder. -/
theorem add_mod_cases {a k n : Nat} (ha : a < n) (hk : k ≤ n) :
    (a + k) % n = if a + k < n then a + k else a + k - n := by
  split
  · exact Nat.mod_eq_of_lt (by omega)
  · rw [Nat.mod_eq_sub_mod (by omega), Nat.mod_eq_of_lt (by omega)]

theorem avail_eq {s : State} (_hr : s.rd.toNat < s.ringSize) (hw : s.wr.toNat < s.ringSize) :
    s.avail = if s.rd.toNat ≤ s.wr.toNat then s.wr.toNat - s.rd.toNat else s.wr.toNat + s.ringSize - s.rd.toNat := by
  unfold State.avail
  split
  · rw [show s.wr.toNat + s.ringSize - s.rd.toNat = (s.wr.toNat - s.rd.toNat) + s.ringSize by omega,
      Nat.add_mod_right, Nat.mod_eq_of_lt (by omega)]
  · exact Nat.mod_eq_of_lt (by omega)

theorem avail_lt {s : State} (h : 0 < s.ringSize) : s.avail < s.ringSize := Nat.mod_lt _ h

/-- `WR` is `AVAIL` cells after `RD`. -/
theorem wr_eq {s : State} (hr : s.rd.toNat < s.ringSize) (hw : s.wr.toNat < s.ringSize) :
    s.wr.toNat = (s.rd.toNat + s.avail) % s.ringSize := by
  have ha := avail_eq hr hw
  have hl := avail_lt (s := s) (by omega)
  rw [add_mod_cases hr (by omega)]
  split at ha <;> split <;> omega

/-- Two offsets below `n` from one start name two cells. -/
theorem cell_inj {a j k n : Nat} (ha : a < n) (hj : j < n) (hk : k < n) (h : (a + j) % n = (a + k) % n) : j = k := by
  rw [add_mod_cases ha (by omega), add_mod_cases ha (by omega)] at h
  split at h <;> split at h <;> omega

theorem mod_add_mod {a b n : Nat} : (a % n + b) % n = (a + b) % n := by rw [Nat.mod_add_mod]

/-- Committing `n <= SPACE` cells raises `AVAIL` by `n` (R409 (5)). -/
theorem avail_of_wr {s : State} {w : Half} {n : Nat} (hr : s.rd.toNat < s.ringSize) (hw : s.wr.toNat < s.ringSize)
    (hn : n ≤ s.space) (h : w.toNat = (s.wr.toNat + n) % s.ringSize) :
    (w.toNat + s.ringSize - s.rd.toNat) % s.ringSize = s.avail + n := by
  have hl := avail_lt (s := s) (by omega)
  have hwr := wr_eq hr hw
  unfold State.space at hn
  have hw' : w.toNat = (s.rd.toNat + (s.avail + n)) % s.ringSize := by
    rw [h, hwr, mod_add_mod, Nat.add_assoc]
  rw [add_mod_cases hr (by omega)] at hw'
  split at hw'
  · rw [hw', show s.rd.toNat + (s.avail + n) + s.ringSize - s.rd.toNat = (s.avail + n) + s.ringSize by omega,
      Nat.add_mod_right, Nat.mod_eq_of_lt (by omega)]
  · rw [hw', Nat.mod_eq_of_lt (by omega)]
    omega

/-- Discarding `n <= AVAIL` bytes lowers `AVAIL` by `n`. -/
theorem avail_discard {s : State} {n : Nat} (hN : s.ringSize ≤ 32768) (hr : s.rd.toNat < s.ringSize)
    (hw : s.wr.toNat < s.ringSize) (hn : n ≤ s.avail) : (s.discard n).avail = s.avail - n := by
  have hl := avail_lt (s := s) (by omega)
  have hrd : (s.discard n).rd.toNat = (s.rd.toNat + n) % s.ringSize := ringIndex_toNat hN (by omega) _
  have hlt : (s.discard n).rd.toNat < (s.discard n).ringSize := by
    rw [hrd]; exact Nat.mod_lt _ (by omega)
  have h1 := avail_eq (s := s.discard n) hlt hw
  have h2 := avail_eq hr hw
  rw [hrd] at h1
  simp only [discard_wr, discard_ringSize] at h1
  rw [add_mod_cases hr (by omega)] at h1
  rw [h1]
  split at h2 <;> split <;> split <;> omega

/-! ### Examined bytes after a discard -/

theorem cellAt_discard {s : State} {n : Nat} (hN : s.ringSize ≤ 32768) (h0 : 0 < s.ringSize) (j : Nat) :
    (s.discard n).cellAt j = s.cellAt (n + j) := by
  simp only [State.cellAt, discard_rd, discard_ringSize, ringIndex_toNat hN h0]
  rw [mod_add_mod, Nat.add_assoc]

theorem byteAt_discard {s : State} {n : Nat} (hN : s.ringSize ≤ 32768) (h0 : 0 < s.ringSize) (j : Nat) :
    (s.discard n).byteAt j = s.byteAt (n + j) := by
  simp only [State.byteAt, cellAt_discard hN h0, discard_ringCell]

/-! ### Peeking -/

/-- A peek succeeds exactly with the examined bytes, all of them written. -/
theorem peek_ok {s : State} {n : Nat} : ∀ {j : Nat} {bs : List Byte},
    s.peek j n = .ok bs ↔ bs.length = n ∧ ∀ (k : Nat) (h : k < bs.length), s.byteAt (j + k) = some bs[k] := by
  induction n with
  | zero =>
    intro j bs
    constructor
    · intro h
      cases h
      exact ⟨rfl, fun k h => absurd h (Nat.not_lt_zero _)⟩
    · rintro ⟨h, -⟩
      rw [List.eq_nil_of_length_eq_zero h]
      rfl
  | succ n ih =>
    intro j bs
    unfold State.peek
    cases hb : s.byteAt j with
    | none =>
      refine ⟨by simp, fun ⟨hl, hk⟩ => ?_⟩
      have := hk 0 (by omega)
      rw [Nat.add_zero, hb] at this
      cases this
    | some b =>
      cases hp : s.peek (j + 1) n with
      | error p =>
        refine ⟨by simp, fun ⟨hl, hk⟩ => ?_⟩
        obtain ⟨c, cs, rfl⟩ : ∃ c cs, bs = c :: cs := by
          cases bs with
          | nil => simp at hl
          | cons c cs => exact ⟨c, cs, rfl⟩
        have : s.peek (j + 1) n = .ok cs := ih.mpr ⟨by simpa using hl, fun k h => by
          have := hk (k + 1) (by simpa using h)
          rw [show j + 1 + k = j + (k + 1) by omega, this]
          rfl⟩
        rw [hp] at this
        cases this
      | ok cs =>
        obtain ⟨hl, hk⟩ := ih.mp hp
        constructor
        · intro h
          cases h
          refine ⟨by simp [hl], fun k h => ?_⟩
          cases k with
          | zero => simpa using hb
          | succ k =>
            have := hk k (by simpa using h)
            rw [show j + (k + 1) = j + 1 + k by omega, this]
            rfl
        · rintro ⟨hl', hk'⟩
          obtain ⟨c, ds, rfl⟩ : ∃ c ds, bs = c :: ds := by
            cases bs with
            | nil => simp at hl'
            | cons c ds => exact ⟨c, ds, rfl⟩
          have hc := hk' 0 (by simp)
          rw [Nat.add_zero, hb] at hc
          have hds : s.peek (j + 1) n = .ok ds := ih.mpr ⟨by simpa using hl', fun k h => by
            have := hk' (k + 1) (by simpa using h)
            rw [show j + 1 + k = j + (k + 1) by omega, this]
            rfl⟩
          rw [hp] at hds
          cases hds
          simp at hc
          rw [hc]

/-- A peek fails at the first `UNDEF` cell of its range. -/
theorem peek_error {s : State} {n p : Nat} : ∀ {j : Nat}, s.peek j n = .error p →
    ∃ k < n, s.byteAt (j + k) = none ∧ p = s.cellAt (j + k) ∧ ∀ i < k, (s.byteAt (j + i)).isSome = true := by
  induction n with
  | zero => intro j h; cases h
  | succ n ih =>
    intro j h
    unfold State.peek at h
    cases hb : s.byteAt j with
    | none =>
      rw [hb] at h
      cases h
      exact ⟨0, by omega, hb, rfl, fun i hi => absurd hi (Nat.not_lt_zero _)⟩
    | some b =>
      rw [hb] at h
      cases hp : s.peek (j + 1) n with
      | ok cs => rw [hp] at h; cases h
      | error q =>
        rw [hp] at h
        cases h
        obtain ⟨k, hk, h1, h2, h3⟩ := ih hp
        refine ⟨k + 1, by omega, ?_, ?_, fun i hi => ?_⟩
        · rw [show j + (k + 1) = j + 1 + k by omega]; exact h1
        · rw [show j + (k + 1) = j + 1 + k by omega]; exact h2
        · cases i with
          | zero => simp [hb]
          | succ i =>
            rw [show j + (i + 1) = j + 1 + i by omega]
            exact h3 i (by omega)

theorem peek_of_defined {s : State} {n j : Nat} (h : ∀ k < n, (s.byteAt (j + k)).isSome = true) :
    ∃ bs, s.peek j n = .ok bs := by
  cases hp : s.peek j n with
  | ok bs => exact ⟨bs, rfl⟩
  | error p =>
    obtain ⟨k, hk, h1, -⟩ := peek_error hp
    have := h k hk
    rw [h1] at this
    cases this

theorem peek_discard {s : State} {m : Nat} (hN : s.ringSize ≤ 32768) (h0 : 0 < s.ringSize) (n : Nat) :
    ∀ j, (s.discard m).peek j n = s.peek (m + j) n := by
  induction n with
  | zero => intro j; rfl
  | succ n ih =>
    intro j
    simp only [State.peek, byteAt_discard hN h0, cellAt_discard hN h0, ih, Nat.add_assoc]

/-! ### Scanning -/

/-- What each result of a scan says (R602, R620). -/
theorem scanFor_spec {s : State} {b : Byte} {n : Nat} : ∀ {j : Nat},
    match s.scanFor b j n with
    | .undef p => ∃ k < n, s.byteAt (j + k) = none ∧ p = s.cellAt (j + k)
        ∧ ∀ i < k, ∃ c, s.byteAt (j + i) = some c ∧ c ≠ b
    | .notFound => ∀ i < n, ∃ c, s.byteAt (j + i) = some c ∧ c ≠ b
    | .found m => ∃ k < n, m = j + k ∧ s.byteAt (j + k) = some b
        ∧ ∀ i < k, ∃ c, s.byteAt (j + i) = some c ∧ c ≠ b := by
  induction n with
  | zero => intro j; simp [State.scanFor]
  | succ n ih =>
    intro j
    unfold State.scanFor
    cases hb : s.byteAt j with
    | none =>
      exact ⟨0, by omega, by simpa using hb, by simp, fun i hi => absurd hi (Nat.not_lt_zero _)⟩
    | some c =>
      dsimp only
      by_cases hc : c = b
      · rw [if_pos hc]
        exact ⟨0, by omega, by simp, by simp [hb, hc], fun i hi => absurd hi (Nat.not_lt_zero _)⟩
      · rw [if_neg hc]
        have hx := ih (j := j + 1)
        have hstep : ∀ k, (∀ i < k, ∃ c, s.byteAt (j + 1 + i) = some c ∧ c ≠ b) →
            ∀ i < k + 1, ∃ c, s.byteAt (j + i) = some c ∧ c ≠ b := by
          intro k hk i hi
          cases i with
          | zero => exact ⟨c, by simpa using hb, hc⟩
          | succ i =>
            obtain ⟨d, h1, h2⟩ := hk i (by omega)
            exact ⟨d, by rw [show j + (i + 1) = j + 1 + i by omega]; exact h1, h2⟩
        cases hs : s.scanFor b (j + 1) n with
        | undef p =>
          rw [hs] at hx
          obtain ⟨k, hk, h1, h2, h3⟩ := hx
          exact ⟨k + 1, by omega, by rw [show j + (k + 1) = j + 1 + k by omega]; exact h1,
            by rw [show j + (k + 1) = j + 1 + k by omega]; exact h2, hstep k h3⟩
        | notFound =>
          rw [hs] at hx
          exact hstep n hx
        | found m =>
          rw [hs] at hx
          obtain ⟨k, hk, h1, h2, h3⟩ := hx
          exact ⟨k + 1, by omega, by omega, by rw [show j + (k + 1) = j + 1 + k by omega]; exact h2, hstep k h3⟩

/-! ### Ring writes -/

/-- A cell no byte of a ring write falls on reads as before. -/
theorem read_writeRing_outside {n x : Nat} : ∀ {d : List Byte} {m : Memory} {p : Nat},
    (∀ k < d.length, x ≠ (p + k) % n) →
      Memory.read ringUnlisted (Memory.writeRing n m p d) x = Memory.read ringUnlisted m x
  | [], _, _, _ => rfl
  | b :: d, m, p, h => by
    simp only [Memory.writeRing]
    rw [read_writeRing_outside, read_write_other]
    · simpa using h 0 (by simp)
    · intro k hk
      have := h (k + 1) (by simpa using hk)
      rwa [show p + 1 + k = p + (k + 1) by omega]

/-- The cell the `k`-th byte of a ring write falls on reads as that byte, for a write that does not lap itself. -/
theorem read_writeRing_inside {n k : Nat} : ∀ {d : List Byte} {m : Memory} {p : Nat} (hk : k < d.length),
    d.length ≤ n → Memory.wf ringUnlisted m = true →
      Memory.read ringUnlisted (Memory.writeRing n m p d) ((p + k) % n) = some d[k]
  | [], _, _, hk, _, _ => by simp at hk
  | b :: d, m, p, hk, hn, h => by
    simp only [Memory.writeRing]
    simp only [List.length_cons] at hn hk
    cases k with
    | zero =>
      rw [read_writeRing_outside, Nat.add_zero, read_write_same h]
      · rfl
      · intro k hk' heq
        rw [Nat.add_zero, Nat.add_assoc] at heq
        have h1 : (p % n + 0) % n = (p % n + (1 + k)) % n := by
          rw [mod_add_mod, mod_add_mod, Nat.add_zero]; exact heq
        have := cell_inj (Nat.mod_lt _ (by omega)) (by omega) (by omega) h1
        omega
    | succ k =>
      have := read_writeRing_inside (k := k) (n := n) (p := p + 1) (d := d)
        (m := Memory.write ringUnlisted m (p % n) b) (by omega) (by omega) (wf_write h)
      rw [show p + (k + 1) = p + 1 + k by omega, this]
      rfl

end Sys2Proof.Machine
end

