-- ==== Sys2Proof/Laws/Ops.lean ====
section
/-! SUPPORT. For each shared operation, one lemma that says everything it can do. -/

namespace Sys2Proof.Machine

/-! ### The order of checks -/

theorem onBlock_valid {s : State} (h : s.cfg.valid = true) (f : State → Result) : onBlock s f = f s := by
  simp [onBlock, h]

theorem onBlock_next {s t : State} {f : State → Result} (h : onBlock s f = .next t) :
    s.cfg.valid = true ∧ f s = .next t := by
  unfold onBlock at h
  split at h
  · exact ⟨‹_›, h⟩
  · cases h

theorem isFaulted_eq (s : State) : s.isFaulted = true ↔ s.fault ≠ 0 := by simp [State.isFaulted]

theorem command_ready {s : State} (h : s.Ready) (f : State → Result) : command s f = f s := by
  simp [command, onBlock_valid h.cfg_valid, State.isFaulted, h.unfaulted]

theorem command_faulted {s : State} (hc : s.cfg.valid = true) (h : s.fault ≠ 0) (f : State → Result) :
    command s f = .next (s.respond .faulted 0) := by
  rw [command, onBlock_valid hc, if_pos ((isFaulted_eq s).mpr h)]

/-- A command that answers a next state: the faulted block's answer, or its own body's. -/
theorem command_next {s t : State} {f : State → Result} (h : command s f = .next t) :
    s.cfg.valid = true ∧ ((s.fault ≠ 0 ∧ t = s.respond .faulted 0) ∨ (s.fault = 0 ∧ f s = .next t)) := by
  obtain ⟨hc, h⟩ := onBlock_next h
  refine ⟨hc, ?_⟩
  split at h
  · rename_i hf
    cases h
    exact .inl ⟨(isFaulted_eq s).mp hf, rfl⟩
  · rename_i hf
    exact .inr ⟨by simpa [State.isFaulted] using hf, h⟩

theorem query_ready {s : State} (h : s.Ready) (v : State → Word) : query s v = .next (s.respond .ok (v s)) :=
  command_ready h _

/-- A query that answers a next state has given one response and changed nothing else. -/
theorem query_next {s t : State} {v : State → Word} (h : query s v = .next t) :
    s.cfg.valid = true ∧ ∃ st w, t = s.respond st w := by
  obtain ⟨hc, ⟨-, rfl⟩ | ⟨-, h⟩⟩ := command_next h
  · exact ⟨hc, _, _, rfl⟩
  · cases h
    exact ⟨hc, _, _, rfl⟩

theorem rejectWord_ready {s : State} (h : s.Ready) (w : Word) : rejectWord w s = .next (s.raise .illegalCommand w) :=
  command_ready h _

theorem rejectWord_next {s t : State} {w : Word} (h : rejectWord w s = .next t) :
    (s.fault ≠ 0 ∧ t = s.respond .faulted 0) ∨ (s.fault = 0 ∧ t = s.raise .illegalCommand w) := by
  obtain ⟨-, h | ⟨hf, h⟩⟩ := command_next h
  · exact .inl h
  · cases h
    exact .inr ⟨hf, rfl⟩

/-- What the engine's act on a wire unit leaves. -/
theorem engine_next {s t : State} {pass : State → Pass} (h : engine s pass = .next t) :
    (s.fault ≠ 0 ∧ t = s) ∨ (s.fault = 0 ∧ s.avail < headerSize ∧ t = s)
      ∨ (s.fault = 0 ∧ headerSize ≤ s.avail ∧ (pass s).result = .next t) := by
  obtain ⟨-, h⟩ := onBlock_next h
  split at h
  · rename_i hf
    cases h
    exact .inl ⟨(isFaulted_eq s).mp hf, rfl⟩
  · rename_i hf
    have hf : s.fault = 0 := by simpa [State.isFaulted] using hf
    split at h
    · cases h
      exact .inr (.inl ⟨hf, ‹_›, rfl⟩)
    · exact .inr (.inr ⟨hf, by omega, h⟩)

theorem engine_ready {s : State} (h : s.Ready) (ha : headerSize ≤ s.avail) (pass : State → Pass) :
    engine s pass = (pass s).result := by
  simp [engine, onBlock_valid h.cfg_valid, State.isFaulted, h.unfaulted, Nat.not_lt.mpr ha]

/-! ### parse_frame -/

/-- What a dispatch does (R510). -/
theorem dispatch_cases (cmd len : Half) (p : List Byte) (s : State) :
    (∃ slot, s.cfg.slotOf cmd = some slot ∧ s.cfg.total < slot.offset + len.toNat
        ∧ dispatch cmd len p s = .raised (s.raise .arenaOverrun (cmd ++ len)))
    ∨ (∃ slot, s.cfg.slotOf cmd = some slot ∧ slot.offset + len.toNat ≤ s.cfg.total
        ∧ dispatch cmd len p s
          = .success ((((s.discard headerSize).storeArena slot.offset p).discard len.toNat).discard tailSize))
    ∨ (s.cfg.slotOf cmd = none
        ∧ dispatch cmd len p s = .success (((s.discard headerSize).discard len.toNat).discard tailSize)) := by
  unfold dispatch
  cases h : s.cfg.slotOf cmd with
  | none => exact .inr (.inr ⟨rfl, rfl⟩)
  | some slot =>
    dsimp only
    split
    · exact .inl ⟨slot, rfl, ‹_›, rfl⟩
    · exact .inr (.inl ⟨slot, rfl, by omega, rfl⟩)

/-- What the CRC16 check does (R610, R620). -/
theorem checkTail_cases (cmd len : Half) (s : State) :
    (∃ k < headerSize + len.toNat + tailSize, s.byteAt k = none
        ∧ checkTail cmd len s = .raised (s.raiseUndef (s.cellAt k)))
    ∨ ∃ covered tail, s.peek 0 (headerSize + len.toNat) = .ok covered
        ∧ s.peek (headerSize + len.toNat) tailSize = .ok tail
        ∧ ((crc16 covered ≠ fieldAt tail 0 ∧ checkTail cmd len s = .failure)
          ∨ (crc16 covered = fieldAt tail 0
            ∧ checkTail cmd len s = dispatch cmd len (covered.drop headerSize) s)) := by
  unfold checkTail
  cases h : s.peek 0 (headerSize + len.toNat) with
  | error p =>
    obtain ⟨k, hk, h1, h2, -⟩ := peek_error h
    rw [Nat.zero_add] at h1 h2
    exact .inl ⟨k, by omega, h1, by rw [← h2]⟩
  | ok covered =>
    cases h' : s.peek (headerSize + len.toNat) tailSize with
    | error p =>
      obtain ⟨k, hk, h1, h2, -⟩ := peek_error h'
      exact .inl ⟨_, by omega, h1, by dsimp only; rw [← h2]⟩
    | ok tail =>
      refine .inr ⟨covered, tail, rfl, rfl, ?_⟩
      dsimp only
      split
      · exact .inl ⟨‹_›, rfl⟩
      · exact .inr ⟨by simp_all, rfl⟩

/-- What the header's checks do (R606, R608, R609). -/
theorem checkFrame_cases (cmd len : Half) (seq crc : Byte) (s : State) :
    ((crc8 (headerBody cmd len seq) ≠ crc ∨ s.cfg.maxPayload < len.toNat) ∧ checkFrame cmd len seq crc s = .failure)
    ∨ (crc8 (headerBody cmd len seq) = crc ∧ len.toNat ≤ s.cfg.maxPayload
        ∧ s.avail < headerSize + len.toNat + tailSize ∧ checkFrame cmd len seq crc s = .incomplete)
    ∨ (crc8 (headerBody cmd len seq) = crc ∧ len.toNat ≤ s.cfg.maxPayload
        ∧ headerSize + len.toNat + tailSize ≤ s.avail ∧ checkFrame cmd len seq crc s = checkTail cmd len s) := by
  unfold checkFrame
  split
  · exact .inl ⟨.inl ‹_›, rfl⟩
  · rename_i hc
    have hc : crc8 (headerBody cmd len seq) = crc := by simpa using hc
    split
    · exact .inl ⟨.inr ‹_›, rfl⟩
    · split
      · exact .inr (.inl ⟨hc, by omega, ‹_›, rfl⟩)
      · exact .inr (.inr ⟨hc, by omega, by omega, rfl⟩)

/-- Seven bytes that start with SOF decode to a header (R302). -/
theorem decodeWire_header {h : List Byte} (hl : h.length = headerSize) (h0 : h[0]? = some sof) :
    ∃ c0 c1 l0 l1 seq crc, h = [sof, c0, c1, l0, l1, seq, crc]
      ∧ decodeWire h = .ok (.frame (le16 c0 c1) (le16 l0 l1) seq crc) := by
  match h, hl with
  | [b, c0, c1, l0, l1, seq, crc], _ =>
    have hb : b = sof := by simpa using h0
    subst hb
    exact ⟨c0, c1, l0, l1, seq, crc, rfl, by simp [decodeWire]⟩

/-- What parse_frame does with a SOF at the head (R604, R605). -/
theorem parseFrame_cases {s : State} (h0 : s.byteAt 0 = some sof) :
    (∃ k < headerSize, s.byteAt k = none ∧ parseFrame s = .raised (s.raiseUndef (s.cellAt k)))
    ∨ ∃ c0 c1 l0 l1 seq crc, s.peek 0 headerSize = .ok [sof, c0, c1, l0, l1, seq, crc]
        ∧ parseFrame s = checkFrame (le16 c0 c1) (le16 l0 l1) seq crc s := by
  unfold parseFrame
  cases h : s.peek 0 headerSize with
  | error p =>
    obtain ⟨k, hk, h1, h2, -⟩ := peek_error h
    rw [Nat.zero_add] at h1 h2
    exact .inl ⟨k, hk, h1, by rw [← h2]⟩
  | ok bs =>
    obtain ⟨hl, hb⟩ := peek_ok.mp h
    have h0' : bs[0]? = some sof := by
      have := hb 0 (by simp [hl, headerSize])
      rw [Nat.zero_add, h0] at this
      rw [List.getElem?_eq_getElem (by simp [hl, headerSize]), ← this]
    obtain ⟨c0, c1, l0, l1, seq, crc, rfl, hd⟩ := decodeWire_header hl h0'
    exact .inr ⟨c0, c1, l0, l1, seq, crc, rfl, by dsimp only; rw [hd]⟩

/-! ### The drain -/

/-- What one pass of the parse loop does (R601). -/
theorem drainPass_cases (s : State) :
    (s.avail < headerSize ∧ drainPass s = .leave s)
    ∨ (headerSize ≤ s.avail ∧ s.scan s.rview = .found 0 ∧ drainPass s = afterParse s (parseFrame s))
    ∨ (headerSize ≤ s.avail ∧ s.scan s.rview ≠ .found 0 ∧ drainPass s = afterScan s (s.scan s.rview)) := by
  unfold drainPass
  split
  · exact .inl ⟨‹_›, rfl⟩
  · split
    · exact .inr (.inl ⟨by omega, ‹_›, rfl⟩)
    · exact .inr (.inr ⟨by omega, ‹_›, rfl⟩)

/-- The head byte behind a scan that stops at once. -/
theorem scan_found_zero {s : State} {v : Nat} (h : s.scan v = .found 0) : 0 < v ∧ s.byteAt 0 = some sof := by
  have := scanFor_spec (s := s) (b := sof) (n := v) (j := 0)
  rw [show s.scanFor sof 0 v = .found 0 from h] at this
  obtain ⟨k, hk, h0, h1, -⟩ := this
  obtain rfl : k = 0 := by omega
  exact ⟨hk, by simpa using h1⟩

/-- One unfolding of a drain. -/
theorem drain_succ (n : Nat) (s : State) :
    drain (n + 1) s = match drainPass s with
      | .again t => drain n t
      | .leave t => .done t
      | .raised t => .raised t := rfl

/-- A property every pass keeps holds where a drain ends without a fault. -/
theorem drain_done_of {P Q : State → Prop} (hagain : ∀ s t, P s → drainPass s = .again t → P t)
    (hleave : ∀ s t, P s → drainPass s = .leave t → Q t) :
    ∀ {n : Nat} {s t : State}, P s → drain n s = .done t → Q t
  | 0, _, _, _, h => by cases h
  | n + 1, s, t, hs, h => by
    rw [drain_succ] at h
    cases hp : drainPass s with
    | again u => rw [hp] at h; exact drain_done_of hagain hleave (hagain s u hs hp) h
    | leave u => rw [hp] at h; cases h; exact hleave s _ hs hp
    | raised u => rw [hp] at h; cases h

/-- A property every pass keeps holds at the pass whose fault ended a drain. -/
theorem drain_raised_of {P Q : State → Prop} (hagain : ∀ s t, P s → drainPass s = .again t → P t)
    (hraised : ∀ s t, P s → drainPass s = .raised t → Q t) :
    ∀ {n : Nat} {s t : State}, P s → drain n s = .raised t → Q t
  | 0, _, _, _, h => by cases h
  | n + 1, s, t, hs, h => by
    rw [drain_succ] at h
    cases hp : drainPass s with
    | again u => rw [hp] at h; exact drain_raised_of hagain hraised (hagain s u hs hp) h
    | leave u => rw [hp] at h; cases h
    | raised u => rw [hp] at h; cases h; exact hraised s _ hs hp

/-- What the end of a delivery command does. -/
theorem afterDrain_next {d : Drained} {t : State} (h : afterDrain d = .next t) :
    (∃ u, d = .done u ∧ t = u.respond .ok 0) ∨ d = .raised t := by
  cases d with
  | done u => cases h; exact .inl ⟨u, rfl, rfl⟩
  | raised u => cases h; exact .inr rfl
  | stuck => cases h

/-! ### The port -/

/-- What a step that answers a next state has done. -/
theorem step_next {s t : State} (h : step s = .next t) :
    s.cfg.valid = true
    ∧ ((s.port = [] ∧ t = s)
      ∨ (∃ rest, s.port = .reset :: rest ∧ t = State.resetBlock { s with port := rest })
      ∨ (∃ w data rest i, s.port = .command w data :: rest ∧ decode (.host w data) = .ok i
          ∧ exec i { s with port := rest } = .next t)
      ∨ (∃ w data rest e, s.port = .command w data :: rest ∧ decode (.host w data) = .error e
          ∧ rejectWord w { s with port := rest } = .next t)) := by
  obtain ⟨hc, h⟩ := onBlock_next h
  refine ⟨hc, ?_⟩
  unfold takeEvent at h
  cases hp : s.port with
  | nil => rw [hp] at h; cases h; exact .inl ⟨rfl, rfl⟩
  | cons e rest =>
    rw [hp] at h
    cases e with
    | reset => cases h; exact .inr (.inl ⟨rest, rfl, rfl⟩)
    | command w data =>
      simp only [runEvent] at h
      cases hd : decode (.host w data) with
      | ok i => rw [hd] at h; exact .inr (.inr (.inl ⟨w, data, rest, i, rfl, hd, h⟩))
      | error e => rw [hd] at h; exact .inr (.inr (.inr ⟨w, data, rest, e, rfl, hd, h⟩))

end Sys2Proof.Machine
end

