-- ==== Sys2Proof/Laws/Exec.lean ====
section
/-! SUPPORT. What each instruction's meaning is on a block that is not faulted, the checks of the command's wrapper
discharged once. -/

namespace Sys2Proof.Machine

variable {s : State}

theorem exec_push_ready (h : s.Ready) (len : Half) (data : List Byte) :
    exec (.push len data) s =
      if data.length ≠ len.toNat then .next (s.raise .illegalCommand (hostWord 1 len 0))
      else if s.space < data.length then .next (s.respond .bufferOverflow 0)
      else afterDrain (drainAll (s.ringWrite data)) := by
  unfold exec execPush
  exact command_ready h _

theorem exec_advance_ready (h : s.Ready) (n : Half) :
    exec (.advance n) s =
      if s.space < n.toNat then .next (s.respond .bufferOverflow 0)
      else afterDrain (drainAll (s.commit n.toNat)) := by
  unfold exec execAdvance
  exact command_ready h _

theorem exec_vwrite_ready (h : s.Ready) (i : Half) (b : Byte) :
    exec (.vwrite i b) s =
      if s.wviewLen ≤ i.toNat then .next (s.raise .viewRange (i.setWidth 32))
      else .next ((s.stage i.toNat b).respond .ok 0) := by
  unfold exec execVwrite
  exact command_ready h _

theorem exec_clear_ready (h : s.Ready) : exec .clear s = .next (s.clearRing.respond .ok 0) := by
  unfold exec execClear
  exact command_ready h _

theorem exec_wview_ready (h : s.Ready) :
    exec .wview s = .next (s.respond .ok (s.wr ++ BitVec.ofNat 16 s.wviewLen)) := by
  unfold exec execWview
  exact query_ready h _

theorem exec_avail_ready (h : s.Ready) : exec .avail s = .next (s.respond .ok (BitVec.ofNat 32 s.avail)) := by
  unfold exec execAvail
  exact query_ready h _

theorem exec_space_ready (h : s.Ready) : exec .space s = .next (s.respond .ok (BitVec.ofNat 32 s.space)) := by
  unfold exec execSpace
  exact query_ready h _

theorem exec_empty_ready (h : s.Ready) : exec .empty s = .next (s.respond .ok (flagValue s.isEmpty)) := by
  unfold exec execEmpty
  exact query_ready h _

theorem exec_full_ready (h : s.Ready) : exec .full s = .next (s.respond .ok (flagValue s.isFull)) := by
  unfold exec execFull
  exact query_ready h _

theorem exec_lookup_ready (h : s.Ready) (cmd : Half) :
    exec (.lookup cmd) s = .next (s.respond .ok (lookupValue s.cfg cmd)) := by
  unfold exec execLookup
  exact query_ready h _

theorem exec_arenaRead_ready (h : s.Ready) (addr : Half) :
    exec (.arenaRead addr) s =
      if s.cfg.total ≤ addr.toNat then .next (s.raise .arenaRange (addr.setWidth 32))
      else .next (s.respond .ok ((s.arenaByte addr.toNat).setWidth 32)) := by
  unfold exec execArenaRead
  exact command_ready h _

theorem exec_frame_ready (h : s.Ready) (ha : headerSize ≤ s.avail) (cmd len : Half) (seq crc : Byte) :
    exec (.frame cmd len seq crc) s = (afterParse s (checkFrame cmd len seq crc s)).result := by
  unfold exec execFrame
  exact engine_ready h ha _

theorem exec_junk_ready (h : s.Ready) (ha : headerSize ≤ s.avail) (b : Byte) :
    exec (.junk b) s = (afterScan s (s.scan s.rview)).result := by
  unfold exec execJunk
  exact engine_ready h ha _

theorem State.Inv.ready (h : s.Inv) (hf : s.fault = 0) : s.Ready := ⟨h.cfg_valid, hf⟩

end Sys2Proof.Machine
end

