-- ==== Sys2Proof/Laws/Drain.lean ====
section
/-! SUPPORT. What one pass of the parse loop can do to the state, said once for the drains that run it. -/

namespace Sys2Proof.Machine

/-- Two discards are one. -/
theorem discard_discard {s : State} (hN : s.ringSize ≤ 32768) (h0 : 0 < s.ringSize) (a b : Nat) :
    (s.discard a).discard b = s.discard (a + b) := by
  have h : (s.discard a).ringIndex ((s.discard a).rd.toNat + b) = s.ringIndex (s.rd.toNat + (a + b)) := by
    have h1 : (s.discard a).rd.toNat = (s.rd.toNat + a) % s.ringSize := ringIndex_toNat hN h0 _
    rw [h1]
    unfold State.ringIndex
    rw [discard_ringSize, mod_add_mod, Nat.add_assoc]
  unfold State.discard at h ⊢
  simp only at h ⊢
  rw [h]

/-- A successful dispatch, its three discards taken together (R510). -/
theorem dispatch_success {s t : State} {cmd len : Half} {p : List Byte} (hN : s.ringSize ≤ 32768)
    (h0 : 0 < s.ringSize) (h : dispatch cmd len p s = .success t) :
    (∃ slot, s.cfg.slotOf cmd = some slot ∧ slot.offset + len.toNat ≤ s.cfg.total
        ∧ t = (s.discard (9 + len.toNat)).storeArena slot.offset p)
    ∨ (s.cfg.slotOf cmd = none ∧ t = s.discard (9 + len.toNat)) := by
  rcases dispatch_cases cmd len p s with ⟨slot, -, -, he⟩ | ⟨slot, hs, hfit, he⟩ | ⟨hs, he⟩ <;> rw [he] at h <;> cases h
  · refine .inl ⟨slot, hs, hfit, ?_⟩
    have e : ((((s.discard headerSize).storeArena slot.offset p).discard len.toNat).discard tailSize)
        = (((s.discard headerSize).discard len.toNat).discard tailSize).storeArena slot.offset p := rfl
    rw [e, discard_discard (s := s) hN h0, discard_discard (s := s) hN h0]
    simp only [headerSize, tailSize]
    rw [show 7 + len.toNat + 2 = 9 + len.toNat by omega]
  · refine .inr ⟨hs, ?_⟩
    rw [discard_discard (s := s) hN h0, discard_discard (s := s) hN h0]
    simp only [headerSize, tailSize]
    rw [show 7 + len.toNat + 2 = 9 + len.toNat by omega]

/-- What a successful parse has seen and done: a frame of `9 + L` committed bytes that passes every check, and its
dispatch (R604). -/
theorem checkFrame_success {s t : State} {cmd len : Half} {seq crc : Byte}
    (h : checkFrame cmd len seq crc s = .success t) :
    crc8 (headerBody cmd len seq) = crc ∧ len.toNat ≤ s.cfg.maxPayload ∧ 9 + len.toNat ≤ s.avail
    ∧ ∃ covered tail, s.peek 0 (7 + len.toNat) = .ok covered ∧ s.peek (7 + len.toNat) 2 = .ok tail
        ∧ crc16 covered = fieldAt tail 0 ∧ dispatch cmd len (covered.drop 7) s = .success t := by
  rcases checkFrame_cases cmd len seq crc s with ⟨-, he⟩ | ⟨-, -, -, he⟩ | ⟨hc, hm, ha, he⟩
  · rw [he] at h; cases h
  · rw [he] at h; cases h
  · rw [he] at h
    simp only [headerSize, tailSize] at ha
    refine ⟨hc, hm, by omega, ?_⟩
    rcases checkTail_cases cmd len s with ⟨k, -, -, he⟩ | ⟨covered, tail, hp, hq, ⟨-, he⟩ | ⟨hcrc, he⟩⟩
    · rw [he] at h; cases h
    · rw [he] at h; cases h
    · rw [he] at h
      exact ⟨covered, tail, hp, hq, hcrc, h⟩

/-- The fault a check of a frame raises: an `UNDEF` cell examined, or an overrun, both on the state as it was. -/
theorem checkFrame_raised {s t : State} {cmd len : Half} {seq crc : Byte}
    (h : checkFrame cmd len seq crc s = .raised t) :
    (∃ k, s.byteAt k = none ∧ t = s.raiseUndef (s.cellAt k)) ∨ t = s.raise .arenaOverrun (cmd ++ len) := by
  rcases checkFrame_cases cmd len seq crc s with ⟨-, he⟩ | ⟨-, -, -, he⟩ | ⟨-, -, -, he⟩
  · rw [he] at h; cases h
  · rw [he] at h; cases h
  · rw [he] at h
    rcases checkTail_cases cmd len s with ⟨k, -, hk, he⟩ | ⟨covered, tail, -, -, ⟨-, he⟩ | ⟨-, he⟩⟩
    · rw [he] at h; cases h
      exact .inl ⟨k, hk, rfl⟩
    · rw [he] at h; cases h
    · rw [he] at h
      rcases dispatch_cases cmd len (covered.drop headerSize) s with ⟨_, -, -, he⟩ | ⟨_, -, -, he⟩ | ⟨-, he⟩ <;>
        rw [he] at h <;> cases h
      exact .inr rfl

/-- What a pass that ends in a fault leaves: one entry of the fault registers and one response (R803). -/
theorem drainPass_raised {s t : State} (h : drainPass s = .raised t) :
    (∃ k, s.byteAt k = none ∧ t = s.raiseUndef (s.cellAt k)) ∨ ∃ cmd len : Half, t = s.raise .arenaOverrun (cmd ++ len) := by
  rcases drainPass_cases s with ⟨-, he⟩ | ⟨-, hs, he⟩ | ⟨-, hs, he⟩ <;> rw [he] at h
  · cases h
  · obtain ⟨-, h0⟩ := scan_found_zero hs
    rcases parseFrame_cases h0 with ⟨k, -, hk, hp⟩ | ⟨c0, c1, l0, l1, seq, crc, -, hp⟩ <;> rw [hp] at h
    · cases h
      exact .inl ⟨k, hk, rfl⟩
    · cases hc : checkFrame (le16 c0 c1) (le16 l0 l1) seq crc s <;> rw [hc] at h <;> cases h
      exact (checkFrame_raised hc).imp_right fun h => ⟨_, _, h⟩
  · have hx := scanFor_spec (s := s) (b := sof) (n := s.rview) (j := 0)
    unfold State.scan at h
    cases hr : s.scanFor sof 0 s.rview <;> rw [hr] at h hx <;> cases h
    obtain ⟨k, -, hk, rfl, -⟩ := hx
    exact .inl ⟨0 + k, hk, rfl⟩

/-- A pass that returns leaves the state as it was. -/
theorem drainPass_leave {s t : State} (h : drainPass s = .leave t) :
    t = s ∧ (s.avail < headerSize ∨ ∃ c0 c1 l0 l1 seq crc,
      s.peek 0 headerSize = .ok [sof, c0, c1, l0, l1, seq, crc]
      ∧ crc8 (headerBody (le16 c0 c1) (le16 l0 l1) seq) = crc ∧ (le16 l0 l1).toNat ≤ s.cfg.maxPayload
      ∧ s.avail < headerSize + (le16 l0 l1).toNat + tailSize) := by
  rcases drainPass_cases s with ⟨ha, he⟩ | ⟨-, hs, he⟩ | ⟨-, hs, he⟩ <;> rw [he] at h
  · cases h
    exact ⟨rfl, .inl ha⟩
  · obtain ⟨-, h0⟩ := scan_found_zero hs
    rcases parseFrame_cases h0 with ⟨k, -, hk, hp⟩ | ⟨c0, c1, l0, l1, seq, crc, hpk, hp⟩ <;> rw [hp] at h
    · cases h
    · rcases checkFrame_cases (le16 c0 c1) (le16 l0 l1) seq crc s with ⟨-, hc⟩ | ⟨h1, h2, h3, hc⟩ | ⟨-, -, -, hc⟩
      · rw [hc] at h; cases h
      · rw [hc] at h; cases h
        exact ⟨rfl, .inr ⟨c0, c1, l0, l1, seq, crc, hpk, h1, h2, h3⟩⟩
      · rw [hc] at h
        rcases checkTail_cases (le16 c0 c1) (le16 l0 l1) s with ⟨k, -, -, hd⟩ | ⟨covered, _, -, -, ⟨-, hd⟩ | ⟨-, hd⟩⟩ <;>
          rw [hd] at h
        · cases h
        · cases h
        · rcases dispatch_cases (le16 c0 c1) (le16 l0 l1) (covered.drop headerSize) s with
            ⟨_, -, -, he⟩ | ⟨_, -, -, he⟩ | ⟨-, he⟩ <;> rw [he] at h <;> cases h
  · cases hr : s.scan s.rview <;> rw [hr] at h <;> cases h

/-- What a pass that goes on has done: dropped between one and all of the committed bytes, and written no arena byte or
one payload inside the arena (R601, R603, R611). -/
theorem drainPass_again {s t : State} (hi : s.Inv) (h : drainPass s = .again t) :
    ∃ n, 1 ≤ n ∧ n ≤ s.avail ∧ (t = s.discard n
      ∨ ∃ (a : Nat) (p : List Byte), a + p.length ≤ s.cfg.total ∧ t = (s.discard n).storeArena a p) := by
  have hN := hi.size_le
  have h0 := hi.size_pos
  have h1 := hi.rd_lt
  have h2 := hi.wr_lt
  have ha := avail_eq h1 h2
  rcases drainPass_cases s with ⟨-, he⟩ | ⟨h7, hs, he⟩ | ⟨h7, hs, he⟩ <;> rw [he] at h
  · cases h
  · obtain ⟨-, hb⟩ := scan_found_zero hs
    rcases parseFrame_cases hb with ⟨k, -, hk, hp⟩ | ⟨c0, c1, l0, l1, seq, crc, hpk, hp⟩ <;> rw [hp] at h
    · cases h
    · cases hc : checkFrame (le16 c0 c1) (le16 l0 l1) seq crc s with
      | failure =>
        rw [hc] at h; cases h
        unfold headerSize at h7
        exact ⟨1, by omega, by omega, .inl rfl⟩
      | incomplete => rw [hc] at h; cases h
      | raised u => rw [hc] at h; cases h
      | success u =>
        rw [hc] at h; cases h
        obtain ⟨-, -, hav, covered, tail, hp, -, -, hd⟩ := checkFrame_success hc
        refine ⟨9 + (le16 l0 l1).toNat, by omega, hav, ?_⟩
        rcases dispatch_success hN h0 hd with ⟨slot, -, hfit, rfl⟩ | ⟨-, rfl⟩
        · refine .inr ⟨slot.offset, covered.drop 7, ?_, rfl⟩
          have := (peek_ok.mp hp).1
          rw [List.length_drop]
          omega
        · exact .inl rfl
  · have hv : 1 ≤ s.rview ∧ s.rview ≤ s.avail := by
      unfold headerSize at h7
      unfold State.rview
      split at ha <;> split <;> omega
    have hx := scanFor_spec (s := s) (b := sof) (n := s.rview) (j := 0)
    unfold State.scan at h hs
    cases hr : s.scanFor sof 0 s.rview with
    | undef p => rw [hr] at h; cases h
    | notFound =>
      rw [hr] at h; cases h
      exact ⟨s.rview, hv.1, hv.2, .inl rfl⟩
    | found k =>
      rw [hr] at h hx hs; cases h
      obtain ⟨m, hm, rfl, -, -⟩ := hx
      refine ⟨0 + m, ?_, by omega, .inl rfl⟩
      rcases Nat.eq_zero_or_pos m with rfl | hm0
      · exact absurd rfl hs
      · omega

/-! ### What passes keep -/

theorem discard_inv {s : State} (hi : s.Inv) (n : Nat) : (s.discard n).Inv := by
  have hN := hi.size_le
  have h0 := hi.size_pos
  obtain ⟨h1, h2, h3, h4, h5, h6, h7, h8, h9, h10⟩ := hi
  exact ⟨h1, by rw [discard_rd, ringIndex_toNat hN h0]; exact Nat.mod_lt _ h0, h3, h4, h5, h6, h7, h8, h9, h10⟩

theorem storeArena_inv {s : State} (hi : s.Inv) {a : Nat} {p : List Byte} (h : a + p.length ≤ s.cfg.total) :
    (s.storeArena a p).Inv := by
  obtain ⟨h1, h2, h3, h4, h5, h6, h7, h8, h9, h10⟩ := hi
  exact ⟨h1, h2, h3, h4, h5, wf_writeArena h6, below_writeArena h h7, h8, h9, h10⟩

theorem drainPass_inv {s t : State} (hi : s.Inv) (h : drainPass s = .again t) : t.Inv := by
  obtain ⟨n, -, -, rfl | ⟨a, p, hp, rfl⟩⟩ := drainPass_again hi h
  · exact discard_inv hi n
  · exact storeArena_inv (discard_inv hi n) hp

theorem respond_inv {s : State} (hi : s.Inv) {st : Status} (hs : st.produced = true) (v : Word) :
    (s.respond st v).Inv := by
  obtain ⟨h1, h2, h3, h4, h5, h6, h7, h8, h9, h10⟩ := hi
  refine ⟨h1, h2, h3, h4, h5, h6, h7, h8, h9, fun r hr => ?_⟩
  rcases List.mem_append.mp hr with hr | hr
  · exact h10 r hr
  · obtain rfl := List.mem_singleton.mp hr
    exact hs

theorem mask_ne_zero (k : FaultKind) : k.mask ≠ 0 := by cases k <;> decide

theorem raise_inv {s : State} (hi : s.Inv) (hf : s.fault = 0) (k : FaultKind) (info : Word) :
    (s.raise k info).Inv := by
  obtain ⟨h1, h2, h3, h4, h5, h6, h7, h8, h9, h10⟩ := hi
  refine ⟨h1, h2, h3, h4, h5, h6, h7, .inr ⟨k, by simp [hf]⟩, fun h => ?_, fun r hr => ?_⟩
  · simp only [raise_fault, hf] at h
    exact absurd (by simpa using h) (mask_ne_zero k)
  · rcases List.mem_append.mp hr with hr | hr
    · exact h10 r hr
    · obtain rfl := List.mem_singleton.mp hr
      rfl

end Sys2Proof.Machine
end

