-- ==== Sys2Proof/Laws/PerInstr.lean ====
section
/-! SUPPORT. Statements made once per instruction. `EncodeLegal`: what the encoder writes for a well-formed instruction
is a legal command word (30_encoding.md R314), or a wire unit of the kind its first byte says (R309). -/

namespace Sys2Proof.Laws.EncodeLegal

open Sys2Proof Sys2Proof.Machine

/-- A command word with its data that R314 does not call illegal; or seven wire bytes from SOF on, or one other byte. -/
def legalCode : Code → Prop
  | .host w data => ¬ illegalWord w data
  | .wire bytes => (bytes.head? = some sof ∧ bytes.length = headerSize) ∨ ∃ b, bytes = [b] ∧ b ≠ sof

/-- A well-formed instruction encodes to a legal code. -/
def Statement (i : Instr) : Prop := i.WellFormed → legalCode (encode i)

theorem push (len : Half) (data : List Byte) : Statement (.push len data) := by
  intro h
  have : data.length = len.toNat := by simpa [Instr.WellFormed, Instr.wf] using h
  simp [encode, legalCode, illegalWord, this]

theorem wview : Statement .wview := fun _ => by simp [encode, legalCode, illegalWord]

theorem vwrite (i : Half) (b : Byte) : Statement (.vwrite i b) := fun _ => by simp [encode, legalCode, illegalWord]

theorem advance (n : Half) : Statement (.advance n) := fun _ => by simp [encode, legalCode, illegalWord]

theorem clear : Statement .clear := fun _ => by simp [encode, legalCode, illegalWord]

theorem avail : Statement .avail := fun _ => by simp [encode, legalCode, illegalWord]

theorem space : Statement .space := fun _ => by simp [encode, legalCode, illegalWord]

theorem full : Statement .full := fun _ => by simp [encode, legalCode, illegalWord]

theorem empty : Statement .empty := fun _ => by simp [encode, legalCode, illegalWord]

theorem lookup (cmd : Half) : Statement (.lookup cmd) := fun _ => by simp [encode, legalCode, illegalWord]

theorem arenaRead (addr : Half) : Statement (.arenaRead addr) := fun _ => by simp [encode, legalCode, illegalWord]

theorem faults : Statement .faults := fun _ => by simp [encode, legalCode, illegalWord]

theorem faultinfo : Statement .faultinfo := fun _ => by simp [encode, legalCode, illegalWord]

theorem frame (cmd len : Half) (seq crc : Byte) : Statement (.frame cmd len seq crc) :=
  fun _ => .inl (by simp [headerBody, headerSize])

theorem junk (b : Byte) : Statement (.junk b) := by
  intro h
  exact .inr ⟨b, rfl, by simpa [Instr.WellFormed, Instr.wf] using h⟩

end Sys2Proof.Laws.EncodeLegal
end

