-- ==== Sys2Proof/Laws/Trace.lean ====
section
/-! SUPPORT. What the dispatch sequence and the committed stream of Machine/Trace.lean say of a command. -/

namespace Sys2Proof.Machine

/-! ### Passes -/

theorem drainDispatches_again {s t : State} (h : drainPass s = .again t) (n : Nat) :
    drainDispatches (n + 1) s = s.passDispatches ++ drainDispatches n t := by
  simp [drainDispatches, h]

theorem drainDispatches_leave {s t : State} (h : drainPass s = .leave t) (n : Nat) : drainDispatches (n + 1) s = [] := by
  simp [drainDispatches, h]

theorem drainDispatches_raised {s t : State} (h : drainPass s = .raised t) (n : Nat) : drainDispatches (n + 1) s = [] := by
  simp [drainDispatches, h]

/-- A header behind a SOF, and the payload behind the header, are the frame at the head (R302). -/
theorem frameAtHead_eq {s : State} {c0 c1 l0 l1 seq crc : Byte} {p : List Byte}
    (hh : s.peek 0 headerSize = .ok [sof, c0, c1, l0, l1, seq, crc])
    (hp : s.peek headerSize (le16 l0 l1).toNat = .ok p) : s.frameAtHead = some ⟨le16 c0 c1, p⟩ := by
  have h3 : fieldAt [sof, c0, c1, l0, l1, seq, crc] 3 = le16 l0 l1 := rfl
  have h1 : fieldAt [sof, c0, c1, l0, l1, seq, crc] 1 = le16 c0 c1 := rfl
  simp only [State.frameAtHead, hh, h3, hp, h1]

/-- The dispatch of a parse that returns SUCCESS is that of its header's cmd with the bytes the CRC16 check has examined
(R510, R610). -/
theorem parseDispatches_success {s t : State} {c0 c1 l0 l1 seq crc : Byte}
    (hh : s.peek 0 headerSize = .ok [sof, c0, c1, l0, l1, seq, crc]) (h : parseFrame s = .success t) :
    ∃ p, s.peek headerSize (le16 l0 l1).toNat = .ok p ∧ p.length = (le16 l0 l1).toNat
      ∧ s.parseDispatches = [⟨le16 c0 c1, p⟩] := by
  have hc : checkFrame (le16 c0 c1) (le16 l0 l1) seq crc s = .success t := by
    simpa [parseFrame, hh, decodeWire] using h
  obtain ⟨-, -, -, covered, -, hpk, -, -, -⟩ := checkFrame_success hc
  have hdef := peek_ok.mp hpk
  obtain ⟨p, hp⟩ : ∃ p, s.peek headerSize (le16 l0 l1).toNat = .ok p := by
    refine peek_of_defined fun k hk => ?_
    have := hdef.2 (headerSize + k) (by rw [hdef.1]; unfold headerSize; omega)
    rw [Nat.zero_add] at this
    rw [this]
    rfl
  refine ⟨p, hp, (peek_ok.mp hp).1, ?_⟩
  simp [State.parseDispatches, h, frameAtHead_eq hh hp]

/-! ### Commands -/

/-- A command that delivers bytes commits them and runs one drain (R410, R413). -/
theorem exec_delivery {s c : State} {i : Instr} (h : s.Ready) (hd : s.delivery i = some c) :
    exec i s = afterDrain (drainAll c) := by
  have hf : ¬ s.isFaulted = true := by simp [isFaulted_eq, h.unfaulted]
  unfold State.delivery at hd
  rw [if_neg hf] at hd
  cases i <;> try cases hd
  case push len data =>
    rw [exec_push_ready h]
    simp only at hd
    split at hd
    · rename_i hl
      cases hd
      rw [if_neg (by simpa using hl.1), if_neg (by omega)]
    · cases hd
  case advance n =>
    rw [exec_advance_ready h]
    simp only at hd
    split at hd
    · rename_i hl
      cases hd
      rw [if_neg (by omega)]
    · cases hd

/-- A command that delivers nothing commits and dispatches nothing. -/
theorem commits_of_no_delivery {s : State} {i : Instr} (h : s.delivery i = none) : s.commits i = [] := by
  simp [State.commits, h]

theorem dispatches_of_no_delivery {s : State} {i : Instr} (h : s.delivery i = none) : s.dispatches i = [] := by
  simp [State.dispatches, h]

/-! ### Runs -/

theorem streamOf_cons {s t : State} {i : Instr} (h : exec i s = .next t) (is : List Instr) :
    streamOf (i :: is) s = s.commits i ++ streamOf is t := by simp [streamOf, h]

theorem dispatchesOf_cons {s t : State} {i : Instr} (h : exec i s = .next t) (is : List Instr) :
    dispatchesOf (i :: is) s = s.dispatches i ++ dispatchesOf is t := by simp [dispatchesOf, h]

end Sys2Proof.Machine
end

