-- ==== Sys2Proof/Machine/Asm.lean ====
section
/-! DEFINITION. The assembler's text (30_encoding.md R318) and pseudo-instructions (R319). The block does not use them:
they give a program text its commands. Spacing, letter case and malformed text are this model's reading
(notes/assumptions/15.md). -/

namespace Sys2Proof.Machine

/-! ### Pseudo-instructions (R319) -/

/-- PUSH of a byte list; none if `len` does not fit `arg16` (R311, R318). -/
def asmPush (d : List Byte) : Option Instr :=
  if d.length < 65536 then some (.push (BitVec.ofNat 16 d.length) d) else none

/-- `PUSHFRAME cmd, seq, payload` (R319 (a)). -/
def asmPushFrame (cmd : Half) (seq : Byte) (payload : List Byte) : Option Instr :=
  asmPush (frameBytes cmd seq payload)

/-- `VWRITE k, d[0]; VWRITE k + 1, d[1]; …` (R319 (b)). -/
def asmStage : Nat → List Byte → List Instr
  | _, [] => []
  | k, b :: bs => .vwrite (BitVec.ofNat 16 k) b :: asmStage (k + 1) bs

/-- `ZPUSH d` (R319 (b)); none if an offset or the count does not fit `arg16`. -/
def asmZpush (d : List Byte) : Option (List Instr) :=
  if d.length < 65536 then some (.wview :: (asmStage 0 d ++ [.advance (BitVec.ofNat 16 d.length)])) else none

/-- `GET cmd` (R319 (c)): one ARENA_READ per byte of the slot; none, an assembly error, for an unknown cmd. -/
def asmGet (c : Config) (cmd : Half) : Option (List Instr) :=
  (c.slotOf cmd).map fun slot =>
    (List.range slot.entry.size).map fun k => .arenaRead (BitVec.ofNat 16 (slot.offset + k))

/-! ### Text (R318) -/

/-- The value of a digit, hexadecimal digits in either case. -/
def digitValue (c : Char) : Option Nat :=
  if '0' ≤ c ∧ c ≤ '9' then some (c.toNat - '0'.toNat)
  else if 'a' ≤ c ∧ c ≤ 'f' then some (c.toNat - 'a'.toNat + 10)
  else if 'A' ≤ c ∧ c ≤ 'F' then some (c.toNat - 'A'.toNat + 10)
  else none

/-- Read digits of a base after a value already read. -/
def digitsFrom (base : Nat) : Nat → List Char → Option Nat
  | acc, [] => some acc
  | acc, c :: cs =>
    match digitValue c with
    | some d => if d < base then digitsFrom base (acc * base + d) cs else none
    | none => none

/-- A number: hexadecimal with `0x`, or decimal. -/
def parseNumber : List Char → Option Nat
  | [] => none
  | '0' :: 'x' :: c :: cs => digitsFrom 16 0 (c :: cs)
  | c :: cs => digitsFrom 10 0 (c :: cs)

/-- A blank of a source line. -/
def isBlank (c : Char) : Bool := c == ' ' || c == '\t'

/-- A text without the blanks at its two ends. -/
def trim (cs : List Char) : List Char := ((cs.dropWhile isBlank).reverse.dropWhile isBlank).reverse

/-- The pieces of a text between separators, trimmed. -/
def pieces (sep : Char) (cs : List Char) : List (List Char) :=
  cs.foldr (fun c acc =>
    if c = sep then [] :: acc
    else match acc with
      | [] => [[c]]
      | p :: ps => (c :: p) :: ps) [[]]
    |>.map trim

/-- Operands separated by commas; an empty text has none. -/
def parseOperands (cs : List Char) : Option (List Nat) :=
  if trim cs = [] then some [] else (pieces ',' cs).mapM parseNumber

/-- An operand that fits 16 bits (R311). -/
def toHalf (n : Nat) : Option Half := if n < 65536 then some (BitVec.ofNat 16 n) else none

/-- An operand that fits 8 bits (R311). -/
def toByte (n : Nat) : Option Byte := if n < 256 then some (BitVec.ofNat 8 n) else none

/-- A line's parts: mnemonic, the operands before a bracketed list, and the list if there is one. -/
structure AsmLine where
  mnemonic : List Char
  args     : List Nat
  bytes    : Option (List Byte)
deriving DecidableEq, Repr

/-- The operands before an opening bracket: each is followed by a comma. -/
def parseLeading (cs : List Char) : Option (List Nat) :=
  if trim cs = [] then some []
  else match (pieces ',' cs).reverse with
    | [] :: ps => ps.reverse.mapM parseNumber
    | _ => none

/-- A bracketed byte list that ends the line. -/
def parseBytes (cs : List Char) : Option (List Byte) :=
  match (trim cs).reverse with
  | ']' :: rest => (parseOperands rest.reverse).bind (fun ns => ns.mapM toByte)
  | _ => none

/-- Split a line, its comment from `;` on dropped. -/
def parseLine (line : List Char) : Option AsmLine :=
  let text := trim (line.takeWhile (fun c => c != ';'))
  let mnemonic := text.takeWhile (fun c => !(isBlank c || c == '['))
  let rest := text.drop mnemonic.length
  let before := rest.takeWhile (fun c => c != '[')
  match rest.drop before.length with
  | [] => (parseOperands before).map fun args => ⟨mnemonic, args, none⟩
  | _ :: list => (parseLeading before).bind fun args => (parseBytes list).map fun bs => ⟨mnemonic, args, some bs⟩

/-- The commands of a parsed line (R313, R318, R319). -/
def asmCommands (c : Config) (l : AsmLine) : Option (List Instr) :=
  match l.args, l.bytes with
  | [], some bs =>
    if l.mnemonic = "PUSH".toList then (asmPush bs).map fun i => [i]
    else if l.mnemonic = "ZPUSH".toList then asmZpush bs
    else none
  | [cmd, seq], some bs =>
    if l.mnemonic = "PUSHFRAME".toList then
      (toHalf cmd).bind fun cmd => (toByte seq).bind fun seq => (asmPushFrame cmd seq bs).map fun i => [i]
    else none
  | [i, b], none =>
    if l.mnemonic = "VWRITE".toList then
      (toHalf i).bind fun i => (toByte b).map fun b => [.vwrite i b]
    else none
  | [n], none =>
    (toHalf n).bind fun n =>
      if l.mnemonic = "ADVANCE".toList then some [.advance n]
      else if l.mnemonic = "LOOKUP".toList then some [.lookup n]
      else if l.mnemonic = "ARENA_READ".toList then some [.arenaRead n]
      else if l.mnemonic = "GET".toList then asmGet c n
      else none
  | [], none =>
    if l.mnemonic = "WVIEW".toList then some [.wview]
    else if l.mnemonic = "CLEAR".toList then some [.clear]
    else if l.mnemonic = "AVAIL".toList then some [.avail]
    else if l.mnemonic = "SPACE".toList then some [.space]
    else if l.mnemonic = "FULL".toList then some [.full]
    else if l.mnemonic = "EMPTY".toList then some [.empty]
    else if l.mnemonic = "FAULTS".toList then some [.faults]
    else if l.mnemonic = "FAULTINFO".toList then some [.faultinfo]
    else none
  | _, _ => none

/-- The commands one line of assembler text stands for (R318, R319). -/
def assemble (c : Config) (line : String) : Option (List Instr) := (parseLine line.toList).bind (asmCommands c)

end Sys2Proof.Machine
end

