-- ==== Sys2Proof/Tests/Slice0.lean ====
section
/-! SUPPORT. Tests. Expected values are the vectors of spec/95_test_vectors.md, the tables of 30_encoding.md and the
examples of the rules, never the model's own answers. The witnesses at the end meet the hypotheses of the statements. -/

namespace Sys2Proof.Tests

-- One theorem at a time: their kernel evaluations side by side would exhaust the memory a check has.
set_option Elab.async false

open Sys2Proof Sys2Proof.Machine

/-! ### Small states -/

/-- `REG_S1` with `N = 16` (95_test_vectors.md). -/
def toy : Config := ⟨16, [⟨0x0001, 1, 1⟩]⟩

/-- `REG_A` with `N = 16` (V-RB-3). -/
def tight : Config := ⟨16, exampleConfig.registry⟩

/-- A block after reset whose cells from `rd` on hold `bytes`, all of them committed. -/
def blockAt (c : Config) (rd : Nat) (bytes : List Byte) : State :=
  { State.resetOf c with
    rd := BitVec.ofNat 16 rd
    wr := BitVec.ofNat 16 ((rd + bytes.length) % c.ringSize)
    ring := Memory.writeRing c.ringSize [] rd bytes }

/-- A block after reset whose cells from 0 on hold `bytes`, none of them committed. -/
def stagedIn (c : Config) (bytes : List Byte) : State :=
  { State.resetOf c with ring := Memory.writeRing c.ringSize [] 0 bytes }

/-- A block that has faulted (V-RB-4). -/
def faultedBlock : State := { State.resetOf toy with fault := 0x2, faultInfo := 0x5 }

/-- The same block with one command at its port. -/
def offered (s : State) (w : Word) (data : List Byte) : State := { s with port := [.command w data] }

/-- A property of the next state; false of a fault and of a refusal. -/
def next? (r : Result) (f : State → Bool) : Bool :=
  match r with
  | .next t => f t
  | .fault _ => false
  | .refused _ => false

/-- The outcome is this next state. -/
def isNext (r : Result) (t : State) : Bool := next? r fun u => decide (u = t)

theorem of_isNext {r : Result} {t : State} (h : isNext r t = true) : r = .next t := by
  cases r <;> simp_all [isNext, next?]

/-- The step answers with this response, `RD`, `WR` and fault registers. -/
def stepGives (s : State) (r : Response) (rd wr : Half) (fault info : Word) : Bool :=
  next? (step s) fun t => t.responses == [r] && t.rd == rd && t.wr == wr && t.fault == fault && t.faultInfo == info

/-- `F_S1`. -/
def fS1 : List Byte := [0xA5, 0x01, 0x00, 0x01, 0x00, 0x00, 0x87, 0x7F, 0x2E, 0xE0]

/-- `F_0302`. -/
def f0302 : List Byte := [0xA5, 0x02, 0x03, 0x04, 0x00, 0x00, 0x74, 0x01, 0x02, 0x03, 0x04, 0xF1, 0x1B]

/-- `F_E12`, whose payload overruns the arena of `REG_A`. -/
def fE12 : List Byte := [0xA5, 0x01, 0x00, 0x02, 0x00, 0x00, 0x63, 0xE1, 0xE2, 0xB7, 0x87]

/-- `F_U`, whose cmd is unknown to `REG_S1`. -/
def fU : List Byte := [0xA5, 0x02, 0x00, 0x01, 0x00, 0x00, 0xC9, 0x55, 0x47, 0x93]

/-- S4: `F_S1` with the low byte of its CRC16 flipped. -/
def fBad : List Byte := [0xA5, 0x01, 0x00, 0x01, 0x00, 0x00, 0x87, 0x7F, 0xD1, 0xE0]

/-- The ring at the end of S6. -/
def s6Ring : Memory :=
  Memory.writeRing 16 [] 0
    [0x2E, 0xE0, 0x11, 0x11, 0x11, 0x11, 0x11, 0x11, 0xA5, 0x01, 0x00, 0x01, 0x00, 0x00, 0x87, 0x7F]

/-- Seven junk bytes. -/
def junk7 : List Byte := List.replicate 7 0x11

/-! ### WellFormed: ill-formed terms are refused -/

theorem test_wf_refuses_push_count : ¬ (Instr.push 2 [0x01, 0x02, 0x03]).WellFormed := by decide
theorem test_wf_refuses_junk_sof : ¬ (Instr.junk 0xA5).WellFormed := by decide

/-! ### Decoding: one word for every constructor, written out from R301, R310 and R313 -/

theorem test_decode_push : decode (.host 0b0001_0000_0000000000000010_00000000#32 [0x2E, 0xE0]) = .ok (.push 2 [0x2E, 0xE0]) := by
  decide
theorem test_decode_wview : decode (.host 0b0010_0000_0000000000000000_00000000#32 []) = .ok .wview := by decide
theorem test_decode_vwrite : decode (.host 0b0011_0000_0000000000000001_11110001#32 []) = .ok (.vwrite 1 0xF1) := by decide
theorem test_decode_advance : decode (.host 0b0100_0000_0000000000001111_00000000#32 []) = .ok (.advance 15) := by decide
theorem test_decode_clear : decode (.host 0b0101_0000_0000000000000000_00000000#32 []) = .ok .clear := by decide
theorem test_decode_avail : decode (.host 0b0110_0000_0000000000000000_00000000#32 []) = .ok .avail := by decide
theorem test_decode_space : decode (.host 0b0111_0000_0000000000000000_00000000#32 []) = .ok .space := by decide
theorem test_decode_full : decode (.host 0b1000_0000_0000000000000000_00000000#32 []) = .ok .full := by decide
theorem test_decode_empty : decode (.host 0b1001_0000_0000000000000000_00000000#32 []) = .ok .empty := by decide
theorem test_decode_lookup : decode (.host 0b1010_0000_0000001100000010_00000000#32 []) = .ok (.lookup 0x0302) := by decide
theorem test_decode_arena_read : decode (.host 0b1011_0000_0000000000010000_00000000#32 []) = .ok (.arenaRead 16) := by decide
theorem test_decode_faults : decode (.host 0b1100_0000_0000000000000000_00000000#32 []) = .ok .faults := by decide
theorem test_decode_faultinfo : decode (.host 0b1101_0000_0000000000000000_00000000#32 []) = .ok .faultinfo := by decide
theorem test_decode_frame : decode (.wire [0xA5, 0x02, 0x03, 0x04, 0x00, 0x00, 0x74]) = .ok (.frame 0x0302 4 0 0x74) := by
  decide
theorem test_decode_junk : decode (.wire [0x11]) = .ok (.junk 0x11) := by decide

/-- V-ENC-1 to V-ENC-3: reserved opcodes. -/
theorem test_decode_reserved_opcode : decode (.host 0x00000000#32 []) = .error .reservedOpcode
    ∧ decode (.host 0xE0000000#32 []) = .error .reservedOpcode ∧ decode (.host 0xF0000000#32 []) = .error .reservedOpcode := by
  decide
/-- V-ENC-4: reserved bits. -/
theorem test_decode_reserved_bits : decode (.host 0x21000000#32 []) = .error .reservedBits := by decide
/-- V-ENC-5, V-ENC-6, V-ENC-8 to V-ENC-10, V-ENC-12 and V-ENC-13: a field the opcode does not use. -/
theorem test_decode_unused_field : decode (.host 0x20000001#32 []) = .error .unusedField
    ∧ decode (.host 0x60000100#32 []) = .error .unusedField ∧ decode (.host 0xC0000001#32 []) = .error .unusedField
    ∧ decode (.host 0xD0000100#32 []) = .error .unusedField ∧ decode (.host 0x10000101#32 [0x11]) = .error .unusedField
    ∧ decode (.host 0x40000001#32 []) = .error .unusedField ∧ decode (.host 0xA0000101#32 []) = .error .unusedField := by
  decide
/-- V-ENC-11: a data count that is not `len`. -/
theorem test_decode_data_count : decode (.host 0x10000200#32 [0x01, 0x02, 0x03]) = .error .dataCount := by decide
/-- R309: a SOF without its six header bytes is no unit yet. -/
theorem test_decode_short_header : decode (.wire [0xA5, 0x02, 0x03, 0x04, 0x00, 0x00]) = .error .shortUnit := by decide

/-- Table rows numbered as opcode_table.json numbers them: a wire row has byte 0 most significant (R309). -/
theorem test_table_word_frame : decodeTableWord 56 0xA5020304000074 = some (.frame 0x0302 4 0 0x74) := by decide
theorem test_table_word_junk : decodeTableWord 8 0x11 = some (.junk 0x11) := by decide
theorem test_table_word_push : decodeTableWord 32 0x10000200 = some (.push 2 [0, 0]) := by decide

/-! ### Checker kernels: V-CRC-1 to V-CRC-12 -/

theorem test_crc8_values : crc8 [] = 0xFF ∧ crc8 [0x00] = 0x35 ∧ crc8 [0xFF] = 0x00 ∧ crc8 [0xA5] = 0xA5
    ∧ crc8 [0xA5, 0x01, 0x00, 0x01, 0x00, 0x00] = 0x87 := by decide +kernel
theorem test_crc8_check_value : crc8 [0x31, 0x32, 0x33, 0x34, 0x35, 0x36, 0x37, 0x38, 0x39] = 0x0B := by decide +kernel
theorem test_crc16_values : crc16 [] = 0xFFFF ∧ crc16 [0x00] = 0xE1F0 ∧ crc16 [0xFF] = 0xFF00 ∧ crc16 [0xA5] = 0x04BF
    ∧ crc16 [0xA5, 0x01, 0x00, 0x01, 0x00, 0x00, 0x87, 0x7F] = 0xE02E := by decide +kernel
theorem test_crc16_check_value : crc16 [0x31, 0x32, 0x33, 0x34, 0x35, 0x36, 0x37, 0x38, 0x39] = 0x29B1 := by decide +kernel
theorem test_crc16_continues : crc16From 0x5DBA [0x00, 0x87, 0x7F] = 0xE02E := by decide +kernel
theorem test_frame_constructor : frameBytes 0x0302 0 [0x01, 0x02, 0x03, 0x04] = f0302 := by decide +kernel

/-! ### Layout: the examples of R502 to R505 -/

theorem test_layout_reg_a : exampleConfig.slots.map Slot.offset = [0, 4, 8, 16] ∧ exampleConfig.total = 17
    ∧ exampleConfig.maxPayload = 4 ∧ exampleConfig.maxFrame = 13 := by decide +kernel
/-- R509: the reference set's duplicates fail `cmd_unique`. -/
theorem test_duplicate_cmd_refused : Config.valid ⟨64, [⟨0x0302, 4, 4⟩, ⟨0x0302, 2, 1⟩]⟩ = false := by decide +kernel
/-- 90_conflicts.md C2: S6's ring fails `ring_4x` and is admitted. -/
theorem test_ring_4x_not_required : toy.valid = true ∧ toy.ring4x = false := by decide +kernel

/-! ### One step of each instruction -/

/-- S6: a frame across the wrap. -/
theorem test_push_across_wrap :
    stepGives (offered { blockAt toy 8 [] with ring := Memory.writeRing 16 [] 0 (List.replicate 8 0x11) } 0x10000A00 fS1)
      ⟨.ok, 0⟩ 2 2 0 0 = true := by decide +kernel
/-- V-RB-2: one byte too many. -/
theorem test_push_overflow : stepGives (offered (State.resetOf toy) 0x10001000 (List.replicate 16 0x11)) ⟨.bufferOverflow, 0⟩ 0 0 0 0
    = true := by decide +kernel
/-- V-RB-2: `WR = 15` and a view of one cell. -/
theorem test_wview : stepGives (offered (blockAt toy 15 []) 0x20000000 []) ⟨.ok, 0x000F0001⟩ 15 15 0 0 = true := by decide +kernel
/-- R412's example: cell 11 is staged, `WR` stays. -/
theorem test_vwrite : next? (step (offered (blockAt toy 8 []) 0x3000037F []))
    (fun t => t.ringCell 11 == some 0x7F && t.ringCell 10 == none && t.wr == 8) = true := by decide +kernel
/-- R412's example: index 8 is outside a view of 8 cells. -/
theorem test_vwrite_outside : stepGives (offered (blockAt toy 8 []) 0x30000800 []) ⟨.faulted, 0⟩ 8 8 0x2 0x8 = true := by
  decide +kernel
/-- V-RB-5: stale cells committed across the wrap; the six junk bytes go and the old header waits at cell 8. -/
theorem test_advance_stale : stepGives
    (offered { blockAt toy 2 [] with ring := s6Ring } 0x40000F00 [])
    ⟨.ok, 0⟩ 8 1 0 0 = true := by decide +kernel
/-- V-RB-6 and V-FS-15: cells nothing has written, at `RD` and behind a SOF. -/
theorem test_advance_unwritten : stepGives (offered (State.resetOf toy) 0x40000700 []) ⟨.faulted, 0⟩ 0 7 0x4 0 = true
    ∧ stepGives (offered (stagedIn toy [0xA5]) 0x40000700 []) ⟨.faulted, 0⟩ 0 7 0x4 1 = true := by decide +kernel
/-- V-RB-7: the cells stay. -/
theorem test_clear : next? (step (offered (blockAt toy 8 fS1) 0x50000000 []))
    (fun t => t.rd == 0 && t.wr == 0 && t.ringCell 8 == some 0xA5) = true := by decide +kernel
/-- V-RB-3: a wrapped ring. -/
theorem test_avail : stepGives (offered (blockAt tight 8 (f0302.take 10)) 0x60000000 []) ⟨.ok, 0xA⟩ 8 2 0 0 = true := by
  decide +kernel
theorem test_space : stepGives (offered (blockAt tight 8 (f0302.take 10)) 0x70000000 []) ⟨.ok, 0x5⟩ 8 2 0 0 = true := by
  decide +kernel
/-- R418: a ring of 15 bytes with `N = 16` is full (no command leaves it so). -/
theorem test_full : stepGives (offered (blockAt toy 3 (List.replicate 15 0x11)) 0x80000000 []) ⟨.ok, 1⟩ 3 2 0 0 = true := by
  decide +kernel
/-- V-RB-1. -/
theorem test_empty : stepGives (offered (State.resetOf toy) 0x90000000 []) ⟨.ok, 1⟩ 0 0 0 0 = true := by decide +kernel
/-- V-REG-3, V-REG-5. -/
theorem test_lookup_hit : stepGives (offered State.reset 0xA0020100 []) ⟨.ok, 0x00010008⟩ 0 0 0 0 = true := by decide +kernel
theorem test_lookup_miss : stepGives (offered State.reset 0xA0000200 []) ⟨.ok, 0⟩ 0 0 0 0 = true := by decide +kernel
/-- V-DSP-3, read back. -/
theorem test_arena_read : stepGives (offered { State.reset with arena := [(4, 0x01), (5, 0x02)] } 0xB0000500 [])
    ⟨.ok, 0x02⟩ 0 0 0 0 = true := by decide +kernel
/-- V-REG-10. -/
theorem test_arena_read_outside : stepGives (offered State.reset 0xB0001100 []) ⟨.faulted, 0⟩ 0 0 0x10 0x11 = true := by
  decide +kernel
/-- V-RB-4: the fault registers are read in a faulted block, and AVAIL is not answered. -/
theorem test_faults : stepGives (offered faultedBlock 0xC0000000 []) ⟨.ok, 0x2⟩ 0 0 0x2 0x5 = true := by decide +kernel
theorem test_faultinfo : stepGives (offered faultedBlock 0xD0000000 []) ⟨.ok, 0x5⟩ 0 0 0x2 0x5 = true := by decide +kernel
theorem test_faulted_avail : stepGives (offered faultedBlock 0x60000000 []) ⟨.faulted, 0⟩ 0 0 0x2 0x5 = true := by decide +kernel
/-- V-DSP-3: the payload in its slot, the frame consumed. -/
theorem test_frame_dispatches : next? (exec (.frame 0x0302 4 0 0x74) (blockAt exampleConfig 0 f0302))
    (fun t => t.rd == 13 && t.arena == [(4, 0x01), (5, 0x02), (6, 0x03), (7, 0x04)]) = true := by decide +kernel
/-- V-DSP-9: ARENA_OVERRUN before any change, `RD` at the SOF. -/
theorem test_frame_overruns : next? (exec (.frame 0x0001 2 0 0x63) (blockAt exampleConfig 30 fE12))
    (fun t => t.rd == 30 && t.arena == [] && t.fault == 0x8 && t.faultInfo == 0x00010002) = true := by decide +kernel
/-- V-FS-2: seven junk bytes go. -/
theorem test_junk : next? (exec (.junk 0x11) (blockAt exampleConfig 0 junk7)) (fun t => t.rd == 7 && t.wr == 7) = true := by
  decide +kernel
/-- S6: the scan stops at the physical end of storage. -/
theorem test_junk_stops_at_wrap : next? (exec (.junk 0x11) (blockAt toy 14 junk7)) (fun t => t.rd == 0 && t.wr == 5) = true := by
  decide +kernel
/-- V-ENC-11: an illegal word. -/
theorem test_illegal_word : stepGives (offered (State.resetOf toy) 0x10000200 [0x01, 0x02, 0x03]) ⟨.faulted, 0⟩ 0 0 0x1 0x10000200
    = true := by decide +kernel
/-- P4: reset leaves the faulted state and gives no response. -/
theorem test_reset_event : next? (step { faultedBlock with port := [.reset] })
    (fun t => t.fault == 0 && t.faultInfo == 0 && t.responses == []) = true := by decide +kernel
/-- A wire row placed by `withFetchWord` is what the next step's drain decodes: the header alone is incomplete. -/
theorem test_fetch_wire_row : stepGives (State.reset.withFetchWord 56 0xA5020304000074) ⟨.ok, 0⟩ 0 7 0 0 = true := by
  decide +kernel

/-! ### Dispatch sequences -/

/-- V-FS-11: two frames of one cmd, in wire order. -/
theorem test_log_two_frames : State.reset.dispatches (.push 22
    [0xA5, 0x01, 0x02, 0x02, 0x00, 0x00, 0x64, 0x01, 0x02, 0x58, 0x8F, 0xA5, 0x01, 0x02, 0x02, 0x00, 0x00, 0x64, 0x03, 0x04, 0xFC,
     0x89]) = [⟨0x0201, [0x01, 0x02]⟩, ⟨0x0201, [0x03, 0x04]⟩] := by decide +kernel
/-- S5's second frame: an unknown cmd is dispatched too (`U 0x0002`). -/
theorem test_log_unknown_cmd : (State.resetOf toy).dispatches (.push 10 fU) = [⟨0x0002, [0x55]⟩] := by decide +kernel
/-- S4: a frame that fails its CRC16 is not dispatched. -/
theorem test_log_rejected_frame : (State.resetOf toy).dispatches (.push 10 fBad) = [] := by decide +kernel
/-- V-RB-5: the stale cells ADVANCE commits, in stream order across the wrap, are those of S6's ring from cell 2 on. -/
theorem test_stream_of_advance : State.commits { blockAt toy 2 [] with ring := s6Ring } (.advance 15)
    = ([0x11, 0x11, 0x11, 0x11, 0x11, 0x11, 0xA5, 0x01, 0x00, 0x01, 0x00, 0x00, 0x87, 0x7F, 0x2E] : List Byte).map some := by
  decide +kernel

/-! ### Assembler text: R318, R319 -/

theorem test_asm_pushframe : assemble toy "PUSHFRAME 0x0001, 0x00, [0x7F] ; S1" = some [.push 10 fS1] := by decide +kernel
theorem test_asm_zpush : assemble toy "ZPUSH [0x04, 0xF1]" = some [.wview, .vwrite 0 0x04, .vwrite 1 0xF1, .advance 2] := by
  decide +kernel
theorem test_asm_get : assemble exampleConfig "GET 0x0201" = some [.arenaRead 8, .arenaRead 9]
    ∧ assemble exampleConfig "GET 2" = none := by decide +kernel
theorem test_asm_vwrite : assemble toy "VWRITE 0x00FF, 255" = some [.vwrite 0xFF 0xFF] := by decide +kernel

/-! ### Witnesses: states and operands that meet the hypotheses of each statement -/

/-- The invariant's checks for a state that is not faulted, as one evaluation. -/
def invCheck (s : State) : Bool :=
  s.cfg.valid && decide (s.rd.toNat < s.ringSize) && decide (s.wr.toNat < s.ringSize)
    && Memory.wf ringUnlisted s.ring && Memory.below s.ringSize s.ring
    && Memory.wf arenaUnlisted s.arena && Memory.below s.cfg.total s.arena
    && decide (s.fault = 0) && decide (s.faultInfo = 0) && s.responses.isEmpty

theorem inv_of_check {s : State} (h : invCheck s = true) : s.Inv ∧ s.fault = 0 := by
  simp only [invCheck, Bool.and_eq_true, decide_eq_true_eq, List.isEmpty_iff] at h
  obtain ⟨⟨⟨⟨⟨⟨⟨⟨⟨h1, h2⟩, h3⟩, h4⟩, h5⟩, h6⟩, h7⟩, h8⟩, h9⟩, h10⟩ := h
  exact ⟨⟨h1, h2, h3, h4, h5, h6, h7, .inl h8, fun _ => h9, by simp [h10]⟩, h8⟩

theorem witness_DecodeEncodeRoundTrip : (Instr.push 0xFFFF (List.replicate 65535 0)).WellFormed ∧ (Instr.push 0 []).WellFormed
    ∧ (Instr.vwrite 0xFFFF 0xFF).WellFormed ∧ (Instr.frame 0xFFFF 0xFFFF 0xFF 0xFF).WellFormed
    ∧ (Instr.junk 0xA4).WellFormed ∧ (Instr.junk 0xA6).WellFormed := by
  refine ⟨?_, by decide, by decide, by decide, by decide, by decide⟩
  exact beq_iff_eq.mpr (by rw [List.length_replicate]; rfl)

theorem witness_LegalWordsEncodeBack : decodeHost 0x30FFFFFF#32 [] = .ok (.vwrite 0xFFFF 0xFF)
    ∧ decodeHost 0x10000100#32 [0x07] = .ok (.push 1 [0x07]) ∧ decodeHost 0x60000000#32 [0x07] = .ok .avail := by decide

theorem witness_WireUnitFields : (0x00#8 ≠ sof ∧ 0xFF#8 ≠ sof) ∧ ([] : List Byte).length < 6
    ∧ (List.replicate 5 (0#8)).length < 6 := by decide

theorem witness_StepRunsDecodedCommand : State.reset.cfg.valid = true
    ∧ decode (.host 0x60000000#32 []) = .ok .avail ∧ (offered State.reset 0x60000000 []).port = [.command 0x60000000 []]
    ∧ State.reset.port = [] ∧ ({ State.reset with port := [.reset] } : State).port = [.reset] := by decide +kernel

theorem witness_DrainPassRunsDecodedUnit :
    ((blockAt toy 8 fS1).Inv ∧ (blockAt toy 8 fS1).fault = 0) ∧ headerSize ≤ (blockAt toy 8 fS1).avail
    ∧ (blockAt toy 8 fS1).peek 0 headerSize = .ok (fS1.take 7)
    ∧ decode (.wire (fS1.take 7)) = .ok (.frame 1 1 0 0x87)
    ∧ ((blockAt toy 8 junk7).Inv ∧ (blockAt toy 8 junk7).fault = 0) ∧ (blockAt toy 8 junk7).avail = headerSize
    ∧ (blockAt toy 8 junk7).byteAt 0 = some 0x11 ∧ 0x11#8 ≠ sof :=
  ⟨inv_of_check (by decide +kernel), by decide +kernel, by decide +kernel, by decide, inv_of_check (by decide +kernel),
    by decide +kernel, by decide +kernel, by decide⟩

theorem witness_BadConfigurationRefused : (State.resetOf ⟨16, []⟩).cfg.valid = false
    ∧ (State.resetOf ⟨24, toy.registry⟩).cfg.valid = false ∧ (State.resetOf ⟨8, toy.registry⟩).cfg.valid = false := by
  decide +kernel

/-- Also for FindByteFindsFirst, RingLaws, DrainTerminates and the other statements about every state of the invariant:
an empty ring, a wrapped one and a full one. -/
theorem witness_OccupancyQueriesAnswer : ((State.resetOf toy).Inv ∧ (State.resetOf toy).fault = 0)
    ∧ ((blockAt tight 8 (f0302.take 10)).Inv ∧ (blockAt tight 8 (f0302.take 10)).fault = 0)
    ∧ ((blockAt toy 0 (List.replicate 15 0x11)).Inv ∧ (blockAt toy 0 (List.replicate 15 0x11)).fault = 0) :=
  ⟨inv_of_check (by decide +kernel), inv_of_check (by decide +kernel), inv_of_check (by decide +kernel)⟩

/-- The three cases of R406: `RD = 0`, `0 < RD <= WR` and `WR < RD`. -/
theorem witness_WviewAnswers : ((State.resetOf toy).Inv ∧ (State.resetOf toy).rd.toNat = 0)
    ∧ ((blockAt toy 15 []).Inv ∧ (blockAt toy 15 []).rd.toNat ≤ (blockAt toy 15 []).wr.toNat)
    ∧ ((blockAt tight 8 (f0302.take 10)).Inv ∧ (blockAt tight 8 (f0302.take 10)).wr.toNat < 8) :=
  ⟨⟨(inv_of_check (by decide +kernel)).1, by decide⟩, ⟨(inv_of_check (by decide +kernel)).1, by decide⟩,
    ⟨(inv_of_check (by decide +kernel)).1, by decide⟩⟩

theorem ready_reset : State.reset.Ready := ⟨by decide +kernel, by decide⟩

theorem ready_toy : (State.resetOf toy).Ready := ⟨by decide +kernel, by decide⟩

/-- The first and the last entry, and two unknown cmds. -/
theorem witness_LookupAnswers : State.reset.Ready ∧ State.reset.cfg.registry[0]? = some ⟨0x0101, 3, 1⟩
    ∧ State.reset.cfg.registry[3]? = some ⟨0x0001, 1, 8⟩ ∧ (∀ e ∈ State.reset.cfg.registry, e.cmd ≠ 0x0002)
    ∧ ∀ e ∈ State.reset.cfg.registry, e.cmd ≠ 0xFFFF :=
  ⟨ready_reset, by decide, by decide, by decide, by decide⟩

/-- The last arena byte and the first address past it. -/
theorem witness_ArenaReadAnswersOrFaults : State.reset.Ready ∧ (16#16).toNat < State.reset.cfg.total
    ∧ State.reset.cfg.total ≤ (17#16).toNat := ⟨ready_reset, by decide +kernel, by decide +kernel⟩

theorem witness_FaultRegistersAnswer : State.reset.cfg.valid = true ∧ faultedBlock.cfg.valid = true := by decide +kernel

/-- The last cell of the view after reset, and the first index past it. -/
theorem witness_VwriteStagesOneCell : ((State.resetOf toy).Inv ∧ (State.resetOf toy).fault = 0)
    ∧ (14#16).toNat < (State.resetOf toy).wviewLen := ⟨inv_of_check (by decide +kernel), by decide⟩

theorem witness_VwriteOutsideViewFaults : (State.resetOf toy).Ready ∧ (State.resetOf toy).wviewLen ≤ (15#16).toNat :=
  ⟨ready_toy, by decide⟩

theorem witness_ClearEmptiesRing : (State.resetOf toy).Ready := ready_toy

theorem witness_OverflowChangesNothing : (State.resetOf toy).Ready ∧ (List.replicate 16 (0x11#8)).length = (16#16).toNat
    ∧ (State.resetOf toy).space < (16#16).toNat := ⟨ready_toy, by decide, by decide⟩

theorem witness_PushCountMismatchFaults : (State.resetOf toy).Ready ∧ [0x01#8, 0x02#8, 0x03#8].length ≠ (2#16).toNat
    ∧ ([] : List Byte).length ≠ (1#16).toNat := ⟨ready_toy, by decide, by decide⟩

/-- `|d| = SPACE`, across the wrap. -/
theorem witness_RingWriteCommitsBytes : (blockAt toy 8 []).Inv ∧ (List.replicate 15 (0x11#8)).length = (blockAt toy 8 []).space :=
  ⟨(inv_of_check (by decide +kernel)).1, by decide⟩

/-- The largest PUSH and the largest ADVANCE; and, for each way the drain can end, a delivery that ends so. -/
theorem witness_DeliveryEndsWithItsDrain : ((blockAt toy 8 []).Inv ∧ (blockAt toy 8 []).fault = 0)
    ∧ (List.replicate 15 (0x11#8)).length = (15#16).toNat ∧ (15#16).toNat ≤ (blockAt toy 8 []).space
    ∧ ((State.resetOf toy).Inv ∧ (State.resetOf toy).fault = 0) ∧ (7#16).toNat ≤ (State.resetOf toy).space :=
  ⟨inv_of_check (by decide +kernel), by decide, by decide, inv_of_check (by decide +kernel), by decide⟩

/-- A residue of five bytes and a PUSH of all the room left. -/
theorem witness_PushCompletes : ((blockAt toy 8 (fS1.take 5)).Inv ∧ (blockAt toy 8 (fS1.take 5)).fault = 0)
    ∧ (blockAt toy 8 (fS1.take 5)).committedDefined ∧ overrunFree (blockAt toy 8 (fS1.take 5)).cfg
    ∧ fS1.length = (10#16).toNat ∧ (10#16).toNat = (blockAt toy 8 (fS1.take 5)).space :=
  ⟨inv_of_check (by decide +kernel), by unfold State.committedDefined; decide +kernel, by unfold overrunFree; decide +kernel,
    by decide, by decide⟩

/-- A frame staged from cell 0 on and committed whole. -/
theorem witness_AdvanceCompletes : ((stagedIn toy fS1).Inv ∧ (stagedIn toy fS1).fault = 0)
    ∧ ((stagedIn toy fS1).commit (10#16).toNat).committedDefined ∧ overrunFree (stagedIn toy fS1).cfg
    ∧ (10#16).toNat ≤ (stagedIn toy fS1).space :=
  ⟨inv_of_check (by decide +kernel), by unfold State.committedDefined; decide +kernel, by unfold overrunFree; decide +kernel,
    by decide⟩

/-- V-RB-6 (the cell at `RD`), V-FS-15 (the cell behind a SOF), and a delivery that raises UNDEF_BYTE. -/
theorem witness_AdvanceOverUnwrittenFaults :
    (((State.resetOf toy).Inv ∧ (State.resetOf toy).fault = 0) ∧ (7#16).toNat ≤ (State.resetOf toy).space
      ∧ ((State.resetOf toy).commit 7).examines 0 ∧ ((State.resetOf toy).commit 7).firstUndefAt 0)
    ∧ (((stagedIn toy [0xA5]).Inv ∧ (stagedIn toy [0xA5]).fault = 0) ∧ (7#16).toNat ≤ (stagedIn toy [0xA5]).space
      ∧ ((stagedIn toy [0xA5]).commit 7).examines 1 ∧ ((stagedIn toy [0xA5]).commit 7).firstUndefAt 1)
    ∧ exec (.advance 7) (State.resetOf toy) = .next ((State.resetOf toy).commit 7 |>.raise .undefByte 0)
    ∧ ((State.resetOf toy).commit 7 |>.raise .undefByte 0).fault = 0x4 :=
  ⟨⟨inv_of_check (by decide +kernel), by decide, ⟨by decide, .inl ⟨by decide, by decide⟩⟩, by decide, by decide⟩,
    ⟨inv_of_check (by decide +kernel), by decide, ⟨by decide, .inr (.inl ⟨by decide +kernel, by decide⟩)⟩, by decide +kernel,
      by decide +kernel⟩,
    of_isNext (by decide +kernel), by decide +kernel⟩

/-- The full ring with `RD = 0`, the empty one, and a write of `SPACE` bytes. -/
theorem witness_RingLaws : (blockAt toy 0 (List.replicate 15 0x11)).Inv ∧ (blockAt toy 0 (List.replicate 15 0x11)).wviewLen = 0
    ∧ (State.resetOf toy).Inv ∧ (List.replicate 15 (0x11#8)).length = (State.resetOf toy).space :=
  ⟨(inv_of_check (by decide +kernel)).1, by decide, (inv_of_check (by decide +kernel)).1, by decide⟩

/-- The largest residue of `REG_S1`, nine bytes of a frame of ten. -/
theorem witness_NeverFullAtCommandBoundary : ((blockAt toy 8 (fS1.take 9)).Inv ∧ (blockAt toy 8 (fS1.take 9)).fault = 0)
    ∧ (blockAt toy 8 (fS1.take 9)).Settled ∧ (List.replicate 6 (0x11#8)).length = (6#16).toNat
    ∧ (6#16).toNat = (blockAt toy 8 (fS1.take 9)).ringSize - (blockAt toy 8 (fS1.take 9)).cfg.maxFrame :=
  ⟨inv_of_check (by decide +kernel), fun _ => by decide +kernel, by decide, by decide⟩

/-- V-RB-3: the whole of a view of five cells. -/
theorem witness_ZeroCopyAgreesWithPush :
    ((blockAt tight 8 (f0302.take 10)).Inv ∧ (blockAt tight 8 (f0302.take 10)).fault = 0)
    ∧ (List.replicate 5 (0x11#8)).length = (blockAt tight 8 (f0302.take 10)).wviewLen :=
  ⟨inv_of_check (by decide +kernel), by decide⟩

/-- S3, cut 5. -/
theorem witness_FragmentationKeepsArena : ((State.resetOf toy).Inv ∧ (State.resetOf toy).fault = 0) ∧ (State.resetOf toy).Settled
    ∧ (fS1.take 5 ++ fS1.drop 5).length ≤ (State.resetOf toy).space
    ∧ ∃ t u v, exec (.push 10 fS1) (State.resetOf toy) = .next t ∧ exec (.push 5 (fS1.take 5)) (State.resetOf toy) = .next u
      ∧ exec (.push 5 (fS1.drop 5)) u = .next v ∧ t.fault = 0 ∧ v.fault = 0 := by
  refine ⟨inv_of_check (by decide +kernel), fun _ => by decide +kernel, by decide, ?_⟩
  exact ⟨{ State.resetOf toy with rd := 10, wr := 10, ring := Memory.writeRing 16 [] 0 fS1, arena := [(0, 0x7F)], responses := [⟨.ok, 0⟩] },
    { State.resetOf toy with wr := 5, ring := Memory.writeRing 16 [] 0 (fS1.take 5), responses := [⟨.ok, 0⟩] },
    { State.resetOf toy with rd := 10, wr := 10, ring := Memory.writeRing 16 [] 0 fS1, arena := [(0, 0x7F)],
                             responses := [⟨.ok, 0⟩, ⟨.ok, 0⟩] },
    of_isNext (by decide +kernel), of_isNext (by decide +kernel), of_isNext (by decide +kernel), rfl, rfl⟩

/-- S1's frame in one PUSH; and the same stream as two staged bytes, an ADVANCE, a query and a PUSH. -/
theorem witness_FragmentationKeepsDispatches :
    ((State.resetOf toy).Inv ∧ (State.resetOf toy).fault = 0) ∧ (State.resetOf toy).Settled
    ∧ (∀ i ∈ [Instr.push 10 fS1]
        ++ [.vwrite 0 0xA5, .vwrite 1 0x01, .advance 2, .avail, .push 8 (fS1.drop 2)], keepsStream i = true)
    ∧ (∃ t u, execAll [.push 10 fS1] (State.resetOf toy) = .next t
      ∧ execAll [.vwrite 0 0xA5, .vwrite 1 0x01, .advance 2, .avail, .push 8 (fS1.drop 2)] (State.resetOf toy) = .next u
      ∧ t.fault = 0 ∧ u.fault = 0)
    ∧ streamOf [.push 10 fS1] (State.resetOf toy)
      = streamOf [.vwrite 0 0xA5, .vwrite 1 0x01, .advance 2, .avail, .push 8 (fS1.drop 2)] (State.resetOf toy) :=
  ⟨inv_of_check (by decide +kernel), fun _ => by decide +kernel, by decide,
    ⟨{ State.resetOf toy with rd := 10, wr := 10, ring := Memory.writeRing 16 [] 0 fS1, arena := [(0, 0x7F)],
                              responses := [⟨.ok, 0⟩] },
      { State.resetOf toy with rd := 10, wr := 10, ring := Memory.writeRing 16 [] 0 fS1, arena := [(0, 0x7F)],
                               responses := [⟨.ok, 0⟩, ⟨.ok, 0⟩, ⟨.ok, 0⟩, ⟨.ok, 2⟩, ⟨.ok, 0⟩] },
      of_isNext (by decide +kernel), of_isNext (by decide +kernel), rfl, rfl⟩,
    by decide +kernel⟩

/-- S2 on a ring of 32 bytes. -/
theorem witness_PushedFrameReachesSlot : (State.reset.Inv ∧ State.reset.fault = 0) ∧ State.reset.avail = 0
    ∧ State.reset.cfg.slotOf 0x0302 = some ⟨⟨0x0302, 4, 4⟩, 4⟩ ∧ [0x01#8, 0x02#8, 0x03#8, 0x04#8].length = 4
    ∧ (∀ b ∈ [0xDE#8, 0xAD#8, 0xBE#8, 0xEF#8], b ≠ sof)
    ∧ ([0xDE, 0xAD, 0xBE, 0xEF] ++ frameBytes 0x0302 0 [0x01, 0x02, 0x03, 0x04]).length ≤ State.reset.space :=
  ⟨inv_of_check (by decide +kernel), by decide, by decide +kernel, by decide, by decide, by decide +kernel⟩

/-- Four junk bytes before a SOF; and a view without one, cut short by the wrap. -/
theorem witness_JunkDropsBytesBeforeSof :
    (((blockAt toy 1 ([0xDE, 0xAD, 0xBE, 0xEF] ++ fS1)).Inv ∧ (blockAt toy 1 ([0xDE, 0xAD, 0xBE, 0xEF] ++ fS1)).fault = 0)
      ∧ headerSize ≤ (blockAt toy 1 ([0xDE, 0xAD, 0xBE, 0xEF] ++ fS1)).avail
      ∧ (blockAt toy 1 ([0xDE, 0xAD, 0xBE, 0xEF] ++ fS1)).byteAt 4 = some sof)
    ∧ ((blockAt toy 14 junk7).Inv ∧ (blockAt toy 14 junk7).fault = 0) ∧ headerSize ≤ (blockAt toy 14 junk7).avail
    ∧ (blockAt toy 14 junk7).rview = 2
    ∧ (blockAt toy 14 junk7).byteAt 0 = some 0x11 ∧ (blockAt toy 14 junk7).byteAt 1 = some 0x11 ∧ 0x11#8 ≠ sof :=
  ⟨⟨inv_of_check (by decide +kernel), by decide +kernel, by decide +kernel⟩, inv_of_check (by decide +kernel),
    by decide +kernel, by decide +kernel, by decide +kernel, by decide +kernel, by decide⟩

/-- A committed byte of junk, then cells nothing has written. -/
theorem witness_JunkMeetsUnwrittenCell :
    (((blockAt toy 0 [0x11]).commit 6).Inv ∧ ((blockAt toy 0 [0x11]).commit 6).fault = 0)
    ∧ headerSize = ((blockAt toy 0 [0x11]).commit 6).avail ∧ 1 < ((blockAt toy 0 [0x11]).commit 6).rview
    ∧ ((blockAt toy 0 [0x11]).commit 6).byteAt 0 = some 0x11 ∧ ((blockAt toy 0 [0x11]).commit 6).byteAt 1 = none :=
  ⟨inv_of_check (by decide +kernel), by decide, by decide, by decide +kernel, by decide +kernel⟩

/-- The last byte of a frame's tail, the last byte of a header (V-FS-15's case), and a scan: each the first `UNDEF` cell; and
a pass that raises UNDEF_BYTE. -/
theorem witness_EngineMeetsUnwrittenCell :
    ((((blockAt toy 8 (fS1.take 9)).commit 1).Inv ∧ ((blockAt toy 8 (fS1.take 9)).commit 1).fault = 0)
      ∧ crc8 (headerBody 1 1 0) = 0x87 ∧ (1#16).toNat ≤ toy.maxPayload
      ∧ 9 + (1#16).toNat = ((blockAt toy 8 (fS1.take 9)).commit 1).avail ∧ 9 < 9 + (1#16).toNat
      ∧ ((blockAt toy 8 (fS1.take 9)).commit 1).firstUndefAt 9 ∧ ((blockAt toy 8 (fS1.take 9)).commit 1).examines 9)
    ∧ ((((blockAt toy 8 (fS1.take 6)).commit 1).Inv ∧ ((blockAt toy 8 (fS1.take 6)).commit 1).fault = 0)
      ∧ ((blockAt toy 8 (fS1.take 6)).commit 1).examines 6 ∧ ((blockAt toy 8 (fS1.take 6)).commit 1).firstUndefAt 6)
    ∧ ((((blockAt toy 0 [0x11]).commit 6).Inv ∧ ((blockAt toy 0 [0x11]).commit 6).fault = 0)
      ∧ ((blockAt toy 0 [0x11]).commit 6).examines 1 ∧ ((blockAt toy 0 [0x11]).commit 6).firstUndefAt 1)
    ∧ drainPass ((blockAt toy 0 [0x11]).commit 6) = .raised ((blockAt toy 0 [0x11]).commit 6 |>.raise .undefByte 1)
    ∧ ((blockAt toy 0 [0x11]).commit 6 |>.raise .undefByte 1).fault = 0x4 :=
  ⟨⟨inv_of_check (by decide +kernel), by decide +kernel, by decide, by decide, by decide,
      ⟨by decide +kernel, by decide +kernel⟩,
      by decide, .inr (.inr ⟨fS1.take 7, 1, 1, 0, 0x87, by decide +kernel, by decide, by decide +kernel, by decide, by decide,
        by decide⟩)⟩,
    ⟨inv_of_check (by decide +kernel), ⟨by decide, .inr (.inl ⟨by decide +kernel, by decide⟩)⟩, by decide +kernel,
      by decide +kernel⟩,
    ⟨inv_of_check (by decide +kernel), ⟨by decide, .inl ⟨by decide, by decide +kernel⟩⟩, by decide +kernel, by decide +kernel⟩,
    by decide +kernel, by decide +kernel⟩

/-- A bad CRC8 (V-FS-3), an implausible length (V-FS-5), and a frame that lacks one byte (V-FS-6). -/
theorem witness_FrameHeaderChecks : ((blockAt toy 8 (fS1.take 9)).Inv ∧ (blockAt toy 8 (fS1.take 9)).fault = 0)
    ∧ headerSize ≤ (blockAt toy 8 (fS1.take 9)).avail ∧ crc8 (headerBody 0 0 0) ≠ 0x00
    ∧ (blockAt toy 8 (fS1.take 9)).cfg.maxPayload < (2#16).toNat
    ∧ crc8 (headerBody 1 1 0) = 0x87 ∧ (1#16).toNat ≤ (blockAt toy 8 (fS1.take 9)).cfg.maxPayload
    ∧ (blockAt toy 8 (fS1.take 9)).avail < 9 + (1#16).toNat :=
  ⟨inv_of_check (by decide +kernel), by decide +kernel, by decide +kernel, by decide, by decide +kernel, by decide, by decide⟩

/-- S4. -/
theorem witness_FrameTailMismatchDropsOneByte : ((blockAt toy 8 fBad).Inv ∧ (blockAt toy 8 fBad).fault = 0)
    ∧ crc8 (headerBody 1 1 0) = 0x87 ∧ (1#16).toNat ≤ (blockAt toy 8 fBad).cfg.maxPayload
    ∧ 9 + (1#16).toNat = (blockAt toy 8 fBad).avail
    ∧ (blockAt toy 8 fBad).peek 0 (9 + (1#16).toNat) = .ok (fBad.take 8 ++ [0xD1, 0xE0])
    ∧ (crc16 (fBad.take 8)).toNat ≠ (0xD1#8).toNat + 256 * (0xE0#8).toNat :=
  ⟨inv_of_check (by decide +kernel), by decide +kernel, by decide, by decide, by decide +kernel, by decide +kernel⟩

/-- A known cmd whose payload ends at `TOTAL`, and an unknown one (S5). -/
theorem witness_ValidFrameDispatches : (((blockAt toy 8 fS1).Inv ∧ (blockAt toy 8 fS1).fault = 0)
      ∧ [0x7F#8].length ≤ toy.maxPayload ∧ 9 + [0x7F#8].length ≤ (blockAt toy 8 fS1).avail
      ∧ (blockAt toy 8 fS1).peek 0 10 = .ok (frameBytes 1 0 [0x7F])
      ∧ toy.slotOf 1 = some ⟨⟨1, 1, 1⟩, 0⟩ ∧ 0 + [0x7F#8].length = toy.total)
    ∧ ((blockAt toy 8 fU).Inv ∧ (blockAt toy 8 fU).fault = 0)
    ∧ (blockAt toy 8 fU).peek 0 10 = .ok (frameBytes 2 0 [0x55]) ∧ toy.slotOf 2 = none :=
  ⟨⟨inv_of_check (by decide +kernel), by decide, by decide, by decide +kernel, by decide, by decide⟩,
    inv_of_check (by decide +kernel), by decide +kernel, by decide⟩

/-- V-DSP-9: one byte past `TOTAL`. -/
theorem witness_OverrunningFrameFaults : ((blockAt exampleConfig 30 fE12).Inv ∧ (blockAt exampleConfig 30 fE12).fault = 0)
    ∧ [0xE1#8, 0xE2#8].length ≤ exampleConfig.maxPayload ∧ 9 + [0xE1#8, 0xE2#8].length = (blockAt exampleConfig 30 fE12).avail
    ∧ (blockAt exampleConfig 30 fE12).peek 0 11 = .ok (frameBytes 1 0 [0xE1, 0xE2])
    ∧ exampleConfig.slotOf 1 = some ⟨⟨1, 1, 8⟩, 16⟩ ∧ exampleConfig.total + 1 = 16 + [0xE1#8, 0xE2#8].length :=
  ⟨inv_of_check (by decide +kernel), by decide +kernel, by decide +kernel, by decide +kernel, by decide +kernel, by decide +kernel⟩

/-- A dispatch that changes an arena byte, and one of an unknown cmd that changes none. -/
theorem witness_DispatchedImpliesValid : ((blockAt toy 8 fS1).Inv
      ∧ drainPass (blockAt toy 8 fS1) = .again { blockAt toy 8 fS1 with rd := 2, arena := [(0, 0x7F)] }
      ∧ [(0, 0x7F#8)] ≠ (blockAt toy 8 fS1).arena)
    ∧ ((blockAt toy 8 fU).Inv ∧ parseFrame (blockAt toy 8 fU) = .success { blockAt toy 8 fU with rd := 2 }
      ∧ drainPass (blockAt toy 8 fU) = .again { blockAt toy 8 fU with rd := 2 }
      ∧ (blockAt toy 8 fU).passDispatches ≠ []) :=
  ⟨⟨(inv_of_check (by decide +kernel)).1, by decide +kernel, by decide⟩,
    (inv_of_check (by decide +kernel)).1, by decide +kernel, by decide +kernel, by decide +kernel⟩

theorem witness_ConstructedFramesAreValid : (4 : Nat) < 65536 ∧ [0x01#8, 0x02#8, 0x03#8, 0x04#8].length ≤ 4
    ∧ (65535 : Nat) < 65536 ∧ ([] : List Byte).length ≤ 0 := by decide

/-- The three ends of a pass, for DrainTerminates, DrainFollowsItsPasses, DrainMakesProgress, SecondDrainChangesNothing and
DrainFrame: it goes on, it returns, it raises a fault. -/
theorem witness_DrainFollowsItsPasses :
    ((blockAt toy 8 fS1).Inv ∧ drainPass (blockAt toy 8 fS1) = .again { blockAt toy 8 fS1 with rd := 2, arena := [(0, 0x7F)] })
    ∧ ((blockAt toy 8 (fS1.take 9)).Inv ∧ drainPass (blockAt toy 8 (fS1.take 9)) = .leave (blockAt toy 8 (fS1.take 9)))
    ∧ (((State.resetOf toy).commit 7).Inv
      ∧ drainPass ((State.resetOf toy).commit 7) = .raised ((State.resetOf toy).commit 7 |>.raise .undefByte 0)) :=
  ⟨⟨(inv_of_check (by decide +kernel)).1, by decide +kernel⟩, ⟨(inv_of_check (by decide +kernel)).1, by decide +kernel⟩,
    ⟨(inv_of_check (by decide +kernel)).1, by decide +kernel⟩⟩

theorem witness_DrainMakesProgress : (blockAt toy 8 (fS1.take 9)).Inv
    ∧ drainAll (blockAt toy 8 (fS1.take 9)) = .done (blockAt toy 8 (fS1.take 9))
    ∧ (State.resetOf toy).Inv ∧ drainAll (State.resetOf toy) = .done (State.resetOf toy) :=
  ⟨(inv_of_check (by decide +kernel)).1, by decide +kernel, (inv_of_check (by decide +kernel)).1, by decide +kernel⟩

theorem witness_KernelsSeeSingleByteChanges : 0x7F#8 ≠ 0x7E#8 ∧ 0x00#8 ≠ 0xFF#8 := by decide

theorem witness_LayoutLaws : exampleConfig.valid = true ∧ exampleConfig.slots[0]? = some ⟨⟨0x0101, 3, 1⟩, 0⟩
    ∧ exampleConfig.slots[1]? = some ⟨⟨0x0302, 4, 4⟩, 4⟩ ∧ exampleConfig.slots.getLast? = some ⟨⟨0x0001, 1, 8⟩, 16⟩ := by
  decide +kernel

theorem witness_IllegalWordFaults : (offered State.reset 0xE0000000 []).Ready
    ∧ (offered State.reset 0xE0000000 []).port = [.command 0xE0000000 []] ∧ illegalWord 0xE0000000 [] ∧ illegalWord 0x21000000 []
    ∧ illegalWord 0x60000100 [] ∧ illegalWord 0xC0000001 [] ∧ illegalWord 0x10000200 [0x01, 0x02, 0x03] :=
  ⟨⟨by decide +kernel, by decide⟩, rfl, .inl (by decide), .inr (.inl (by decide)), .inr (.inr (.inl (by decide))),
    .inr (.inr (.inr (.inl (by decide)))), .inr (.inr (.inr (.inr (by decide))))⟩

theorem witness_FaultedBlockIsQuiescent : faultedBlock.cfg.valid = true ∧ faultedBlock.fault ≠ 0
    ∧ (offered faultedBlock 0xC0000000 []).port = [.command 0xC0000000 []]
    ∧ (offered faultedBlock 0xC0000001 []).port = [.command 0xC0000001 []]
    ∧ 0xC0000001#32 ≠ 0xC0000000 ∧ 0xC0000001#32 ≠ 0xD0000000 := by decide +kernel

theorem witness_FaultedEngineIsIdle : faultedBlock.cfg.valid = true ∧ faultedBlock.fault ≠ 0 := by decide +kernel

theorem witness_ResetEventRestores : ({ faultedBlock with port := [.reset] } : State).cfg.valid = true
    ∧ ({ faultedBlock with port := [.reset] } : State).port = [.reset] := by decide +kernel

/-- Both ends: a command, and a reset. -/
theorem witness_OnlyResetClearsFault : faultedBlock.fault ≠ 0
    ∧ step (offered faultedBlock 0x60000000 []) = .next { faultedBlock with responses := [⟨.faulted, 0⟩] }
    ∧ step { faultedBlock with port := [.reset] } = .next (State.resetOf toy) := 
  ⟨by decide, of_isNext (by decide +kernel), of_isNext (by decide +kernel)⟩

theorem witness_ResetSatisfiesInvariant : exampleConfig.valid = true ∧ toy.valid = true ∧ tight.valid = true := by decide +kernel

/-- A step that commits and dispatches a frame, for StepKeepsInvariant, StepKeepsSettled and ArenaWrittenOnlyByDrain. -/
theorem witness_StepKeepsInvariant : (offered (blockAt toy 8 []) 0x10000A00 fS1).Inv
    ∧ (offered (blockAt toy 8 []) 0x10000A00 fS1).Settled
    ∧ ∃ t, step (offered (blockAt toy 8 []) 0x10000A00 fS1) = .next t ∧ t.arena ≠ (blockAt toy 8 []).arena :=
  ⟨(inv_of_check (by decide +kernel)).1, fun _ => by decide +kernel,
    ⟨{ blockAt toy 8 fS1 with rd := 2, arena := [(0, 0x7F)], responses := [⟨.ok, 0⟩] },
      of_isNext (by decide +kernel), by decide +kernel⟩⟩

theorem witness_EveryStepAnswers : (offered State.reset 0xE0000000 []).Inv
    ∧ (offered State.reset 0xE0000000 []).port = [.command 0xE0000000 []] :=
  ⟨(inv_of_check (by decide +kernel)).1, rfl⟩

theorem witness_ConfigurationIsConstant : Reaches (offered State.reset 0x60000000 [])
    { State.reset with responses := [⟨.ok, 0⟩] } := .step _ _ _ (of_isNext (by decide +kernel)) (.here _)

end Sys2Proof.Tests
end

section
/-! PROOF. The block's state under a step (10_state.md): one lemma says all a step can do, one says all a drain can do,
and the statements on the invariant, the configuration, the fault registers and the arena follow from the two. -/

namespace Sys2Proof.Machine

/-! ### The words that decode to a command -/

theorem decodePlain_ok {w : Word} {i j : Instr} (h : decodePlain w i = .ok j) : j = i := by
  unfold decodePlain at h
  split at h <;> cases h
  rfl

theorem decodeArg_ok {w : Word} {f : Half → Instr} {j : Instr} (h : decodeArg w f = .ok j) : j = f (argField w) := by
  unfold decodeArg at h
  split at h <;> cases h
  rfl

theorem decodePush_ok {w : Word} {data : List Byte} {j : Instr} (h : decodePush w data = .ok j) :
    j = .push (argField w) data := by
  unfold decodePush at h
  split at h
  · cases h
  · split at h <;> cases h
    rfl

/-- A word that decodes is read as an instruction the encoder writes with the same opcode (R313). So it is a host command
and no wire unit. -/
theorem decodeHost_opcode {w : Word} {data : List Byte} {i : Instr} (h : decodeHost w data = .ok i) :
    ∃ w' data', encode i = .host w' data' ∧ opField w' = opField w := by
  have opcode : ∀ {n : Nat} (o : BitVec 4) (a : Half) (d : Byte), (opField w).toNat = n → o.toNat = n →
      opField (hostWord o a d) = opField w := fun o a d hn ho => by
    rw [opField_hostWord]
    exact BitVec.eq_of_toNat_eq (ho.trans hn.symm)
  unfold decodeHost at h
  split at h
  · cases h
  · split at h
    case h_1 hop => cases decodePush_ok h; exact ⟨_, _, rfl, opcode _ _ _ hop rfl⟩
    case h_3 hop => cases h; exact ⟨_, _, rfl, opcode _ _ _ hop rfl⟩
    case h_4 hop | h_10 hop | h_11 hop => cases decodeArg_ok h; exact ⟨_, _, rfl, opcode _ _ _ hop rfl⟩
    case h_2 hop | h_5 hop | h_6 hop | h_7 hop | h_8 hop | h_9 hop | h_12 hop | h_13 hop =>
      cases decodePlain_ok h; exact ⟨_, _, rfl, opcode _ _ _ hop rfl⟩
    case h_14 => cases h

/-! ### What a delivery commits -/

theorem delivery_push {s : State} (hf : s.fault = 0) {len : Half} {data : List Byte} (hl : data.length = len.toNat)
    (hs : data.length ≤ s.space) : s.delivery (.push len data) = some (s.ringWrite data) := by
  have hn : ¬ s.isFaulted = true := by simp [isFaulted_eq, hf]
  unfold State.delivery
  rw [if_neg hn]
  exact if_pos ⟨hl, hs⟩

theorem delivery_advance {s : State} (hf : s.fault = 0) {n : Half} (hs : n.toNat ≤ s.space) :
    s.delivery (.advance n) = some (s.commit n.toNat) := by
  have hn : ¬ s.isFaulted = true := by simp [isFaulted_eq, hf]
  unfold State.delivery
  rw [if_neg hn]
  exact if_pos hs

/-- Only a PUSH and an ADVANCE deliver, and each commits its own bytes (R410, R413). -/
theorem delivery_cases {s c : State} {i : Instr} (h : s.delivery i = some c) :
    (∃ len data, i = .push len data ∧ c = s.ringWrite data) ∨ (∃ n, i = .advance n ∧ c = s.commit n.toNat) := by
  unfold State.delivery at h
  split at h
  · cases h
  · cases i <;> try cases h
    case push len data =>
      obtain ⟨-, hc⟩ := Option.ite_none_right_eq_some.mp h
      cases hc
      exact .inl ⟨len, data, rfl, rfl⟩
    case advance n =>
      obtain ⟨-, hc⟩ := Option.ite_none_right_eq_some.mp h
      cases hc
      exact .inr ⟨n, rfl, rfl⟩

/-! ### What a command can do -/

/-- All that a command can do to the block, for a word the decoder reads as `d`: answer, raise a fault, stage a byte,
clear the ring, or deliver and drain. All but an answer need a block that is not faulted (R809). -/
inductive CommandEffect (d : Except DecodeError Instr) (s : State) : State → Prop where
  | answers (st : Status) (v : Word) : st.produced = true → CommandEffect d s (s.respond st v)
  | raises (k : FaultKind) (info : Word) : s.fault = 0 → CommandEffect d s (s.raise k info)
  | stages (j : Nat) (b : Byte) : s.fault = 0 → j < s.wviewLen → CommandEffect d s ((s.stage j b).respond .ok 0)
  | clears : s.fault = 0 → CommandEffect d s (s.clearRing.respond .ok 0)
  | drains (i : Instr) (c t : State) : s.fault = 0 → d = .ok i → s.delivery i = some c →
      afterDrain (drainAll c) = .next t → CommandEffect d s t

section
variable {d : Except DecodeError Instr} {s t : State}

/-- The wrapper of R317's checks adds the faulted block's answer to what the body does. -/
theorem CommandEffect.of_command {f : State → Result} (h : command s f = .next t)
    (hf : s.fault = 0 → f s = .next t → CommandEffect d s t) : CommandEffect d s t := by
  obtain ⟨-, ⟨-, rfl⟩ | ⟨h0, h⟩⟩ := command_next h
  · exact .answers _ _ rfl
  · exact hf h0 h

theorem CommandEffect.of_query {v : State → Word} (h : query s v = .next t) : CommandEffect d s t :=
  .of_command h fun _ h => by cases h; exact .answers _ _ rfl

theorem CommandEffect.of_rejectWord {w : Word} (h : rejectWord w s = .next t) : CommandEffect d s t :=
  .of_command h fun hf h => by cases h; exact .raises _ _ hf

theorem CommandEffect.of_execPush {len : Half} {data : List Byte} (h : execPush len data s = .next t) :
    CommandEffect (.ok (.push len data)) s t := by
  refine .of_command h fun hf h => ?_
  split at h
  · cases h; exact .raises _ _ hf
  · rename_i hl
    split at h
    · cases h; exact .answers _ _ rfl
    · exact .drains _ _ _ hf rfl (delivery_push hf (not_not.mp hl) (by omega)) h

theorem CommandEffect.of_execAdvance {n : Half} (h : execAdvance n s = .next t) :
    CommandEffect (.ok (.advance n)) s t := by
  refine .of_command h fun hf h => ?_
  split at h
  · cases h; exact .answers _ _ rfl
  · exact .drains _ _ _ hf rfl (delivery_advance hf (by omega)) h

theorem CommandEffect.of_execVwrite {j : Half} {b : Byte} (h : execVwrite j b s = .next t) : CommandEffect d s t := by
  refine .of_command h fun hf h => ?_
  split at h
  · cases h; exact .raises _ _ hf
  · cases h; exact .stages _ _ hf (by omega)

theorem CommandEffect.of_execArenaRead {addr : Half} (h : execArenaRead addr s = .next t) : CommandEffect d s t := by
  refine .of_command h fun hf h => ?_
  split at h
  · cases h; exact .raises _ _ hf
  · cases h; exact .answers _ _ rfl

/-- A host command, an instruction the encoder writes as a command word, has one of the effects. -/
theorem CommandEffect.of_exec {i : Instr} {w : Word} {data : List Byte} (hi : encode i = .host w data)
    (h : exec i s = .next t) : CommandEffect (.ok i) s t := by
  cases i with
  | push len data => exact .of_execPush h
  | advance n => exact .of_execAdvance h
  | vwrite j b => exact .of_execVwrite h
  | arenaRead addr => exact .of_execArenaRead h
  | clear =>
    refine .of_command (show execClear s = .next t from h) fun hf h => ?_
    cases h; exact .clears hf
  | wview => exact .of_query (show execWview s = .next t from h)
  | avail => exact .of_query (show execAvail s = .next t from h)
  | space => exact .of_query (show execSpace s = .next t from h)
  | full => exact .of_query (show execFull s = .next t from h)
  | empty => exact .of_query (show execEmpty s = .next t from h)
  | lookup cmd => exact .of_query (show execLookup cmd s = .next t from h)
  | faults =>
    obtain ⟨-, h⟩ := onBlock_next (show execFaults s = .next t from h)
    cases h; exact .answers _ _ rfl
  | faultinfo =>
    obtain ⟨-, h⟩ := onBlock_next (show execFaultinfo s = .next t from h)
    cases h; exact .answers _ _ rfl
  | frame cmd len seq crc => cases hi
  | junk b => cases hi

/-- All that a step can do: hold the state, reset the block, or run one command on the port's rest. -/
theorem step_effect (h : step s = .next t) :
    (s.port = [] ∧ t = s)
    ∨ (∃ rest, s.port = .reset :: rest ∧ t = State.resetBlock { s with port := rest })
    ∨ ∃ w data rest, s.port = .command w data :: rest
        ∧ CommandEffect (decode (.host w data)) { s with port := rest } t := by
  obtain ⟨-, hidle | hreset | ⟨w, data, rest, i, hp, hd, hx⟩ | ⟨w, data, rest, e, hp, hd, hx⟩⟩ := step_next h
  · exact .inl hidle
  · exact .inr (.inl hreset)
  · obtain ⟨w', data', hi, -⟩ := decodeHost_opcode hd
    exact .inr (.inr ⟨w, data, rest, hp, hd ▸ .of_exec hi hx⟩)
  · exact .inr (.inr ⟨w, data, rest, hp, .of_rejectWord hx⟩)

end

/-! ### What a drain can change -/

/-- `t` is `s` with other contents of `RD` and the arena. -/
def State.DrainedTo (s t : State) : Prop := ∃ (r : Half) (m : Memory), t = { s with rd := r, arena := m }

theorem State.DrainedTo.refl (s : State) : s.DrainedTo s := ⟨s.rd, s.arena, rfl⟩

theorem State.DrainedTo.trans {s t u : State} (h : s.DrainedTo t) (h' : t.DrainedTo u) : s.DrainedTo u := by
  obtain ⟨_, _, rfl⟩ := h
  obtain ⟨r, m, rfl⟩ := h'
  exact ⟨r, m, rfl⟩

theorem discard_drainedTo (s : State) (n : Nat) : s.DrainedTo (s.discard n) := ⟨_, _, rfl⟩

theorem dispatch_drainedTo {s t : State} {cmd len : Half} {p : List Byte} (h : dispatch cmd len p s = .success t) :
    s.DrainedTo t := by
  rcases dispatch_cases cmd len p s with ⟨_, -, -, he⟩ | ⟨_, -, -, he⟩ | ⟨-, he⟩ <;> rw [he] at h <;> cases h
  · exact ⟨_, _, rfl⟩
  · exact ⟨_, _, rfl⟩

theorem parseFrame_drainedTo {s t : State} (h0 : s.byteAt 0 = some sof) (h : parseFrame s = .success t) :
    s.DrainedTo t := by
  rcases parseFrame_cases h0 with ⟨_, -, -, he⟩ | ⟨_, _, _, _, _, _, -, he⟩ <;> rw [he] at h
  · cases h
  · obtain ⟨-, -, -, _, _, -, -, -, hd⟩ := checkFrame_success h
    exact dispatch_drainedTo hd

/-- A pass that goes on changes `RD` and the arena only. -/
theorem drainPass_drainedTo {s t : State} (h : drainPass s = .again t) : s.DrainedTo t := by
  rcases drainPass_cases s with ⟨-, he⟩ | ⟨-, hs, he⟩ | ⟨-, -, he⟩ <;> rw [he] at h
  · cases h
  · cases hp : parseFrame s <;> rw [hp] at h <;> cases h
    case success.refl => exact parseFrame_drainedTo (scan_found_zero hs).2 hp
    case failure.refl => exact discard_drainedTo s 1
  · cases hr : s.scan s.rview <;> rw [hr] at h <;> cases h
    case notFound.refl => exact discard_drainedTo s _
    case found.refl => exact discard_drainedTo s _

theorem drainAll_done_drainedTo {s t : State} (h : drainAll s = .done t) : s.DrainedTo t :=
  drain_done_of (P := s.DrainedTo) (fun _ _ hu hp => hu.trans (drainPass_drainedTo hp))
    (fun _ _ hu hp => (drainPass_leave hp).1 ▸ hu) (.refl s) h

/-- A pass that ends in a fault raises it on the state it met (R803). -/
theorem drainPass_raised_eq {s t : State} (h : drainPass s = .raised t) : ∃ k info, t = s.raise k info := by
  rcases drainPass_raised h with ⟨_, -, rfl⟩ | ⟨_, _, rfl⟩
  · exact ⟨_, _, rfl⟩
  · exact ⟨_, _, rfl⟩

/-- A drain that ends in a fault raises it on a state the passes before have reached. -/
theorem drainAll_raised_eq {s t : State} (h : drainAll s = .raised t) :
    ∃ u k info, s.DrainedTo u ∧ t = u.raise k info :=
  drain_raised_of (P := s.DrainedTo) (Q := fun t => ∃ u k info, s.DrainedTo u ∧ t = u.raise k info)
    (fun _ _ hu hp => hu.trans (drainPass_drainedTo hp))
    (fun u _ hu hp => by
      obtain ⟨k, info, rfl⟩ := drainPass_raised_eq hp
      exact ⟨u, k, info, hu, rfl⟩)
    (.refl s) h

/-- Settles O44, from the relation every pass keeps. -/
theorem drainFrame : Obligations.DrainFrame := by
  intro s t
  constructor
  · intro h
    obtain ⟨r, m, rfl⟩ := drainAll_done_drainedTo h
    rfl
  · intro h
    obtain ⟨_, k, info, ⟨r, m, rfl⟩, rfl⟩ := drainAll_raised_eq h
    rfl

/-! ### The configuration -/

theorem delivery_cfg {s c : State} {i : Instr} (h : s.delivery i = some c) : c.cfg = s.cfg := by
  rcases delivery_cases h with ⟨_, _, -, rfl⟩ | ⟨_, -, rfl⟩
  · exact ringWrite_cfg s _
  · exact commit_cfg s _

theorem afterDrain_cfg {c t : State} (h : afterDrain (drainAll c) = .next t) : t.cfg = c.cfg := by
  rcases afterDrain_next h with ⟨u, hd, rfl⟩ | hd
  · obtain ⟨_, _, rfl⟩ := drainAll_done_drainedTo hd
    rfl
  · obtain ⟨_, _, _, ⟨_, _, rfl⟩, rfl⟩ := drainAll_raised_eq hd
    rfl

theorem CommandEffect.cfg {d : Except DecodeError Instr} {s t : State} (h : CommandEffect d s t) : t.cfg = s.cfg := by
  cases h with
  | answers | raises | stages | clears => rfl
  | drains _ c _ _ _ hd ha => exact (afterDrain_cfg ha).trans (delivery_cfg hd)

theorem step_cfg {s t : State} (h : step s = .next t) : t.cfg = s.cfg := by
  rcases step_effect h with ⟨-, rfl⟩ | ⟨_, -, rfl⟩ | ⟨_, _, _, -, he⟩
  · rfl
  · rfl
  · exact he.cfg

/-- Settles O59, by induction on the run. -/
theorem configurationIsConstant : Obligations.ConfigurationIsConstant := by
  intro s t h
  induction h with
  | here s => rfl
  | step s t u hs _ ih => exact ih.trans (step_cfg hs)

/-! ### The fault registers -/

/-- A command of a faulted block is an answer and no more (R809). -/
theorem CommandEffect.of_faulted {d : Except DecodeError Instr} {s t : State} (h : CommandEffect d s t)
    (hf : s.fault ≠ 0) : ∃ st v, t = s.respond st v := by
  cases h with
  | answers st v _ => exact ⟨st, v, rfl⟩
  | raises _ _ h0 | stages _ _ h0 _ | clears h0 | drains _ _ _ h0 _ _ _ => exact absurd h0 hf

/-- Settles O54: a faulted block's commands only answer. -/
theorem onlyResetClearsFault : Obligations.OnlyResetClearsFault := by
  intro s t h hf
  rcases step_effect h with ⟨-, rfl⟩ | ⟨rest, hp, rfl⟩ | ⟨_, _, rest, -, he⟩
  · exact .inl ⟨rfl, rfl⟩
  · exact .inr ⟨hp, rfl, rfl⟩
  · obtain ⟨st, v, rfl⟩ := he.of_faulted hf
    exact .inl ⟨rfl, rfl⟩

/-! ### The arena -/

/-- A command that changes the arena is a PUSH or an ADVANCE that drained. -/
theorem CommandEffect.of_arena_ne {d : Except DecodeError Instr} {s t : State} (h : CommandEffect d s t)
    (hne : t.arena ≠ s.arena) : (∃ len data, d = .ok (.push len data)) ∨ ∃ n, d = .ok (.advance n) := by
  cases h with
  | answers | raises | stages | clears => exact absurd rfl hne
  | drains i c _ _ hi hd _ =>
    rcases delivery_cases hd with ⟨len, data, rfl, -⟩ | ⟨n, rfl, -⟩
    · exact .inl ⟨len, data, hi⟩
    · exact .inr ⟨n, hi⟩

theorem opField_of_push {w : Word} {data data' : List Byte} {len : Half}
    (h : decodeHost w data = .ok (.push len data')) : opField w = 0x1 := by
  obtain ⟨_, _, he, ho⟩ := decodeHost_opcode h
  cases he
  rw [← ho, opField_hostWord]

theorem opField_of_advance {w : Word} {data : List Byte} {n : Half} (h : decodeHost w data = .ok (.advance n)) :
    opField w = 0x4 := by
  obtain ⟨_, _, he, ho⟩ := decodeHost_opcode h
  cases he
  rw [← ho, opField_hostWord]

/-- Settles O60: of the effects of a command only a drain writes the arena. -/
theorem arenaWrittenOnlyByDrain : Obligations.ArenaWrittenOnlyByDrain := by
  intro s t h hne
  rcases step_effect h with ⟨-, rfl⟩ | ⟨rest, hp, -⟩ | ⟨w, data, rest, hp, he⟩
  · exact absurd rfl hne
  · exact .inl ⟨rest, hp⟩
  · refine .inr ⟨w, data, rest, hp, ?_⟩
    rcases he.of_arena_ne hne with ⟨_, _, hd⟩ | ⟨_, hd⟩
    · exact .inl (opField_of_push hd)
    · exact .inr (opField_of_advance hd)

/-! ### What keeps the invariant -/

theorem takePort_inv {s : State} (hi : s.Inv) (rest : List HostEvent) : State.Inv { s with port := rest } := by
  obtain ⟨h1, h2, h3, h4, h5, h6, h7, h8, h9, h10⟩ := hi
  exact ⟨h1, h2, h3, h4, h5, h6, h7, h8, h9, h10⟩

theorem resetBlock_inv {s : State} (hi : s.Inv) : s.resetBlock.Inv :=
  ⟨hi.cfg_valid, hi.size_pos, hi.size_pos, rfl, rfl, rfl, rfl, .inl rfl, fun _ => rfl, hi.statuses⟩

theorem clearRing_inv {s : State} (hi : s.Inv) : s.clearRing.Inv :=
  { hi with rd_lt := hi.size_pos, wr_lt := hi.size_pos }

/-- Staging inside the writable view lists a cell of the ring (R406, R412). -/
theorem stage_inv {s : State} (hi : s.Inv) {j : Nat} (hj : j < s.wviewLen) (b : Byte) : (s.stage j b).Inv := by
  have hcell : s.wr.toNat + j < s.ringSize := by
    have hr := hi.rd_lt
    unfold State.wviewLen at hj
    split at hj
    · omega
    · split at hj <;> omega
  exact { hi with ring_wf := wf_write hi.ring_wf, ring_below := below_write hi.ring_below hcell }

theorem ringIndex_lt {s : State} (hi : s.Inv) (p : Nat) : (s.ringIndex p).toNat < s.ringSize := by
  rw [ringIndex_toNat hi.size_le hi.size_pos]
  exact Nat.mod_lt _ hi.size_pos

theorem commit_inv {s : State} (hi : s.Inv) (n : Nat) : (s.commit n).Inv :=
  { hi with wr_lt := ringIndex_lt hi _ }

theorem ringWrite_inv {s : State} (hi : s.Inv) (data : List Byte) : (s.ringWrite data).Inv :=
  { hi with
    wr_lt := ringIndex_lt hi _
    ring_wf := wf_writeRing hi.ring_wf
    ring_below := below_writeRing hi.size_pos hi.ring_below }

/-- A delivery commits from an unfaulted state of the invariant to another. -/
theorem delivery_inv {s c : State} {i : Instr} (hi : s.Inv) (h : s.delivery i = some c) :
    c.Inv ∧ c.fault = s.fault := by
  rcases delivery_cases h with ⟨_, data, -, rfl⟩ | ⟨n, -, rfl⟩
  · exact ⟨ringWrite_inv hi data, rfl⟩
  · exact ⟨commit_inv hi n.toNat, rfl⟩

theorem drainPass_again_inv {s t : State} (hs : s.Inv ∧ s.fault = 0) (h : drainPass s = .again t) :
    t.Inv ∧ t.fault = 0 := by
  refine ⟨drainPass_inv hs.1 h, ?_⟩
  obtain ⟨_, _, rfl⟩ := drainPass_drainedTo h
  exact hs.2

/-- However a drain of an unfaulted block ends, the invariant stands: passes keep it, and so does the one fault that can
end them (R803). -/
theorem afterDrain_inv {c t : State} (hi : c.Inv) (hf : c.fault = 0) (h : afterDrain (drainAll c) = .next t) :
    t.Inv := by
  rcases afterDrain_next h with ⟨u, hd, rfl⟩ | hd
  · have hu : u.Inv := drain_done_of (fun _ _ => drainPass_again_inv)
      (fun _ _ hs hp => (drainPass_leave hp).1 ▸ hs.1) ⟨hi, hf⟩ hd
    exact respond_inv hu rfl 0
  · refine drain_raised_of (fun _ _ => drainPass_again_inv) (fun s t hs hp => ?_) ⟨hi, hf⟩ hd
    obtain ⟨k, info, rfl⟩ := drainPass_raised_eq hp
    exact raise_inv hs.1 hs.2 k info

theorem CommandEffect.inv {d : Except DecodeError Instr} {s t : State} (hi : s.Inv) (h : CommandEffect d s t) :
    t.Inv := by
  cases h with
  | answers st v hst => exact respond_inv hi hst v
  | raises k info hf => exact raise_inv hi hf k info
  | stages j b _ hj => exact respond_inv (stage_inv hi hj b) rfl 0
  | clears => exact respond_inv (clearRing_inv hi) rfl 0
  | drains i c _ hf _ hd ha =>
    obtain ⟨hc, hcf⟩ := delivery_inv hi hd
    exact afterDrain_inv hc (hcf.trans hf) ha

/-- Settles O56, by the effects of a step. -/
theorem stepKeepsInvariant : Obligations.StepKeepsInvariant := by
  intro s t hi h
  rcases step_effect h with ⟨-, rfl⟩ | ⟨rest, -, rfl⟩ | ⟨_, _, rest, -, he⟩
  · exact hi
  · exact resetBlock_inv (takePort_inv hi rest)
  · exact he.inv (takePort_inv hi rest)

/-! ### The occupancy queries -/

section
variable {s : State}

/-- `AVAIL` is `(WR - RD) mod N` on the integers (R401). -/
theorem avail_eq_emod (hr : s.rd.toNat < s.ringSize) :
    (s.avail : Int) = ((s.wr.toNat : Int) - s.rd.toNat) % s.ringSize := by
  have hsub : ((s.wr.toNat + s.ringSize - s.rd.toNat : Nat) : Int) = s.wr.toNat - s.rd.toNat + s.ringSize := by omega
  rw [State.avail, Int.natCast_emod, hsub, Int.add_emod_right]

/-- `SPACE` is `N - 1 - AVAIL` on the integers: `AVAIL` never exceeds `N - 1` (R402). -/
theorem space_eq_sub (h : 0 < s.ringSize) : (s.space : Int) = s.ringSize - 1 - s.avail := by
  have := avail_lt h
  unfold State.space
  omega

/-- The ring is empty exactly when the indices are equal (R106). -/
theorem isEmpty_eq (hr : s.rd.toNat < s.ringSize) (hw : s.wr.toNat < s.ringSize) :
    s.isEmpty = decide (s.rd = s.wr) := by
  have ha := avail_eq hr hw
  have hz : s.avail = 0 ↔ s.rd = s.wr := by
    rw [← BitVec.toNat_inj]
    split at ha <;> omega
  exact Bool.eq_iff_iff.mpr (by simpa [State.isEmpty] using hz)

/-- The ring is full exactly when `WR` stands one cell before `RD` (R106). -/
theorem isFull_eq (hr : s.rd.toNat < s.ringSize) (hw : s.wr.toNat < s.ringSize) :
    s.isFull = decide ((s.wr.toNat + 1) % s.ringSize = s.rd.toNat) := by
  have ha := avail_eq hr hw
  have hz : s.space = 0 ↔ (s.wr.toNat + 1) % s.ringSize = s.rd.toNat := by
    rw [add_mod_cases hw (by omega)]
    unfold State.space
    split at ha <;> split <;> omega
  exact Bool.eq_iff_iff.mpr (by simpa [State.isFull] using hz)

theorem flagValue_decide (p : Prop) [Decidable p] : flagValue (decide p) = if p then 1 else 0 := by
  simp [flagValue]

end

/-- Settles O9, from the integer forms of the occupancy and the flags. -/
theorem occupancyQueriesAnswer : Obligations.OccupancyQueriesAnswer := by
  intro s hi hf
  have hs := hi.ready hf
  have hN := hi.size_le
  have havail := avail_lt hi.size_pos
  have hspace := space_eq_sub hi.size_pos
  have hword : ∀ n < s.ringSize, (BitVec.ofNat 32 n).toNat = n := fun n hn => by
    rw [BitVec.toNat_ofNat, Nat.mod_eq_of_lt (by omega)]
  refine ⟨⟨_, exec_avail_ready hs, ?_⟩, ⟨_, exec_space_ready hs, ?_⟩, ?_, ?_⟩
  · rw [hword _ havail]
    exact avail_eq_emod hi.rd_lt
  · rw [hword _ (by omega), hspace, avail_eq_emod hi.rd_lt]
    rfl
  · rw [exec_empty_ready hs, isEmpty_eq hi.rd_lt hi.wr_lt, flagValue_decide]
    rfl
  · rw [exec_full_ready hs, isFull_eq hi.rd_lt hi.wr_lt, flagValue_decide]
    rfl

end Sys2Proof.Machine
end

section
/-! PROOF. Both memories of the block under a delivery (20_memory.md): every command ends and answers once, the two
delivery paths commit the same cells, and a valid frame's payload reaches its slot and no other arena byte. -/

namespace Sys2Proof.Machine

/-! ### A delivery beyond `SPACE` -/

/-- Settles O17: the bound is checked before any byte is stored. -/
theorem overflowChangesNothing : Obligations.OverflowChangesNothing := by
  intro s hs
  refine ⟨fun len data hl hspace => ?_, fun n hspace => ?_⟩
  · rw [exec_push_ready hs, if_neg (not_not.mpr hl), if_pos (by omega)]
    rfl
  · rw [exec_advance_ready hs, if_pos hspace]
    rfl

/-! ### Every command ends -/

/-- A pass that goes on lowers `AVAIL`, the measure of R612. -/
theorem drainPass_again_avail_lt {s t : State} (hi : s.Inv) (h : drainPass s = .again t) : t.avail < s.avail := by
  obtain ⟨n, hpos, hle, hcase⟩ := drainPass_again hi h
  have hav := avail_discard hi.size_le hi.rd_lt hi.wr_lt hle
  rcases hcase with rfl | ⟨a, p, -, rfl⟩
  · omega
  · rw [storeArena_avail]
    omega

/-- A budget above `AVAIL` passes does not run out (R612). -/
theorem drain_ne_stuck : ∀ {n : Nat} {s : State}, s.Inv → s.avail < n → drain n s ≠ .stuck
  | 0, _, _, hn => absurd hn (Nat.not_lt_zero _)
  | n + 1, s, hi, hn => by
    rw [drain_succ]
    cases hp : drainPass s with
    | again t =>
      have hlt := drainPass_again_avail_lt hi hp
      exact drain_ne_stuck (drainPass_inv hi hp) (by omega)
    | leave t => exact Drained.noConfusion
    | raised t => exact Drained.noConfusion

theorem afterDrain_answers {c : State} (hi : c.Inv) : ∃ t, afterDrain (drainAll c) = .next t := by
  have hne : drainAll c ≠ .stuck := drain_ne_stuck hi (Nat.lt_succ_self _)
  cases hd : drainAll c with
  | done u => exact ⟨_, rfl⟩
  | raised u => exact ⟨_, rfl⟩
  | stuck => exact absurd hd hne

section
variable {s : State}

/-- A command answers a next state if its body does on a block that is not faulted. -/
theorem command_answers (hc : s.cfg.valid = true) {f : State → Result} (hf : ∃ t, f s = .next t) :
    ∃ t, command s f = .next t := by
  by_cases h0 : s.fault = 0
  · rwa [command_ready ⟨hc, h0⟩]
  · exact ⟨_, command_faulted hc h0 f⟩

theorem query_answers (hc : s.cfg.valid = true) (v : State → Word) : ∃ t, query s v = .next t :=
  command_answers hc ⟨_, rfl⟩

theorem engine_answers (hc : s.cfg.valid = true) (pass : State → Pass) : ∃ t, engine s pass = .next t := by
  rw [engine, onBlock_valid hc]
  split
  · exact ⟨_, rfl⟩
  · split
    · exact ⟨_, rfl⟩
    · cases pass s <;> exact ⟨_, rfl⟩

/-- No instruction ends in a fault of the model or in a refusal (R612, R905). -/
theorem exec_answers (hi : s.Inv) (i : Instr) : ∃ t, exec i s = .next t := by
  have hc := hi.cfg_valid
  cases i with
  | push len data =>
    rw [exec]
    refine command_answers hc ?_
    split
    · exact ⟨_, rfl⟩
    · split
      · exact ⟨_, rfl⟩
      · exact afterDrain_answers (ringWrite_inv hi data)
  | advance n =>
    rw [exec]
    refine command_answers hc ?_
    split
    · exact ⟨_, rfl⟩
    · exact afterDrain_answers (commit_inv hi n.toNat)
  | vwrite j b =>
    rw [exec]
    refine command_answers hc ?_
    split <;> exact ⟨_, rfl⟩
  | arenaRead addr =>
    rw [exec]
    refine command_answers hc ?_
    split <;> exact ⟨_, rfl⟩
  | clear => rw [exec]; exact command_answers hc ⟨_, rfl⟩
  | wview | avail | space | full | empty | lookup _ => rw [exec]; exact query_answers hc _
  | faults | faultinfo => rw [exec]; exact ⟨_, onBlock_valid hc _⟩
  | frame _ _ _ _ | junk _ => rw [exec]; exact engine_answers hc _

/-- From the invariant every step is a next state. -/
theorem step_answers (hi : s.Inv) : ∃ t, step s = .next t := by
  rw [step, onBlock_valid hi.cfg_valid, takeEvent]
  cases s.port with
  | nil => exact ⟨_, rfl⟩
  | cons e rest =>
    have hi' := takePort_inv hi rest
    cases e with
    | reset => exact ⟨_, rfl⟩
    | command w data =>
      simp only [runEvent]
      cases decode (.host w data) with
      | ok i => exact exec_answers hi' i
      | error e => exact command_answers hi'.cfg_valid ⟨_, rfl⟩

end

/-! ### One response for each command -/

/-- The end of a delivery takes no event from the port and gives one response: OK, or that of the drain's fault. -/
theorem afterDrain_responds {c t : State} (h : afterDrain (drainAll c) = .next t) :
    t.port = c.port ∧ ∃ r, t.responses = c.responses ++ [r] := by
  rcases afterDrain_next h with ⟨u, hd, rfl⟩ | hd
  · obtain ⟨_, _, rfl⟩ := drainAll_done_drainedTo hd
    exact ⟨rfl, _, rfl⟩
  · obtain ⟨_, _, _, ⟨_, _, rfl⟩, rfl⟩ := drainAll_raised_eq hd
    exact ⟨rfl, _, rfl⟩

theorem delivery_host {s c : State} {i : Instr} (h : s.delivery i = some c) :
    c.port = s.port ∧ c.responses = s.responses := by
  rcases delivery_cases h with ⟨_, _, -, rfl⟩ | ⟨_, -, rfl⟩
  · exact ⟨rfl, rfl⟩
  · exact ⟨rfl, rfl⟩

/-- Every effect of a command holds one response and leaves the port's rest (R315). -/
theorem CommandEffect.responds {d : Except DecodeError Instr} {s t : State} (h : CommandEffect d s t) :
    t.port = s.port ∧ ∃ r, t.responses = s.responses ++ [r] := by
  cases h with
  | answers | raises | stages | clears => exact ⟨rfl, _, rfl⟩
  | drains _ c _ _ _ hd ha =>
    obtain ⟨hport, hresponses⟩ := delivery_host hd
    rw [← hport, ← hresponses]
    exact afterDrain_responds ha

/-- Settles O58: a step answers, and what it answers is one of a step's effects. -/
theorem everyStepAnswers : Obligations.EveryStepAnswers := by
  intro s hi
  obtain ⟨t, ht⟩ := step_answers hi
  refine ⟨t, ht, fun w data rest hport => ?_⟩
  rcases step_effect ht with ⟨hp, -⟩ | ⟨_, hp, -⟩ | ⟨_, _, _, hp, he⟩ <;> rw [hport] at hp <;> cases hp
  exact he.responds

/-! ### The engine does not read the record of responses

A PUSH and a staged delivery of the same bytes drain from states that differ in the responses given before. `withHistory`
puts earlier responses in front of a state's own, and everything the drain runs commutes with it. -/

/-- The state with the responses `rs` given before its own. -/
def State.withHistory (rs : List Response) (s : State) : State := { s with responses := rs ++ s.responses }

/-- The state with no response given. -/
def State.unanswered (s : State) : State := { s with responses := [] }

theorem withHistory_unanswered (s : State) : s.unanswered.withHistory s.responses = s := by
  simp [State.unanswered, State.withHistory]

theorem unanswered_inv {s : State} (hi : s.Inv) : s.unanswered.Inv :=
  { hi with statuses := fun _ hr => absurd hr List.not_mem_nil }

/-- A parse result whose states have the responses `rs` before their own. -/
def Parse.withHistory (rs : List Response) : Parse → Parse
  | .success t => .success (t.withHistory rs)
  | .failure => .failure
  | .incomplete => .incomplete
  | .raised t => .raised (t.withHistory rs)

/-- A pass whose state has the responses `rs` before its own. -/
def Pass.withHistory (rs : List Response) : Pass → Pass
  | .again t => .again (t.withHistory rs)
  | .leave t => .leave (t.withHistory rs)
  | .raised t => .raised (t.withHistory rs)

/-- A drain's end whose state has the responses `rs` before its own. -/
def Drained.withHistory (rs : List Response) : Drained → Drained
  | .done t => .done (t.withHistory rs)
  | .raised t => .raised (t.withHistory rs)
  | .stuck => .stuck

section
variable (rs : List Response) (s : State)

@[simp] theorem withHistory_cfg : (s.withHistory rs).cfg = s.cfg := rfl
@[simp] theorem withHistory_avail : (s.withHistory rs).avail = s.avail := rfl
@[simp] theorem withHistory_rview : (s.withHistory rs).rview = s.rview := rfl

@[simp] theorem peek_withHistory (j n : Nat) : (s.withHistory rs).peek j n = s.peek j n :=
  peek_congr (s := s) (t := s.withHistory rs) (fun _ => rfl) (fun _ => rfl) n j

@[simp] theorem scan_withHistory (v : Nat) : (s.withHistory rs).scan v = s.scan v :=
  scanFor_congr (s := s) (t := s.withHistory rs) (fun _ => rfl) (fun _ => rfl) sof v 0

theorem discard_withHistory (n : Nat) : (s.withHistory rs).discard n = (s.discard n).withHistory rs := rfl

theorem respond_withHistory (st : Status) (v : Word) :
    (s.withHistory rs).respond st v = (s.respond st v).withHistory rs := by
  simp [State.respond, State.withHistory]

theorem raise_withHistory (k : FaultKind) (info : Word) :
    (s.withHistory rs).raise k info = (s.raise k info).withHistory rs := by
  simp [State.raise, State.respond, State.withHistory]

theorem raiseUndef_withHistory (p : Nat) : (s.withHistory rs).raiseUndef p = (s.raiseUndef p).withHistory rs :=
  raise_withHistory rs s _ _

theorem dispatch_withHistory (cmd len : Half) (p : List Byte) :
    dispatch cmd len p (s.withHistory rs) = (dispatch cmd len p s).withHistory rs := by
  simp only [dispatch, withHistory_cfg, raise_withHistory]
  cases s.cfg.slotOf cmd with
  | none => rfl
  | some slot => dsimp only; split <;> rfl

theorem checkTail_withHistory (cmd len : Half) :
    checkTail cmd len (s.withHistory rs) = (checkTail cmd len s).withHistory rs := by
  simp only [checkTail, peek_withHistory, raiseUndef_withHistory, dispatch_withHistory]
  cases s.peek 0 (headerSize + len.toNat) with
  | error p => rfl
  | ok covered =>
    cases s.peek (headerSize + len.toNat) tailSize with
    | error p => rfl
    | ok tail => dsimp only; split <;> rfl

theorem checkFrame_withHistory (cmd len : Half) (seq crc : Byte) :
    checkFrame cmd len seq crc (s.withHistory rs) = (checkFrame cmd len seq crc s).withHistory rs := by
  simp only [checkFrame, withHistory_cfg, withHistory_avail, checkTail_withHistory]
  split
  · rfl
  · split
    · rfl
    · split <;> rfl

theorem parseFrame_withHistory : parseFrame (s.withHistory rs) = (parseFrame s).withHistory rs := by
  simp only [parseFrame, peek_withHistory, raiseUndef_withHistory, checkFrame_withHistory]
  cases s.peek 0 headerSize with
  | error p => rfl
  | ok h => dsimp only; split <;> rfl

theorem afterParse_withHistory (r : Parse) :
    afterParse (s.withHistory rs) (r.withHistory rs) = (afterParse s r).withHistory rs := by
  cases r <;> rfl

theorem afterScan_withHistory (r : ScanResult) :
    afterScan (s.withHistory rs) r = (afterScan s r).withHistory rs := by
  cases r with
  | undef p => exact congrArg Pass.raised (raiseUndef_withHistory rs s p)
  | notFound => rfl
  | found k => rfl

theorem drainPass_withHistory : drainPass (s.withHistory rs) = (drainPass s).withHistory rs := by
  simp only [drainPass, withHistory_avail, withHistory_rview, scan_withHistory, parseFrame_withHistory,
    afterParse_withHistory, afterScan_withHistory]
  split
  · rfl
  · split <;> rfl

theorem drain_withHistory : ∀ (n : Nat) (s : State), drain n (s.withHistory rs) = (drain n s).withHistory rs
  | 0, _ => rfl
  | n + 1, s => by
    rw [drain_succ, drain_succ, drainPass_withHistory]
    cases drainPass s with
    | again t => exact drain_withHistory n t
    | leave t => rfl
    | raised t => rfl

end

/-- The end of a delivery from a state with earlier responses, given its end from the state without them. -/
theorem afterDrain_withHistory {c t : State} (rs : List Response) (h : afterDrain (drainAll c) = .next t) :
    afterDrain (drainAll (c.withHistory rs)) = .next (t.withHistory rs) := by
  have hd : drainAll (c.withHistory rs) = (drainAll c).withHistory rs := drain_withHistory rs _ c
  rcases afterDrain_next h with ⟨u, hu, rfl⟩ | hu <;> rw [hd, hu]
  · exact congrArg Host.Outcome.next (respond_withHistory rs u .ok 0)
  · rfl

/-! ### Staging a view -/

/-- A count of cells fits the 16-bit operand that carries it (R5, R311). -/
theorem toNat_ofNat_of_le_ringSize {s : State} (hi : s.Inv) {n : Nat} (hn : n ≤ s.ringSize) :
    (BitVec.ofNat 16 n).toNat = n := by
  have hN := hi.size_le
  exact Nat.mod_eq_of_lt (by omega)

/-- A writable cell is a cell of the ring, before its end, and one of the free ones (R406). -/
theorem wviewLen_bounds {s : State} (hi : s.Inv) :
    s.wr.toNat + s.wviewLen ≤ s.ringSize ∧ s.wviewLen ≤ s.space := by
  have hr := hi.rd_lt
  have hw := hi.wr_lt
  have ha := avail_eq hr hw
  unfold State.wviewLen State.space
  split at ha
  · split
    · omega
    · omega
  · rw [if_neg (by omega), if_neg (by omega)]
    omega

/-- `s` after VWRITE of `d`, byte by byte from index `k` of the view on. -/
def State.stageAll (s : State) (k : Nat) (d : List Byte) : State :=
  { s with
    ring := Memory.writeRing s.ringSize s.ring (s.wr.toNat + k) d
    responses := s.responses ++ List.replicate d.length ⟨.ok, 0⟩ }

/-- A cell before the ring's end needs no remainder, so one VWRITE more is one more byte of a ring write (R403, R412). -/
theorem stageAll_cons {s : State} {k : Nat} (hk : s.wr.toNat + k < s.ringSize) (b : Byte) (d : List Byte) :
    ((s.stage k b).respond .ok 0).stageAll (k + 1) d = s.stageAll k (b :: d) := by
  simp [State.stageAll, Memory.writeRing, Nat.mod_eq_of_lt hk, Nat.add_assoc, List.replicate_succ]

/-- Committing what has been staged is the ring write of the same bytes, but for the responses to the VWRITEs (R413). -/
theorem commit_stageAll (s : State) (d : List Byte) : (s.stageAll 0 d).commit d.length
    = (s.ringWrite d).unanswered.withHistory (s.responses ++ List.replicate d.length ⟨.ok, 0⟩) := by
  simp [State.unanswered, State.withHistory, State.stageAll, State.commit, State.ringWrite, State.ringIndex,
    State.ringSize]

/-- The VWRITEs of `d` from index `k` on, all inside the view, run to `stageAll`. -/
theorem execAll_vwrites (is : List Instr) {d : List Byte} : ∀ {s : State} {k : Nat}, s.Inv → s.fault = 0 →
    k + d.length ≤ s.wviewLen →
    execAll ((d.zipIdx k).map (fun e => Instr.vwrite (BitVec.ofNat 16 e.2) e.1) ++ is) s
      = execAll is (s.stageAll k d) := by
  induction d with
  | nil => intro s k _ _ _; simp [State.stageAll, Memory.writeRing]
  | cons b d ih =>
    intro s k hi hf hk
    rw [List.length_cons] at hk
    obtain ⟨hring, -⟩ := wviewLen_bounds hi
    have htoNat : (BitVec.ofNat 16 k).toNat = k := toNat_ofNat_of_le_ringSize hi (by omega)
    have hx : exec (.vwrite (BitVec.ofNat 16 k) b) s = .next ((s.stage k b).respond .ok 0) := by
      rw [exec_vwrite_ready (hi.ready hf), htoNat, if_neg (by omega)]
    have hi' : ((s.stage k b).respond .ok 0).Inv := respond_inv (stage_inv hi (by omega) b) rfl 0
    rw [List.zipIdx_cons, List.map_cons, List.cons_append, execAll, hx, ← stageAll_cons (by omega)]
    exact ih hi' hf (by rw [respond_wviewLen, stage_wviewLen]; omega)

theorem execAll_singleton (i : Instr) (s : State) : execAll [i] s = exec i s := by
  rw [execAll]
  cases exec i s <;> rfl

/-- Settles O27: both paths drain from the same commit, with other responses before it. -/
theorem zeroCopyAgreesWithPush : Obligations.ZeroCopyAgreesWithPush := by
  intro s d hi hf hd
  obtain ⟨hring, hspace⟩ := wviewLen_bounds hi
  have hlen : (BitVec.ofNat 16 d.length).toNat = d.length := toNat_ofNat_of_le_ringSize hi (by omega)
  obtain ⟨t, ht⟩ := afterDrain_answers (unanswered_inv (ringWrite_inv hi d))
  refine ⟨t.withHistory s.responses, t.withHistory (s.responses ++ List.replicate d.length ⟨.ok, 0⟩), ?_, ?_, rfl⟩
  · rw [exec_push_ready (hi.ready hf), hlen, if_neg (not_not.mpr rfl), if_neg (by omega),
      ← withHistory_unanswered (s.ringWrite d)]
    exact afterDrain_withHistory _ ht
  · have hready : (s.stageAll 0 d).Ready := ⟨hi.cfg_valid, hf⟩
    have hspace' : (s.stageAll 0 d).space = s.space := rfl
    rw [execAll_vwrites _ hi hf (by omega), execAll_singleton, exec_advance_ready hready, hlen, if_neg (by omega),
      commit_stageAll]
    exact afterDrain_withHistory _ ht

/-! ### A valid frame at the head -/

/-- A peek of two byte sequences in a row is a peek of each. -/
theorem peek_append {s : State} {j m n : Nat} {a b : List Byte} (h : s.peek j (m + n) = .ok (a ++ b))
    (ha : a.length = m) : s.peek j m = .ok a ∧ s.peek (j + m) n = .ok b := by
  obtain ⟨hl, hb⟩ := peek_ok.mp h
  have hlen : (a ++ b).length = a.length + b.length := List.length_append
  refine ⟨peek_ok.mpr ⟨ha, fun k hk => ?_⟩, peek_ok.mpr ⟨by omega, fun k hk => ?_⟩⟩
  · rw [hb k (by omega), List.getElem_append_left hk]
  · rw [Nat.add_assoc, hb (m + k) (by omega), List.getElem_append_right (by omega)]
    simp [ha]

/-- The bytes a frame's CRC16 covers: header and payload (R301, R610). -/
def frameCovered (cmd : Half) (seq : Byte) (p : List Byte) : List Byte :=
  headerBody cmd (BitVec.ofNat 16 p.length) seq ++ [crc8 (headerBody cmd (BitVec.ofNat 16 p.length) seq)] ++ p

theorem frameBytes_eq (cmd : Half) (seq : Byte) (p : List Byte) :
    frameBytes cmd seq p = frameCovered cmd seq p
      ++ [lowByte (crc16 (frameCovered cmd seq p)), highByte (crc16 (frameCovered cmd seq p))] := rfl

theorem length_frameCovered (cmd : Half) (seq : Byte) (p : List Byte) :
    (frameCovered cmd seq p).length = headerSize + p.length := by
  simp [frameCovered, headerBody, headerSize]
  omega

theorem drop_frameCovered (cmd : Half) (seq : Byte) (p : List Byte) : (frameCovered cmd seq p).drop headerSize = p := rfl

/-- The CRC16 check passes on bytes whose tail is their CRC16, low byte first (R610). -/
theorem checkTail_of_crc {s : State} {cmd len : Half} {covered : List Byte}
    (hcovered : s.peek 0 (headerSize + len.toNat) = .ok covered)
    (htail : s.peek (headerSize + len.toNat) tailSize = .ok [lowByte (crc16 covered), highByte (crc16 covered)]) :
    checkTail cmd len s = dispatch cmd len (covered.drop headerSize) s := by
  have hfield : fieldAt [lowByte (crc16 covered), highByte (crc16 covered)] 0 = crc16 covered := le16_bytes _
  simp only [checkTail, hcovered, htail, hfield, ne_eq, not_true_eq_false, if_false]

/-- A frame a sender constructs passes every check and comes to its dispatch (R304, R604). -/
theorem checkFrame_frameBytes {s : State} {cmd : Half} {seq : Byte} {p : List Byte} (hi : s.Inv)
    (hm : p.length ≤ s.cfg.maxPayload) (ha : 9 + p.length ≤ s.avail)
    (hp : s.peek 0 (9 + p.length) = .ok (frameBytes cmd seq p)) :
    checkFrame cmd (BitVec.ofNat 16 p.length) seq (crc8 (headerBody cmd (BitVec.ofNat 16 p.length) seq)) s
      = dispatch cmd (BitVec.ofNat 16 p.length) p s := by
  have hav := avail_lt hi.size_pos
  have hlen : (BitVec.ofNat 16 p.length).toNat = p.length := toNat_ofNat_of_le_ringSize hi (by omega)
  have hsplit : 9 + p.length = headerSize + p.length + tailSize := by unfold headerSize tailSize; omega
  rw [hsplit] at ha hp
  rw [frameBytes_eq] at hp
  obtain ⟨hcovered, htail⟩ := peek_append hp (length_frameCovered cmd seq p)
  rw [Nat.zero_add] at htail
  rcases checkFrame_cases cmd (BitVec.ofNat 16 p.length) seq
      (crc8 (headerBody cmd (BitVec.ofNat 16 p.length) seq)) s with
    ⟨hbad | hbad, -⟩ | ⟨-, -, hbad, -⟩ | ⟨-, -, -, he⟩
  · exact absurd rfl hbad
  · omega
  · omega
  · rw [he, checkTail_of_crc (by rwa [hlen]) (by rwa [hlen]), drop_frameCovered]

/-! ### A payload in its slot -/

/-- A dispatch that fits stores the payload from the slot's start and drops the frame whole (R510). -/
theorem dispatch_known {s : State} (hi : s.Inv) {cmd len : Half} {p : List Byte} {slot : Slot}
    (hslot : s.cfg.slotOf cmd = some slot) (hfit : slot.offset + len.toNat ≤ s.cfg.total) :
    dispatch cmd len p s = .success ((s.discard (9 + len.toNat)).storeArena slot.offset p) := by
  cases hd : dispatch cmd len p s with
  | success t =>
    rcases dispatch_success hi.size_le hi.size_pos hd with ⟨_, hs, -, rfl⟩ | ⟨hs, -⟩
    · rw [hslot] at hs; cases hs; rfl
    · rw [hslot] at hs; cases hs
  | _ => simp [dispatch, hslot, Nat.not_lt.mpr hfit] at hd

/-- A dispatch of an unknown cmd drops the frame whole (R510). -/
theorem dispatch_unknown {s : State} (hi : s.Inv) {cmd len : Half} {p : List Byte} (hslot : s.cfg.slotOf cmd = none) :
    dispatch cmd len p s = .success (s.discard (9 + len.toNat)) := by
  cases hd : dispatch cmd len p s with
  | success t =>
    rcases dispatch_success hi.size_le hi.size_pos hd with ⟨_, hs, -⟩ | ⟨-, rfl⟩
    · rw [hslot] at hs; cases hs
    · rfl
  | _ => simp [dispatch, hslot] at hd

theorem arenaByte_storeArena_inside {s : State} (hi : s.Inv) {a k : Nat} {p : List Byte} (hk : k < p.length) :
    (s.storeArena a p).arenaByte (a + k) = p[k] := by
  rw [State.arenaByte, storeArena_arena, read_writeArena_inside hk hi.arena_wf, Option.getD_some]

theorem arenaByte_storeArena_outside {s : State} {a x : Nat} {p : List Byte} (hx : x < a ∨ a + p.length ≤ x) :
    (s.storeArena a p).arenaByte x = s.arenaByte x := by
  rw [State.arenaByte, storeArena_arena, read_writeArena_outside hx]
  rfl

/-- FRAME on a frame that a dispatch consumes. -/
theorem exec_frame_of_dispatch {s t : State} {cmd : Half} {seq : Byte} {p : List Byte} (hi : s.Inv) (hf : s.fault = 0)
    (hm : p.length ≤ s.cfg.maxPayload) (ha : 9 + p.length ≤ s.avail)
    (hp : s.peek 0 (9 + p.length) = .ok (frameBytes cmd seq p))
    (hd : dispatch cmd (BitVec.ofNat 16 p.length) p s = .success t) :
    exec (.frame cmd (BitVec.ofNat 16 p.length) seq (crc8 (headerBody cmd (BitVec.ofNat 16 p.length) seq))) s
      = .next t := by
  rw [exec_frame_ready (hi.ready hf) (by unfold headerSize; omega), checkFrame_frameBytes hi hm ha hp, hd]
  rfl

/-- Settles O36: a valid frame passes every check, and its dispatch stores exactly its payload. -/
theorem validFrameDispatches : Obligations.ValidFrameDispatches := by
  intro s cmd seq p hi hf hm ha hp
  have hav := avail_lt hi.size_pos
  have hlen : (BitVec.ofNat 16 p.length).toNat = p.length := toNat_ofNat_of_le_ringSize hi (by omega)
  have hrd : (s.discard (9 + p.length)).rd.toNat = (s.rd.toNat + (9 + p.length)) % s.ringSize :=
    ringIndex_toNat hi.size_le hi.size_pos _
  refine ⟨fun slot hslot hfit => ?_, fun hslot => ?_⟩
  · have hd := dispatch_known (p := p) (len := BitVec.ofNat 16 p.length) hi hslot (by rwa [hlen])
    rw [hlen] at hd
    exact ⟨_, exec_frame_of_dispatch hi hf hm ha hp hd, rfl, hrd,
      fun k hk => arenaByte_storeArena_inside (discard_inv hi _) hk,
      fun a hx => arenaByte_storeArena_outside hx⟩
  · have hd := dispatch_unknown (p := p) (len := BitVec.ofNat 16 p.length) hi hslot
    rw [hlen] at hd
    exact ⟨_, exec_frame_of_dispatch hi hf hm ha hp hd, rfl, hrd⟩

end Sys2Proof.Machine
end

section
/-! PROOF. The encoding (30_encoding.md). On command words: decode and encode agree both ways, and what does not decode is
R314's list and faults. On the wire: a pass of the drain runs the unit at the head, what it dispatches is a frame a sender
can construct, and such a frame reaches its slot behind any junk. -/

namespace Sys2Proof.Machine

/-! ### From an instruction to its code and back -/

/-- Seven bytes from SOF on decode to the header they were made from, whatever follows them (R301, R302). -/
theorem decodeWire_headerBody (cmd len : Half) (seq crc : Byte) (rest : List Byte) :
    decodeWire (headerBody cmd len seq ++ crc :: rest) = .ok (.frame cmd len seq crc) := by
  simp [headerBody, decodeWire]

theorem decodeWire_junk {b : Byte} (h : b ≠ sof) (rest : List Byte) : decodeWire (b :: rest) = .ok (.junk b) :=
  if_neg h

/-- Settles O2, by cases on the instruction: each encodes to a word of its own opcode, or to its wire bytes. -/
theorem decodeEncodeRoundTrip : Obligations.DecodeEncodeRoundTrip := by
  intro i hwf
  cases i with
  | push len data =>
    have hlen : data.length = len.toNat := by simpa [Instr.WellFormed, Instr.wf] using hwf
    simp [encode, decode, decodeHost, decodePush, hlen]
  | vwrite j b => simp [encode, decode, decodeHost]
  | advance _ | lookup _ | arenaRead _ => simp [encode, decode, decodeHost, decodeArg]
  | wview | clear | avail | space | full | empty | faults | faultinfo =>
    simp [encode, decode, decodeHost, decodePlain]
  | frame cmd len seq crc => exact decodeWire_headerBody cmd len seq crc []
  | junk b =>
    have hb : b ≠ sof := by simpa [Instr.WellFormed, Instr.wf] using hwf
    exact decodeWire_junk hb []

/-! ### From a word to its instruction and back -/

section
variable {w : Word} {data : List Byte} {e : DecodeError} {i j : Instr}

theorem opField_eq_ofNat {n : Nat} (h : (opField w).toNat = n) : opField w = BitVec.ofNat 4 n := by
  rw [← h, BitVec.ofNat_toNat, BitVec.setWidth_eq]

theorem decodePlain_ok_fields (h : decodePlain w i = .ok j) : argField w = 0 ∧ dataField w = 0 := by
  unfold decodePlain at h
  split at h
  · assumption
  · cases h

theorem decodeArg_ok_field {f : Half → Instr} (h : decodeArg w f = .ok j) : dataField w = 0 := by
  unfold decodeArg at h
  split at h
  · assumption
  · cases h

theorem decodePush_ok_fields (h : decodePush w data = .ok j) :
    dataField w = 0 ∧ data.length = (argField w).toNat := by
  unfold decodePush at h
  split at h
  · cases h
  · split at h
    · cases h
    · exact ⟨not_not.mp ‹_›, not_not.mp ‹_›⟩

/-- A word without reserved bits is the encoder's for its own fields; only a PUSH word keeps its data (R310, R312). -/
theorem host_hostWord {n : Nat} {a : Half} {d : Byte} (hr : rsvField w = 0) (hop : (opField w).toNat = n)
    (ha : argField w = a) (hd : dataField w = d) (data : List Byte) :
    Code.host (hostWord (BitVec.ofNat 4 n) a d) (if BitVec.ofNat 4 n = 0x1 then data else [])
      = .host w (if opField w = 0x1 then data else []) := by
  rw [← opField_eq_ofNat hop, ← ha, ← hd, hostWord_fields hr]

/-- Settles O3: each arm of the opcode map returns the operands its word holds and has checked the other fields to be 0. -/
theorem legalWordsEncodeBack : Obligations.LegalWordsEncodeBack := by
  intro w data i h
  unfold decodeHost at h
  split at h
  · cases h
  · rename_i hr
    have hr := not_not.mp hr
    split at h
    case h_1 hop =>
      cases decodePush_ok h
      obtain ⟨hd, hlen⟩ := decodePush_ok_fields h
      exact ⟨beq_iff_eq.mpr hlen, host_hostWord hr hop rfl hd data⟩
    case h_3 hop => cases h; exact ⟨rfl, host_hostWord hr hop rfl rfl data⟩
    case h_4 hop | h_10 hop | h_11 hop =>
      cases decodeArg_ok h
      exact ⟨rfl, host_hostWord hr hop rfl (decodeArg_ok_field h) data⟩
    case h_2 hop | h_5 hop | h_6 hop | h_7 hop | h_8 hop | h_9 hop | h_12 hop | h_13 hop =>
      cases decodePlain_ok h
      obtain ⟨ha, hd⟩ := decodePlain_ok_fields h
      exact ⟨rfl, host_hostWord hr hop ha hd data⟩
    case h_14 => cases h

/-! ### The words R314 calls illegal -/

/-- R314 reads the data bytes of a PUSH word only (R312). -/
theorem illegalWord_dropData : illegalWord w (if opField w = 0x1 then data else []) ↔ illegalWord w data := by
  by_cases h : opField w = 0x1 <;> simp only [illegalWord, h, false_and, if_true, if_false]

/-- What the encoder writes for a well-formed instruction is legal. -/
theorem encode_legal (hwf : i.WellFormed) : Laws.EncodeLegal.legalCode (encode i) := by
  cases i with
  | push len data => exact Laws.EncodeLegal.push len data hwf
  | wview => exact Laws.EncodeLegal.wview hwf
  | vwrite j b => exact Laws.EncodeLegal.vwrite j b hwf
  | advance n => exact Laws.EncodeLegal.advance n hwf
  | clear => exact Laws.EncodeLegal.clear hwf
  | avail => exact Laws.EncodeLegal.avail hwf
  | space => exact Laws.EncodeLegal.space hwf
  | full => exact Laws.EncodeLegal.full hwf
  | empty => exact Laws.EncodeLegal.empty hwf
  | lookup cmd => exact Laws.EncodeLegal.lookup cmd hwf
  | arenaRead addr => exact Laws.EncodeLegal.arenaRead addr hwf
  | faults => exact Laws.EncodeLegal.faults hwf
  | faultinfo => exact Laws.EncodeLegal.faultinfo hwf
  | frame cmd len seq crc => exact Laws.EncodeLegal.frame cmd len seq crc hwf
  | junk b => exact Laws.EncodeLegal.junk b hwf

theorem decodeHost_ok_legal (h : decodeHost w data = .ok i) : ¬ illegalWord w data := by
  obtain ⟨hwf, hcode⟩ := legalWordsEncodeBack w data i h
  have hlegal := encode_legal hwf
  rw [hcode] at hlegal
  exact mt illegalWord_dropData.mpr hlegal

theorem decodePlain_error_illegal (hop : opField w ∈ [0x2#4, 0x5#4, 0x6#4, 0x7#4, 0x8#4, 0x9#4, 0xC#4, 0xD#4])
    (h : decodePlain w i = .error e) : illegalWord w data := by
  have hne : opField w ≠ 0x3 := fun h3 => by rw [h3] at hop; revert hop; decide
  unfold decodePlain at h
  split at h
  · cases h
  · rename_i hfields
    by_cases ha : argField w = 0
    · exact .inr (.inr (.inr (.inl ⟨fun hd => hfields ⟨ha, hd⟩, hne⟩)))
    · exact .inr (.inr (.inl ⟨ha, hop⟩))

theorem decodeArg_error_illegal {f : Half → Instr} (hop : opField w ≠ 0x3) (h : decodeArg w f = .error e) :
    illegalWord w data := by
  unfold decodeArg at h
  split at h
  · cases h
  · exact .inr (.inr (.inr (.inl ⟨‹_›, hop⟩)))

theorem decodePush_error_illegal (hop : opField w = 0x1) (h : decodePush w data = .error e) : illegalWord w data := by
  have hne : opField w ≠ 0x3 := by rw [hop]; decide
  unfold decodePush at h
  split at h
  · exact .inr (.inr (.inr (.inl ⟨‹_›, hne⟩)))
  · split at h
    · exact .inr (.inr (.inr (.inr ⟨hop, ‹_›⟩)))
    · cases h

/-- Each rejection of the opcode map is an entry of R314's list. -/
theorem decodeHost_error_illegal (h : decodeHost w data = .error e) : illegalWord w data := by
  unfold decodeHost at h
  split at h
  · exact .inr (.inl ‹_›)
  · split at h
    case h_1 hop => exact decodePush_error_illegal (opField_eq_ofNat hop) h
    case h_3 => cases h
    case h_4 hop | h_10 hop | h_11 hop =>
      exact decodeArg_error_illegal (by rw [opField_eq_ofNat hop]; decide) h
    case h_2 hop | h_5 hop | h_6 hop | h_7 hop | h_8 hop | h_9 hop | h_12 hop | h_13 hop =>
      exact decodePlain_error_illegal (by rw [opField_eq_ofNat hop]; decide) h
    case h_14 =>
      have hreserved : (opField w).toNat = 0 ∨ (opField w).toNat = 14 ∨ (opField w).toNat = 15 := by
        have hlt := (opField w).isLt
        simp only [imp_false] at *
        omega
      exact .inl (hreserved.imp opField_eq_ofNat (.imp opField_eq_ofNat opField_eq_ofNat))

/-- Settles O4: a decoded word is an encoded one and so legal; a rejected one is on R314's list. -/
theorem illegalWordsAreRejected : Obligations.IllegalWordsAreRejected := by
  intro w data
  refine ⟨fun ⟨i, h⟩ => decodeHost_ok_legal h, fun hlegal => ?_⟩
  cases h : decodeHost w data with
  | ok i => exact ⟨i, rfl⟩
  | error e => exact absurd (decodeHost_error_illegal h) hlegal

end

/-! ### A command word at the port -/

/-- A step takes the first event of the port. -/
theorem step_takes {s : State} {e : HostEvent} {rest : List HostEvent} (hc : s.cfg.valid = true)
    (hp : s.port = e :: rest) : step s = runEvent e { s with port := rest } := by
  rw [step, onBlock_valid hc, takeEvent, hp]

/-- Settles O6: the step takes the event, and the decoder's instruction runs on what is left. -/
theorem stepRunsDecodedCommand : Obligations.StepRunsDecodedCommand := by
  intro s hc
  refine ⟨fun w data rest i hp hd => ⟨(legalWordsEncodeBack w data i hd).1, ?_⟩, fun rest hp => step_takes hc hp,
    fun hp => ?_⟩
  · rw [step_takes hc hp, runEvent, hd]
  · rw [step, onBlock_valid hc, takeEvent, hp]

/-- The first fault of a block sets its own bit alone (R107, R803). -/
theorem raise_unfaulted {s : State} (hf : s.fault = 0) (k : FaultKind) (info : Word) :
    s.raise k info
      = { s with fault := k.mask, faultInfo := info, responses := s.responses ++ [⟨.faulted, 0⟩] } := by
  simp [State.raise, State.respond, hf]

/-- Settles O50: an illegal word does not decode, and the port rejects it. -/
theorem illegalWordFaults : Obligations.IllegalWordFaults := by
  intro s w data rest hs hp hill
  have hready : State.Ready { s with port := rest } := ⟨hs.cfg_valid, hs.unfaulted⟩
  rw [step_takes hs.cfg_valid hp, runEvent, decode]
  cases hd : decodeHost w data with
  | ok i => exact absurd hill (decodeHost_ok_legal hd)
  | error e => exact (rejectWord_ready hready w).trans (congrArg _ (raise_unfaulted hready.unfaulted _ w))

theorem toNat_hostWord (o : BitVec 4) (a : Half) (d : Byte) :
    (hostWord o a d).toNat = 0x10000000 * o.toNat + 256 * a.toNat + d.toNat := by
  rw [hostWord, toNat_append, toNat_append, toNat_append, BitVec.toNat_ofNat]
  omega

/-- Settles O18: the count is checked first, and the information is the PUSH word of `len`. -/
theorem pushCountMismatchFaults : Obligations.PushCountMismatchFaults := by
  intro s len data hs hlen
  refine ⟨hostWord 1 len 0, ?_, by simp [toNat_hostWord]⟩
  rw [exec_push_ready hs, if_pos hlen, raise_unfaulted hs.unfaulted]
  rfl

/-! ### Words and wire bytes written out -/

/-- Settles O1, by evaluating the decoder on each word. -/
theorem decodeWordsFromSpec : Obligations.DecodeWordsFromSpec :=
  ⟨by decide, by decide, by decide, by decide, by decide, by decide, by decide⟩

/-- Settles O5: the two bytes of a field are its low and its high byte, and the head byte alone tells SOF from junk. -/
theorem wireUnitFields : Obligations.WireUnitFields := by
  refine ⟨fun c0 c1 l0 l1 q k rest => ⟨le16 c0 c1, le16 l0 l1, by simp [decodeWire], le16_toNat c0 c1, le16_toNat l0 l1⟩,
    fun b rest hb => decodeWire_junk hb rest, fun rest hlen => ?_⟩
  simp only [decodeWire, if_pos]
  split
  · simp only [List.length_cons] at hlen
    omega
  · rfl

/-! ### A pass on the unit at the head -/

section
variable {s : State}

theorem scan_eq_found_zero {v : Nat} (hv : 0 < v) (h0 : s.byteAt 0 = some sof) : s.scan v = .found 0 := by
  cases v with
  | zero => exact absurd hv (Nat.lt_irrefl 0)
  | succ v => simp [State.scan, State.scanFor, h0]

/-- A ring that is not empty has a readable view of at least one committed byte (R409 (1)). -/
theorem rview_bounds (hi : s.Inv) (ha : 0 < s.avail) : 0 < s.rview ∧ s.rview ≤ s.avail := by
  have hr := hi.rd_lt
  have hav := avail_eq hr hi.wr_lt
  unfold State.rview
  split at hav <;> split <;> omega

/-- With SOF at the head a pass parses (R601). -/
theorem drainPass_of_sof (hi : s.Inv) (ha : headerSize ≤ s.avail) (h0 : s.byteAt 0 = some sof) :
    drainPass s = afterParse s (parseFrame s) := by
  have hpos : 0 < s.avail := by unfold headerSize at ha; omega
  have hscan := scan_eq_found_zero (rview_bounds hi hpos).1 h0
  rcases drainPass_cases s with ⟨hlt, -⟩ | ⟨-, -, he⟩ | ⟨-, hne, -⟩
  · omega
  · exact he
  · exact absurd hscan hne

/-- With another byte at the head a pass drops junk (R601, R603). -/
theorem drainPass_of_not_sof (ha : headerSize ≤ s.avail) (h0 : s.byteAt 0 ≠ some sof) :
    drainPass s = afterScan s (s.scan s.rview) := by
  rcases drainPass_cases s with ⟨hlt, -⟩ | ⟨-, hscan, -⟩ | ⟨-, -, he⟩
  · omega
  · exact absurd (scan_found_zero hscan).2 h0
  · exact he

theorem byteAt_of_peek_cons {j n : Nat} {b : Byte} {bs : List Byte} (h : s.peek j n = .ok (b :: bs)) :
    s.byteAt j = some b := (peek_ok.mp h).2 0 (Nat.zero_lt_succ _)

/-- Settles O7: the head byte decides both what the bytes decode to and what the pass does. -/
theorem drainPassRunsDecodedUnit : Obligations.DrainPassRunsDecodedUnit := by
  intro s hi hf ha
  have hready := hi.ready hf
  have hjunk : ∀ b, s.byteAt 0 = some b → b ≠ sof → (drainPass s).result = exec (.junk b) s := fun b h0 hb => by
    rw [exec_junk_ready hready ha, drainPass_of_not_sof ha (by simpa [h0] using hb)]
  refine ⟨fun h i hp hd => ?_, hjunk⟩
  cases h with
  | nil => cases hd
  | cons b rest =>
    have h0 := byteAt_of_peek_cons hp
    by_cases hb : b = sof
    · subst hb
      obtain ⟨c0, c1, l0, l1, seq, crc, -, hw⟩ := decodeWire_header (peek_ok.mp hp).1 rfl
      have hparse : parseFrame s = checkFrame (le16 c0 c1) (le16 l0 l1) seq crc s := by simp only [parseFrame, hp, hw]
      cases hw.symm.trans hd
      rw [drainPass_of_sof hi ha h0, hparse, exec_frame_ready hready ha]
    · cases (decodeWire_junk hb rest).symm.trans hd
      exact hjunk b h0 hb

/-! ### The CRC16 check -/

/-- A whole frame with a good header comes to its CRC16 check (R606, R608, R609). -/
theorem checkFrame_complete {cmd len : Half} {seq crc : Byte} (hc : crc8 (headerBody cmd len seq) = crc)
    (hm : len.toNat ≤ s.cfg.maxPayload) (ha : headerSize + len.toNat + tailSize ≤ s.avail) :
    checkFrame cmd len seq crc s = checkTail cmd len s := by
  rw [checkFrame, if_neg (not_not.mpr hc), if_neg (Nat.not_lt.mpr hm), if_neg (Nat.not_lt.mpr ha)]

theorem checkTail_of_crc_ne {cmd len : Half} {covered tail : List Byte}
    (hcovered : s.peek 0 (headerSize + len.toNat) = .ok covered)
    (htail : s.peek (headerSize + len.toNat) tailSize = .ok tail) (hne : crc16 covered ≠ fieldAt tail 0) :
    checkTail cmd len s = .failure := by
  simp only [checkTail, hcovered, htail, if_pos hne]

theorem discard_rd_toNat (hi : s.Inv) (n : Nat) : (s.discard n).rd.toNat = (s.rd.toNat + n) % s.ringSize :=
  ringIndex_toNat hi.size_le hi.size_pos _

/-- Settles O34: the frame passes the checks before the CRC16's, fails that one, and a failure drops one byte. -/
theorem frameTailMismatchDropsOneByte : Obligations.FrameTailMismatchDropsOneByte := by
  intro s cmd len seq crc t0 t1 covered hi hf hc hm ha hp hne
  rw [show 9 + len.toNat = headerSize + len.toNat + tailSize by unfold headerSize tailSize; omega] at ha hp
  have hlen : covered.length = headerSize + len.toNat := by
    have hl := (peek_ok.mp hp).1
    rw [List.length_append] at hl
    exact Nat.add_right_cancel hl
  obtain ⟨hcovered, htail⟩ := peek_append hp hlen
  rw [Nat.zero_add] at htail
  have hfield : crc16 covered ≠ fieldAt [t0, t1] 0 := fun h => hne (by rw [h]; exact le16_toNat t0 t1)
  have hfail : checkFrame cmd len seq crc s = .failure :=
    (checkFrame_complete hc hm ha).trans (checkTail_of_crc_ne hcovered htail hfield)
  have h7 : headerSize ≤ s.avail := by omega
  have hav := avail_discard (n := 1) hi.size_le hi.rd_lt hi.wr_lt (by unfold headerSize at h7; omega)
  refine ⟨s.discard 1, ?_, rfl, discard_rd_toNat hi 1, ?_⟩
  · rw [exec_frame_ready (hi.ready hf) h7, hfail]
    rfl
  · unfold headerSize at h7
    omega

end

/-! ### The fields of a constructed frame -/

/-- The two bytes behind `a` are the field at its length. -/
theorem fieldAt_append (a : List Byte) (lo hi : Byte) (rest : List Byte) :
    fieldAt (a ++ lo :: hi :: rest) a.length = le16 lo hi := by
  simp [fieldAt]

section
variable (cmd : Half) (seq : Byte) (p rest : List Byte)

theorem length_frameBytes : (frameBytes cmd seq p).length = 9 + p.length := by
  rw [frameBytes_eq, List.length_append, length_frameCovered]
  simp only [headerSize, List.length_cons, List.length_nil]
  omega

theorem fieldAt_frameBytes_cmd : fieldAt (frameBytes cmd seq p ++ rest) 1 = cmd := le16_bytes cmd

theorem fieldAt_frameBytes_len : fieldAt (frameBytes cmd seq p ++ rest) 3 = BitVec.ofNat 16 p.length := le16_bytes _

theorem take_frameBytes : (frameBytes cmd seq p ++ rest).take (headerSize + p.length) = frameCovered cmd seq p := by
  rw [frameBytes_eq, List.append_assoc, List.take_left' (length_frameCovered cmd seq p)]

theorem fieldAt_frameBytes_tail :
    fieldAt (frameBytes cmd seq p ++ rest) (headerSize + p.length) = crc16 (frameCovered cmd seq p) := by
  rw [frameBytes_eq, List.append_assoc, ← length_frameCovered cmd seq p]
  exact (fieldAt_append _ _ _ rest).trans (le16_bytes _)

theorem take_drop_frameBytes : ((frameBytes cmd seq p).drop headerSize).take p.length = p :=
  List.take_left' (l₁ := p) rfl

end

/-- Settles O39, check by check on the fields of the frame. -/
theorem constructedFramesAreValid : Obligations.ConstructedFramesAreValid := by
  intro maxp cmd seq p rest hmax hp
  have hlen : (BitVec.ofNat 16 p.length).toNat = p.length := Nat.mod_eq_of_lt (by omega)
  have hl := length_frameBytes cmd seq p
  refine ⟨?_, hl⟩
  simp only [startsValid, fieldAt_frameBytes_len, hlen, take_frameBytes, fieldAt_frameBytes_tail, Bool.and_eq_true,
    beq_iff_eq, decide_eq_true_eq, List.length_append, hl]
  refine ⟨⟨⟨⟨⟨rfl, ?_⟩, rfl⟩, hp⟩, ?_⟩, trivial⟩
  · unfold headerSize; omega
  · unfold headerSize tailSize; omega

/-! ### What a parse dispatches is a constructed frame -/

section
variable {s t : State} {cmd : Half} {seq : Byte} {p : List Byte}

/-- Peeks of two ranges in a row are one peek. -/
theorem peek_concat {j m n : Nat} {a b : List Byte} (ha : s.peek j m = .ok a) (hb : s.peek (j + m) n = .ok b) :
    s.peek j (m + n) = .ok (a ++ b) := by
  obtain ⟨hla, hka⟩ := peek_ok.mp ha
  obtain ⟨hlb, hkb⟩ := peek_ok.mp hb
  refine peek_ok.mpr ⟨by rw [List.length_append, hla, hlb], fun k hk => ?_⟩
  rw [List.length_append] at hk
  by_cases hkm : k < a.length
  · rw [List.getElem_append_left hkm, hka k hkm]
  · rw [List.getElem_append_right (by omega), ← hkb (k - a.length) (by omega)]
    exact congrArg _ (by omega)

/-- The header and the payload of a constructed frame at the head. -/
theorem peek_frameBytes (h : s.peek 0 (9 + p.length) = .ok (frameBytes cmd seq p)) :
    s.peek 0 headerSize = .ok (headerBody cmd (BitVec.ofNat 16 p.length) seq
        ++ [crc8 (headerBody cmd (BitVec.ofNat 16 p.length) seq)])
      ∧ s.peek headerSize p.length = .ok p := by
  rw [show 9 + p.length = headerSize + p.length + tailSize by unfold headerSize tailSize; omega, frameBytes_eq] at h
  obtain ⟨hcovered, -⟩ := peek_append h (length_frameCovered cmd seq p)
  obtain ⟨hheader, hpayload⟩ := peek_append hcovered rfl
  rw [Nat.zero_add] at hpayload
  exact ⟨hheader, hpayload⟩

theorem byteAt_zero_of_frameBytes (h : s.peek 0 (9 + p.length) = .ok (frameBytes cmd seq p)) : s.byteAt 0 = some sof :=
  byteAt_of_peek_cons (peek_frameBytes h).1

theorem frameAtHead_frameBytes (hp : p.length < 65536) (h : s.peek 0 (9 + p.length) = .ok (frameBytes cmd seq p)) :
    s.frameAtHead = some ⟨cmd, p⟩ := by
  obtain ⟨hheader, hpayload⟩ := peek_frameBytes h
  have hlen : (BitVec.ofNat 16 p.length).toNat = p.length := Nat.mod_eq_of_lt hp
  have hat := frameAtHead_eq hheader (p := p) (by rwa [le16_bytes, hlen])
  rwa [le16_bytes] at hat

/-- A parse that returns SUCCESS has read a header at the head, so a SOF (R606). -/
theorem parseFrame_success_byteAt_zero (h : parseFrame s = .success t) : s.byteAt 0 = some sof := by
  unfold parseFrame at h
  cases hp : s.peek 0 headerSize with
  | error c => simp [hp] at h
  | ok bs =>
    cases bs with
    | nil => simp [hp, decodeWire] at h
    | cons b bs =>
      have h0 := byteAt_of_peek_cons hp
      by_cases hb : b = sof
      · rw [h0, hb]
      · simp [hp, decodeWire_junk hb] at h

/-- Bytes that pass both checksums and hold as much payload as their length field says are what the constructor builds
(R304, R306). -/
theorem frameBytes_of_checks {c0 c1 l0 l1 seq crc t0 t1 : Byte} {p : List Byte}
    (hcrc : crc8 (headerBody (le16 c0 c1) (le16 l0 l1) seq) = crc) (hlen : BitVec.ofNat 16 p.length = le16 l0 l1)
    (hc16 : crc16 ([sof, c0, c1, l0, l1, seq, crc] ++ p) = le16 t0 t1) :
    frameBytes (le16 c0 c1) seq p = [sof, c0, c1, l0, l1, seq, crc] ++ p ++ [t0, t1] := by
  have hcovered : frameCovered (le16 c0 c1) seq p = [sof, c0, c1, l0, l1, seq, crc] ++ p := by
    rw [frameCovered, hlen, hcrc]
    simp [headerBody]
  rw [frameBytes_eq, hcovered, hc16, lowByte_le16, highByte_le16]

/-- The checks of a parse admit only what the sender's constructor builds: the bytes at the head are
`FRAME(cmd, seq, p)` for the cmd and payload dispatched (R304, R604). -/
theorem parseFrame_success_frameBytes (h : parseFrame s = .success t) :
    ∃ cmd seq p, p.length ≤ s.cfg.maxPayload ∧ 9 + p.length ≤ s.avail
      ∧ s.peek 0 (9 + p.length) = .ok (frameBytes cmd seq p)
      ∧ dispatch cmd (BitVec.ofNat 16 p.length) p s = .success t := by
  rcases parseFrame_cases (parseFrame_success_byteAt_zero h) with ⟨_, -, -, he⟩ | ⟨c0, c1, l0, l1, seq, crc, hheader, he⟩
    <;> rw [he] at h
  · cases h
  · obtain ⟨hcrc, hm, ha, covered, tail, hcovered, htail, hc16, hd⟩ := checkFrame_success h
    obtain ⟨p, rfl⟩ : ∃ p, covered = [sof, c0, c1, l0, l1, seq, crc] ++ p := by
      have hl := (peek_ok.mp hcovered).1
      rw [← List.take_append_drop 7 covered] at hcovered
      obtain ⟨hhead, -⟩ := peek_append hcovered (by rw [List.length_take]; omega)
      have htake : covered.take 7 = [sof, c0, c1, l0, l1, seq, crc] := Except.ok.inj (hhead.symm.trans hheader)
      exact ⟨covered.drop 7, by rw [← htake, List.take_append_drop]⟩
    have hlen : p.length = (le16 l0 l1).toNat :=
      Nat.add_left_cancel (List.length_append.symm.trans (peek_ok.mp hcovered).1)
    have hof : BitVec.ofNat 16 p.length = le16 l0 l1 := by rw [hlen, BitVec.ofNat_toNat, BitVec.setWidth_eq]
    have hframe : frameBytes (le16 c0 c1) seq p = [sof, c0, c1, l0, l1, seq, crc] ++ p ++ tail := by
      match tail, (peek_ok.mp htail).1 with
      | [t0, t1], _ => exact frameBytes_of_checks hcrc hof hc16
    refine ⟨le16 c0 c1, seq, p, by omega, by omega, ?_, by rwa [hof]⟩
    rw [hframe, hlen, show 9 + (le16 l0 l1).toNat = 7 + (le16 l0 l1).toNat + 2 by omega]
    exact peek_concat hcovered (by rwa [Nat.zero_add])

/-- A pass that goes on and has dispatched, or has changed the arena, has run a parse to SUCCESS (R611). -/
theorem parseFrame_success_of_drainPass (h : drainPass s = .again t)
    (hd : s.passDispatches ≠ [] ∨ t.arena ≠ s.arena) : parseFrame s = .success t := by
  rcases drainPass_cases s with ⟨-, he⟩ | ⟨-, -, he⟩ | ⟨ha, hscan, he⟩ <;> rw [he] at h
  · cases h
  · cases hp : parseFrame s <;> rw [hp] at h <;> cases h
    case success.refl => rfl
    case failure.refl => simp [State.passDispatches, State.parseDispatches, hp] at hd
  · have harena : t.arena = s.arena := by
      cases hr : s.scan s.rview <;> rw [hr] at h <;> cases h <;> rfl
    simp [State.passDispatches, hscan, harena] at hd

/-- Settles O38: a successful parse has a constructed frame at the head, and constructed frames are valid. -/
theorem dispatchedImpliesValid : Obligations.DispatchedImpliesValid := by
  intro s t hi h
  have hparse : parseFrame s = .success t := h.elim id fun ⟨hpass, hd⟩ => parseFrame_success_of_drainPass hpass hd
  obtain ⟨cmd, seq, p, hm, ha, hp, hdispatch⟩ := parseFrame_success_frameBytes hparse
  have hmax := maxFrame_le hi.cfg_valid
  have hN : s.cfg.ringSize ≤ 32768 := hi.size_le
  have hlen : (BitVec.ofNat 16 p.length).toNat = p.length := Nat.mod_eq_of_lt (by omega)
  obtain ⟨hvalid, hl⟩ := constructedFramesAreValid s.cfg.maxPayload cmd seq p [] (by omega) hm
  have hcmd := fieldAt_frameBytes_cmd cmd seq p []
  have hfield := fieldAt_frameBytes_len cmd seq p []
  rw [List.append_nil] at hvalid hcmd hfield
  have h0 := byteAt_zero_of_frameBytes hp
  have h7 : headerSize ≤ s.avail := by unfold headerSize; omega
  have hscan := scan_eq_found_zero (rview_bounds hi (by omega)).1 h0
  have hrd : t.rd = (s.discard (9 + p.length)).rd := by
    rcases dispatch_success hi.size_le hi.size_pos hdispatch with ⟨_, -, -, rfl⟩ | ⟨-, rfl⟩ <;> rw [hlen]
    rfl
  refine ⟨frameBytes cmd seq p, by rwa [hl], by omega, hvalid, by rw [hl, hfield, hlen], ?_, ?_, ?_⟩
  · rw [hrd, hl, discard_rd_toNat hi]
  · rw [drainPass_of_sof hi h7 h0, hparse]
    rfl
  · rw [hcmd, hfield, hlen, take_drop_frameBytes]
    simp [State.passDispatches, State.parseDispatches, Nat.not_lt.mpr h7, hscan, hparse,
      frameAtHead_frameBytes (by omega) hp]

end

/-! ### The slot of a registered cmd -/

theorem le_alignUp {x a : Nat} (ha : 0 < a) : x ≤ alignUp x a := by
  have hdiv := Nat.div_add_mod (x + a - 1) a
  have hmod := Nat.mod_lt (x + a - 1) ha
  rw [Nat.mul_comm] at hdiv
  unfold alignUp
  omega

theorem le_endFrom : ∀ {es : List Entry} {cursor : Nat}, (∀ e ∈ es, 0 < e.align) → cursor ≤ endFrom cursor es
  | [], _, _ => Nat.le_refl _
  | e :: es, cursor, h => by
    have hstart := le_alignUp (x := cursor) (h e List.mem_cons_self)
    have hrest := le_endFrom (es := es) (cursor := alignUp cursor e.align + e.size)
      fun e he => h e (List.mem_cons_of_mem _ he)
    rw [endFrom]
    omega

/-- A slot holds an entry of the registry and ends before the layout does (R502, R503). -/
theorem mem_slotsFrom {slot : Slot} : ∀ {es : List Entry} {cursor : Nat}, (∀ e ∈ es, 0 < e.align) →
    slot ∈ slotsFrom cursor es → slot.entry ∈ es ∧ slot.offset + slot.entry.size ≤ endFrom cursor es
  | [], _, _, hs => absurd hs List.not_mem_nil
  | e :: es, cursor, h, hs => by
    have hes : ∀ e ∈ es, 0 < e.align := fun e he => h e (List.mem_cons_of_mem _ he)
    rcases List.mem_cons.mp hs with rfl | hs
    · exact ⟨List.mem_cons_self, le_endFrom hes⟩
    · obtain ⟨hmem, hend⟩ := mem_slotsFrom hes hs
      exact ⟨List.mem_cons_of_mem _ hmem, hend⟩

theorem size_le_maxPayload {c : Config} {e : Entry} (h : e ∈ c.registry) : e.size ≤ c.maxPayload := by
  unfold Config.maxPayload
  generalize c.registry = entries at h ⊢
  induction entries with
  | nil => exact absurd h List.not_mem_nil
  | cons d es ih =>
    rw [List.foldr_cons]
    rcases List.mem_cons.mp h with rfl | h
    · exact Nat.le_max_left _ _
    · exact (ih h).trans (Nat.le_max_right _ _)

/-- The slot of a known cmd lies inside the arena, and its size is a payload's (R504, R506, R507). -/
theorem slotOf_bounds {c : Config} {cmd : Half} {slot : Slot} (hc : c.valid = true) (h : c.slotOf cmd = some slot) :
    slot.offset + slot.entry.size ≤ c.total ∧ slot.entry.size ≤ c.maxPayload := by
  obtain ⟨-, -, -, -, -, halign, -⟩ := valid_checks hc
  have hpos : ∀ e ∈ c.registry, 0 < e.align := fun e he => by
    rw [beq_iff_eq.mp (List.all_eq_true.mp halign e he)]
    exact Nat.two_pow_pos _
  obtain ⟨hmem, hend⟩ := mem_slotsFrom hpos (List.mem_of_find?_eq_some h)
  exact ⟨hend, size_le_maxPayload hmem⟩

/-! ### What a PUSH commits -/

section
variable {s : State} {d : List Byte}

theorem avail_ringWrite (hi : s.Inv) (hd : d.length ≤ s.space) : (s.ringWrite d).avail = s.avail + d.length :=
  avail_of_wr hi.rd_lt hi.wr_lt hd (ringIndex_toNat hi.size_le hi.size_pos _)

/-- The bytes of a ring write stand behind those committed before (R403). -/
theorem peek_ringWrite (hi : s.Inv) (hd : d.length ≤ s.space) : (s.ringWrite d).peek s.avail d.length = .ok d := by
  refine peek_ok.mpr ⟨rfl, fun k hk => ?_⟩
  have hcell : (s.ringWrite d).cellAt (s.avail + k) = (s.wr.toNat + k) % s.ringSize := by
    rw [ringWrite_cellAt, State.cellAt, wr_eq hi.rd_lt hi.wr_lt, mod_add_mod, Nat.add_assoc]
  have hfit : d.length ≤ s.ringSize := by unfold State.space at hd; omega
  rw [State.byteAt, State.ringCell, hcell]
  exact read_writeRing_inside hk hfit hi.ring_wf

end

/-! ### The drain of junk and a frame -/

section
variable {s : State} {cmd : Half} {seq : Byte} {p : List Byte} {slot : Slot}

/-- A pass on junk drops some of it, never the SOF behind it (R603). -/
theorem drainPass_junk (hi : s.Inv) (h7 : headerSize ≤ s.avail) {k : Nat} (hk : 0 < k)
    (hjunk : ∀ j < k, ∃ c, s.byteAt j = some c ∧ c ≠ sof) (hsof : s.byteAt k = some sof) :
    ∃ m, 0 < m ∧ m ≤ k ∧ drainPass s = .again (s.discard m) := by
  have hview := rview_bounds hi (by unfold headerSize at h7; omega)
  have hhead : s.byteAt 0 ≠ some sof := by
    obtain ⟨c, hc, hne⟩ := hjunk 0 hk
    simpa [hc] using hne
  have hpast : ∀ {v}, (∀ i < v, ∃ c, s.byteAt (0 + i) = some c ∧ c ≠ sof) → v ≤ k := fun {v} hv => by
    by_contra hlt
    obtain ⟨c, hc, hne⟩ := hv k (by omega)
    rw [Nat.zero_add, hsof] at hc
    exact hne (Option.some.inj hc).symm
  have hspec := scanFor_spec (s := s) (b := sof) (n := s.rview) (j := 0)
  rw [drainPass_of_not_sof h7 hhead, State.scan]
  cases hr : s.scanFor sof 0 s.rview with
  | undef c =>
    rw [hr] at hspec
    obtain ⟨i, -, hundef, -, hbefore⟩ := hspec
    rw [Nat.zero_add] at hundef
    rcases Nat.lt_or_eq_of_le (hpast hbefore) with hlt | rfl
    · obtain ⟨c, hc, -⟩ := hjunk i hlt
      rw [hundef] at hc
      cases hc
    · rw [hundef] at hsof
      cases hsof
  | notFound =>
    rw [hr] at hspec
    exact ⟨s.rview, hview.1, hpast hspec, rfl⟩
  | found m =>
    rw [hr] at hspec
    obtain ⟨i, -, rfl, hfound, hbefore⟩ := hspec
    rw [Nat.zero_add] at hfound ⊢
    refine ⟨i, Nat.pos_of_ne_zero fun h => hhead (h ▸ hfound), hpast hbefore, rfl⟩

/-- A pass on a constructed frame of a known cmd stores its payload and drops it whole (R510). -/
theorem drainPass_frame (hi : s.Inv) (hm : p.length ≤ s.cfg.maxPayload) (ha : 9 + p.length ≤ s.avail)
    (hp : s.peek 0 (9 + p.length) = .ok (frameBytes cmd seq p)) (hslot : s.cfg.slotOf cmd = some slot)
    (hfit : slot.offset + p.length ≤ s.cfg.total) :
    drainPass s = .again ((s.discard (9 + p.length)).storeArena slot.offset p) := by
  have hlen : (BitVec.ofNat 16 p.length).toNat = p.length :=
    toNat_ofNat_of_le_ringSize hi (by have := avail_lt hi.size_pos; omega)
  have hdispatch := dispatch_known (p := p) (len := BitVec.ofNat 16 p.length) hi hslot (by rwa [hlen])
  have hparse : parseFrame s = dispatch cmd (BitVec.ofNat 16 p.length) p s := by
    simp only [parseFrame, (peek_frameBytes hp).1, decodeWire_headerBody, checkFrame_frameBytes hi hm ha hp]
  rw [drainPass_of_sof hi (by unfold headerSize; omega) (byteAt_zero_of_frameBytes hp), hparse, hdispatch, hlen]
  rfl

theorem drain_of_short {n : Nat} (hn : 0 < n) (h : s.avail < headerSize) : drain n s = .done s := by
  cases n with
  | zero => exact absurd hn (Nat.lt_irrefl 0)
  | succ n => rw [drain_succ, drainPass, if_pos h]

end

/-- The committed bytes are junk without SOF and then `FRAME(cmd, seq, p)`, for a cmd whose slot has room for `p`. -/
structure State.HoldsFrame (s : State) (slot : Slot) (cmd : Half) (seq : Byte) (j p : List Byte) : Prop where
  avail_eq : s.avail = j.length + (9 + p.length)
  bytes : s.peek 0 (j.length + (9 + p.length)) = .ok (j ++ frameBytes cmd seq p)
  junk : ∀ b ∈ j, b ≠ sof
  bounded : p.length ≤ s.cfg.maxPayload
  known : s.cfg.slotOf cmd = some slot
  fits : slot.offset + p.length ≤ s.cfg.total

section
variable {s : State} {slot : Slot} {cmd : Half} {seq : Byte} {j p : List Byte}

/-- Dropping junk leaves the rest of the junk and the frame. -/
theorem State.HoldsFrame.discard (hi : s.Inv) (h : s.HoldsFrame slot cmd seq j p) {m : Nat} (hm : m ≤ j.length) :
    (s.discard m).HoldsFrame slot cmd seq (j.drop m) p where
  avail_eq := by
    rw [avail_discard hi.size_le hi.rd_lt hi.wr_lt (by have := h.avail_eq; omega), h.avail_eq, List.length_drop]
    omega
  bytes := by
    have hbytes := h.bytes
    rw [← List.take_append_drop m j, List.append_assoc, List.take_append_drop,
      show j.length + (9 + p.length) = m + ((j.drop m).length + (9 + p.length)) by rw [List.length_drop]; omega] at hbytes
    rw [peek_discard hi.size_le hi.size_pos, Nat.add_comm]
    exact (peek_append hbytes (List.length_take_of_le hm)).2
  junk := fun b hb => h.junk b (List.mem_of_mem_drop hb)
  bounded := h.bounded
  known := h.known
  fits := h.fits

/-- One pass: it drops some of the junk, or dispatches the frame if no junk is left. -/
theorem State.HoldsFrame.pass_cases (hi : s.Inv) (h : s.HoldsFrame slot cmd seq j p) :
    (∃ m, 0 < m ∧ m ≤ j.length ∧ drainPass s = .again (s.discard m))
      ∨ (j = [] ∧ drainPass s = .again ((s.discard (9 + p.length)).storeArena slot.offset p)) := by
  have havail := h.avail_eq
  cases j with
  | nil =>
    have hbytes := h.bytes
    rw [List.length_nil, Nat.zero_add] at hbytes havail
    exact .inr ⟨rfl, drainPass_frame hi h.bounded (by omega) hbytes h.known h.fits⟩
  | cons b j =>
    obtain ⟨hjunk, hframe⟩ := peek_append h.bytes rfl
    rw [Nat.zero_add] at hframe
    refine .inl (drainPass_junk hi (by unfold headerSize; omega) (Nat.zero_lt_succ _) (fun k hk => ?_)
      (byteAt_of_peek_cons hframe))
    refine ⟨(b :: j)[k], ?_, h.junk _ (List.getElem_mem hk)⟩
    rw [← (peek_ok.mp hjunk).2 k hk, Nat.zero_add]

/-- The drain: passes drop the junk, in as many parts as the wrap cuts it into, then one dispatches the frame, and the
ring is empty. -/
theorem State.HoldsFrame.drain_done : ∀ {n : Nat} {s : State} {j : List Byte}, s.Inv → s.HoldsFrame slot cmd seq j p →
    s.avail < n → drain n s = .done ((s.discard (j.length + (9 + p.length))).storeArena slot.offset p)
  | 0, _, _, _, _, hn => absurd hn (Nat.not_lt_zero _)
  | n + 1, s, j, hi, h, hn => by
    have havail := h.avail_eq
    rw [drain_succ]
    rcases h.pass_cases hi with ⟨m, hpos, hm, hpass⟩ | ⟨rfl, hpass⟩ <;> rw [hpass]
    · have hrest := h.discard hi hm
      have hlt := drainPass_again_avail_lt hi hpass
      have ih := hrest.drain_done (n := n) (discard_inv hi m) (by omega)
      rw [discard_discard hi.size_le hi.size_pos, List.length_drop,
        show m + (j.length - m + (9 + p.length)) = j.length + (9 + p.length) by omega] at ih
      exact ih
    · rw [List.length_nil, Nat.zero_add] at havail ⊢
      refine drain_of_short (by omega) ?_
      rw [storeArena_avail, avail_discard hi.size_le hi.rd_lt hi.wr_lt (by omega), havail, Nat.sub_self]
      exact Nat.zero_lt_succ _

end

theorem length_junk_frame (cmd : Half) (seq : Byte) (j p : List Byte) :
    (j ++ frameBytes cmd seq p).length = j.length + (9 + p.length) := by
  rw [List.length_append, length_frameBytes]

/-- Junk and a frame written into an empty ring are its committed bytes. -/
theorem ringWrite_holdsFrame {s : State} {cmd : Half} {seq : Byte} {slot : Slot} {j p : List Byte} (hi : s.Inv)
    (hempty : s.avail = 0) (hslot : s.cfg.slotOf cmd = some slot) (hsize : p.length = slot.entry.size)
    (hjunk : ∀ b ∈ j, b ≠ sof) (hspace : (j ++ frameBytes cmd seq p).length ≤ s.space) :
    (s.ringWrite (j ++ frameBytes cmd seq p)).HoldsFrame slot cmd seq j p := by
  obtain ⟨hfits, hbounded⟩ := slotOf_bounds hi.cfg_valid hslot
  rw [← hsize] at hfits hbounded
  have havail := avail_ringWrite hi hspace
  have hbytes := peek_ringWrite hi hspace
  rw [hempty, length_junk_frame] at havail hbytes
  exact ⟨havail.trans (Nat.zero_add _), hbytes, hjunk, hbounded, hslot, hfits⟩

/-- Settles O30: the PUSH commits the junk and the frame, and their drain stores the payload in the slot of its cmd. -/
theorem pushedFrameReachesSlot : Obligations.PushedFrameReachesSlot := by
  intro s cmd seq slot j p hi hf hempty hslot hsize hjunk hspace
  have hholds := ringWrite_holdsFrame hi hempty hslot hsize hjunk hspace
  have hci := ringWrite_inv hi (j ++ frameBytes cmd seq p)
  have havail := hholds.avail_eq
  have hdrain := hholds.drain_done hci (Nat.lt_succ_self _)
  have hlength := length_junk_frame cmd seq j p
  generalize j ++ frameBytes cmd seq p = d at *
  have hlen : (BitVec.ofNat 16 d.length).toNat = d.length :=
    toNat_ofNat_of_le_ringSize hi (by unfold State.space at hspace; omega)
  refine ⟨(((s.ringWrite d).discard (j.length + (9 + p.length))).storeArena slot.offset p).respond .ok 0,
    ?_, rfl, hf, ?_, ?_, fun k hk => arenaByte_storeArena_inside (discard_inv hci _) hk,
    fun a ha => arenaByte_storeArena_outside ha⟩
  · rw [exec_push_ready (hi.ready hf), hlen, if_neg (not_not.mpr rfl), if_neg (Nat.not_lt.mpr hspace), drainAll, hdrain]
    rfl
  · rw [respond_avail, storeArena_avail, avail_discard hci.size_le hci.rd_lt hci.wr_lt (by omega), havail, Nat.sub_self]
  · rw [Nat.add_assoc j.length, ← hlength]
    exact ringIndex_toNat hi.size_le hi.size_pos _

end Sys2Proof.Machine
end

section
/-! PROOF. The ring (41_ring_buffer.md). The laws of its indices and views, what a byte search and a ring write do; then
where a drain meets `UNDEF`, from which the ends of PUSH and ADVANCE follow. -/

namespace Sys2Proof.Machine

/-! ### Indices and views -/

/-- Settles O10: both halves of the word are in range of their fields. -/
theorem wviewAnswers : Obligations.WviewAnswers := by
  intro s hi hf
  refine ⟨_, exec_wview_ready (hi.ready hf), ?_⟩
  obtain ⟨hview, -⟩ := wviewLen_bounds hi
  rw [toNat_append, toNat_ofNat_of_le_ringSize hi (by omega)]
  rfl

/-- Settles O14: one cell of the ring is written, and reads as the byte. -/
theorem vwriteStagesOneCell : Obligations.VwriteStagesOneCell := by
  intro s i b hi hf hview
  obtain ⟨hring, -⟩ := wviewLen_bounds hi
  refine ⟨by omega, (s.stage i.toNat b).respond .ok 0, ?_, rfl, read_write_same hi.ring_wf,
    fun p hp => read_write_other hp⟩
  rw [exec_vwrite_ready (hi.ready hf), if_neg (Nat.not_le.mpr hview)]

/-- Settles O16: with both indices 0 nothing is committed and the view runs to the last cell but one. -/
theorem clearEmptiesRing : Obligations.ClearEmptiesRing := by
  intro s hs
  have havail : s.clearRing.avail = 0 := by simp [State.avail]
  have hspace : s.clearRing.space = s.ringSize - 1 := by rw [State.space, havail]; rfl
  exact ⟨_, exec_clear_ready hs, rfl, havail, hspace, rfl⟩

theorem avail_commit {s : State} (hi : s.Inv) {n : Nat} (hn : n ≤ s.space) : (s.commit n).avail = s.avail + n :=
  avail_of_wr hi.rd_lt hi.wr_lt hn (ringIndex_toNat hi.size_le hi.size_pos _)

/-- The writable view is empty only when the ring is full: below that it has a cell, even at the wrap (R406, R409 (4)). -/
theorem wviewLen_eq_zero {s : State} (hi : s.Inv) : s.wviewLen = 0 ↔ s.space = 0 := by
  have hr := hi.rd_lt
  have hw := hi.wr_lt
  have ha := avail_eq hr hw
  unfold State.wviewLen State.space
  split at ha
  · split <;> omega
  · rw [if_neg (by omega), if_neg (by omega)]
    omega

/-- `WR` in the last cell with `RD` in the first is a full ring (R409 (4)). -/
theorem space_eq_zero_of_ends {s : State} (hi : s.Inv) (h : s.wr.toNat = s.ringSize - 1 ∧ s.rd.toNat = 0) :
    s.space = 0 := by
  have ha := avail_eq hi.rd_lt hi.wr_lt
  rw [if_pos (by omega)] at ha
  unfold State.space
  omega

/-- Settles O24, from the forms of `AVAIL` and of the views without a remainder. -/
theorem ringLaws : Obligations.RingLaws := by
  intro s hi
  have hfull : s.isFull = true ↔ s.space = 0 := beq_iff_eq
  have hends := space_eq_zero_of_ends hi
  refine ⟨?_, beq_iff_eq, hfull, rview_bounds hi, (wviewLen_bounds hi).2, ?_, hends,
    (wviewLen_eq_zero hi).trans hfull.symm, fun d => avail_ringWrite hi, fun n => avail_commit hi⟩
  · have := avail_lt hi.size_pos
    unfold State.space
    omega
  · rw [wviewLen_eq_zero hi]
    exact ⟨.inl, fun h => h.elim id hends⟩

/-! ### The byte search -/

section
variable {s : State} {b : Byte}

/-- A search goes past cells that hold another byte. -/
theorem scanFor_skip {n : Nat} : ∀ {k j : Nat}, (∀ i < k, ∃ c, s.byteAt (j + i) = some c ∧ c ≠ b) →
    s.scanFor b j (k + n) = s.scanFor b (j + k) n
  | 0, j, _ => by rw [Nat.zero_add, Nat.add_zero]
  | k + 1, j, h => by
    obtain ⟨c, hc, hne⟩ := h 0 (Nat.zero_lt_succ k)
    rw [Nat.add_zero] at hc
    have hrest : ∀ i < k, ∃ c, s.byteAt (j + 1 + i) = some c ∧ c ≠ b := fun i hi => by
      rw [Nat.add_right_comm]
      exact h (i + 1) (Nat.succ_lt_succ hi)
    rw [Nat.add_right_comm k, State.scanFor, hc, Nat.add_comm k 1, ← Nat.add_assoc, ← scanFor_skip hrest]
    exact if_neg hne

/-- The search comes to offset `j` with a cell still to examine there. -/
theorem scanFor_at {n j : Nat} (hj : j < n) (h : ∀ i < j, ∃ c, s.byteAt i = some c ∧ c ≠ b) :
    ∃ m, s.scanFor b 0 n = s.scanFor b j (m + 1) := by
  refine ⟨n - j - 1, ?_⟩
  rw [show n = j + (n - j - 1 + 1) by omega, scanFor_skip (by simpa using h), Nat.zero_add]
  congr 1
  omega

theorem scanFor_eq_found {n j : Nat} : s.scanFor b 0 n = .found j ↔
    j < n ∧ s.byteAt j = some b ∧ ∀ i < j, ∃ c, s.byteAt i = some c ∧ c ≠ b := by
  constructor
  · intro h
    have hspec := scanFor_spec (s := s) (b := b) (n := n) (j := 0)
    rw [h] at hspec
    simpa using hspec
  · rintro ⟨hj, hb, hbefore⟩
    obtain ⟨m, hm⟩ := scanFor_at hj hbefore
    simp [hm, State.scanFor, hb]

theorem scanFor_eq_notFound {n : Nat} : s.scanFor b 0 n = .notFound ↔
    ∀ i < n, ∃ c, s.byteAt i = some c ∧ c ≠ b := by
  constructor
  · intro h
    have hspec := scanFor_spec (s := s) (b := b) (n := n) (j := 0)
    rw [h] at hspec
    simpa using hspec
  · intro h
    exact scanFor_skip (n := 0) (by simpa using h)

theorem scanFor_eq_undef {n p : Nat} : s.scanFor b 0 n = .undef p ↔
    ∃ j < n, s.byteAt j = none ∧ p = s.cellAt j ∧ ∀ i < j, ∃ c, s.byteAt i = some c ∧ c ≠ b := by
  constructor
  · intro h
    have hspec := scanFor_spec (s := s) (b := b) (n := n) (j := 0)
    rw [h] at hspec
    simpa using hspec
  · rintro ⟨j, hj, hb, rfl, hbefore⟩
    obtain ⟨m, hm⟩ := scanFor_at hj hbefore
    simp [hm, State.scanFor, hb]

end

/-- Settles O25: the search of the committed bytes is a search of `AVAIL` cells from offset 0. -/
theorem findByteFindsFirst : Obligations.FindByteFindsFirst :=
  fun _ _ => ⟨fun _ => scanFor_eq_found, scanFor_eq_notFound, fun _ => scanFor_eq_undef⟩

/-! ### The cells of a ring write -/

section
variable {s : State} {d : List Byte}

theorem length_le_ringSize (hd : d.length ≤ s.space) : d.length ≤ s.ringSize := by
  unfold State.space at hd
  omega

theorem ringCell_ringWrite_inside (hi : s.Inv) (hd : d.length ≤ s.space) {k : Nat} (hk : k < d.length) :
    (s.ringWrite d).ringCell ((s.wr.toNat + k) % s.ringSize) = some d[k] :=
  read_writeRing_inside hk (length_le_ringSize hd) hi.ring_wf

theorem ringCell_ringWrite_outside {p : Nat} (hp : ∀ k < d.length, p ≠ (s.wr.toNat + k) % s.ringSize) :
    (s.ringWrite d).ringCell p = s.ringCell p :=
  read_writeRing_outside hp

/-- The bytes written are the last committed ones. -/
theorem byteAt_ringWrite_new (hi : s.Inv) (hd : d.length ≤ s.space) {k : Nat} (hk : k < d.length) :
    (s.ringWrite d).byteAt (s.avail + k) = some d[k] :=
  (peek_ok.mp (peek_ringWrite hi hd)).2 k hk

/-- A free cell is no committed one, so a committed byte stays. -/
theorem byteAt_ringWrite_old (hi : s.Inv) (hd : d.length ≤ s.space) {j : Nat} (hj : j < s.avail) :
    (s.ringWrite d).byteAt j = s.byteAt j := by
  have hav := avail_lt hi.size_pos
  refine ringCell_ringWrite_outside fun k hk heq => ?_
  rw [ringWrite_cellAt, State.cellAt, wr_eq hi.rd_lt hi.wr_lt, mod_add_mod, Nat.add_assoc] at heq
  unfold State.space at hd
  have := cell_inj hi.rd_lt (by omega) (by omega) heq
  omega

end

/-- Settles O19, clause by clause. -/
theorem ringWriteCommitsBytes : Obligations.RingWriteCommitsBytes := fun _ _ hi hd =>
  ⟨fun _ hk => ringCell_ringWrite_inside hi hd hk, fun _ hp => ringCell_ringWrite_outside hp,
    fun _ hj => byteAt_ringWrite_old hi hd hj, fun _ hk => byteAt_ringWrite_new hi hd hk, avail_ringWrite hi hd,
    ringIndex_toNat hi.size_le hi.size_pos _, rfl⟩

/-! ### Where a pass meets `UNDEF` -/

section
variable {s t : State} {k : Nat}

/-- A peek of a range that holds the first `UNDEF` cell fails there (R620). -/
theorem peek_of_undef {n : Nat} : ∀ {j k : Nat}, k < n → s.byteAt (j + k) = none →
    (∀ i < k, (s.byteAt (j + i)).isSome = true) → s.peek j n = .error (s.cellAt (j + k)) := by
  induction n with
  | zero => exact fun hk => absurd hk (Nat.not_lt_zero _)
  | succ n ih =>
    intro j k hk hnone hsome
    cases k with
    | zero =>
      rw [Nat.add_zero] at hnone ⊢
      simp [State.peek, hnone]
    | succ k =>
      obtain ⟨c, hc⟩ := Option.isSome_iff_exists.mp (hsome 0 (Nat.zero_lt_succ k))
      rw [Nat.add_zero] at hc
      have hshift : ∀ i, j + (i + 1) = j + 1 + i := fun i => by omega
      rw [hshift] at hnone ⊢
      have hrest := ih (Nat.lt_of_succ_lt_succ hk) hnone fun i hi => hshift i ▸ hsome (i + 1) (Nat.succ_lt_succ hi)
      simp [State.peek, hc, hrest]

theorem State.firstUndefAt.peek {n : Nat} (h : s.firstUndefAt k) (hk : k < n) : s.peek 0 n = .error (s.cellAt k) := by
  simpa using peek_of_undef (j := 0) hk (by simpa using h.1) (by simpa using h.2)

/-- The CRC16 check meets the first `UNDEF` cell of payload and tail in order (R610, R620). -/
theorem State.firstUndefAt.checkTail {cmd len : Half} (h : s.firstUndefAt k)
    (hk : k < headerSize + len.toNat + tailSize) : checkTail cmd len s = .raised (s.raiseUndef (s.cellAt k)) := by
  unfold Machine.checkTail
  by_cases hcovered : k < headerSize + len.toNat
  · rw [h.peek hcovered]
  · obtain ⟨covered, hpeek⟩ := peek_of_defined (s := s) (j := 0) (n := headerSize + len.toNat) fun i hi => by
      rw [Nat.zero_add]
      exact h.2 i (by omega)
    obtain ⟨m, rfl⟩ := Nat.exists_eq_add_of_le (Nat.not_lt.mp hcovered)
    rw [hpeek, peek_of_undef (k := m) (by omega) h.1 fun i hi => h.2 _ (by omega)]

/-- The bytes behind a header that decodes start with SOF (R302). -/
theorem byteAt_zero_of_header {h : List Byte} {cmd len : Half} {seq crc : Byte} (hp : s.peek 0 headerSize = .ok h)
    (hd : decodeWire h = .ok (.frame cmd len seq crc)) : s.byteAt 0 = some sof := by
  cases h with
  | nil => cases hd
  | cons b rest =>
    by_cases hb : b = sof
    · rw [byteAt_of_peek_cons hp, hb]
    · cases (decodeWire_junk hb rest).symm.trans hd

/-- A pass that comes to the first `UNDEF` cell ends there with UNDEF_BYTE (R620, R806). -/
theorem drainPass_of_firstUndef (hi : s.Inv) (hex : s.examines k) (hk : s.firstUndefAt k) :
    drainPass s = .raised (s.raiseUndef (s.cellAt k)) := by
  obtain ⟨h7, ⟨hview, hno⟩ | ⟨h0, hlt⟩ | ⟨h, cmd, len, seq, crc, hp, hd, hcrc, hm, ha, hlt⟩⟩ := hex
  · have hbefore : ∀ i < k, ∃ c, s.byteAt i = some c ∧ c ≠ sof := fun i hik => by
      obtain ⟨c, hc⟩ := Option.isSome_iff_exists.mp (hk.2 i hik)
      exact ⟨c, hc, fun h => hno i hik (h ▸ hc)⟩
    have h0 : s.byteAt 0 ≠ some sof := by
      rcases Nat.eq_zero_or_pos k with rfl | hpos
      · simp [hk.1]
      · exact hno 0 hpos
    have hscan : s.scan s.rview = .undef (s.cellAt k) := scanFor_eq_undef.mpr ⟨k, hview, hk.1, rfl, hbefore⟩
    rw [drainPass_of_not_sof h7 h0, hscan]
    rfl
  · rw [drainPass_of_sof hi h7 h0, parseFrame, hk.peek hlt]
    rfl
  · have hparse : parseFrame s = checkTail cmd len s := by
      simp only [parseFrame, hp, hd]
      exact checkFrame_complete hcrc hm (by unfold headerSize tailSize; omega)
    rw [drainPass_of_sof hi h7 (byteAt_zero_of_header hp hd), hparse,
      hk.checkTail (by unfold headerSize tailSize; omega)]
    rfl

/-- What a pass examines it examines from offset 0 on (R620). -/
theorem State.examines.of_le {j : Nat} (h : s.examines k) (hj : j ≤ k) : s.examines j := by
  obtain ⟨h7, ⟨hview, hno⟩ | ⟨h0, hlt⟩ | ⟨h, cmd, len, seq, crc, hp, hd, hcrc, hm, ha, hlt⟩⟩ := h
  · exact ⟨h7, .inl ⟨by omega, fun i hij => hno i (by omega)⟩⟩
  · exact ⟨h7, .inr (.inl ⟨h0, by omega⟩)⟩
  · exact ⟨h7, .inr (.inr ⟨h, cmd, len, seq, crc, hp, hd, hcrc, hm, ha, by omega⟩)⟩

/-- A pass examines committed cells only (R620). -/
theorem State.examines.lt_avail (hi : s.Inv) (h : s.examines k) : k < s.avail := by
  obtain ⟨h7, ⟨hview, -⟩ | ⟨-, hlt⟩ | ⟨_, _, _, _, _, -, -, -, -, ha, hlt⟩⟩ := h
  · have := (rview_bounds hi (by unfold headerSize at h7; omega)).2
    omega
  · omega
  · omega

theorem exists_firstUndefAt (h : s.byteAt k = none) : ∃ j ≤ k, s.firstUndefAt j := by
  classical
  have hex : ∃ j, s.byteAt j = none := ⟨k, h⟩
  exact ⟨Nat.find hex, Nat.find_le h, Nat.find_spec hex,
    fun i hi => Option.isSome_iff_ne_none.mpr (Nat.find_min hex hi)⟩

/-- A dispatch of a frame within the length bound that would overrun the arena (R807). -/
def State.Overruns (s : State) (cmd len : Half) : Prop :=
  ∃ slot, s.cfg.slotOf cmd = some slot ∧ len.toNat ≤ s.cfg.maxPayload ∧ s.cfg.total < slot.offset + len.toNat

/-- The faults of the checks of a frame: an `UNDEF` cell of payload or tail, or an overrun (R604, R620, R807). -/
theorem checkFrame_raised_cases {cmd len : Half} {seq crc : Byte} (h : checkFrame cmd len seq crc s = .raised t) :
    (crc8 (headerBody cmd len seq) = crc ∧ len.toNat ≤ s.cfg.maxPayload ∧ 9 + len.toNat ≤ s.avail
        ∧ ∃ k < 9 + len.toNat, s.byteAt k = none)
    ∨ (s.Overruns cmd len ∧ t = s.raise .arenaOverrun (cmd ++ len)) := by
  rcases checkFrame_cases cmd len seq crc s with ⟨-, he⟩ | ⟨-, -, -, he⟩ | ⟨hcrc, hm, ha, he⟩ <;> rw [he] at h
  · cases h
  · cases h
  · unfold headerSize tailSize at ha
    rcases checkTail_cases cmd len s with ⟨k, hk, hnone, -⟩ | ⟨covered, _, -, -, ⟨-, he⟩ | ⟨-, he⟩⟩
    · unfold headerSize tailSize at hk
      exact .inl ⟨hcrc, hm, by omega, k, by omega, hnone⟩
    · rw [he] at h; cases h
    · rw [he] at h
      rcases dispatch_cases cmd len (covered.drop headerSize) s with
        ⟨slot, hslot, hover, he⟩ | ⟨_, -, -, he⟩ | ⟨-, he⟩ <;> rw [he] at h <;> cases h
      exact .inr ⟨⟨slot, hslot, hm, hover⟩, rfl⟩

/-- A pass that ends in a fault has an `UNDEF` cell among those it examines, or overruns the arena. -/
theorem drainPass_raised_examines (h : drainPass s = .raised t) :
    (∃ k, s.examines k ∧ s.byteAt k = none)
    ∨ ∃ cmd len, s.Overruns cmd len ∧ t = s.raise .arenaOverrun (cmd ++ len) := by
  rcases drainPass_cases s with ⟨-, he⟩ | ⟨h7, hscan, he⟩ | ⟨h7, -, he⟩ <;> rw [he] at h
  · cases h
  · obtain ⟨-, h0⟩ := scan_found_zero hscan
    rcases parseFrame_cases h0 with ⟨k, hk, hnone, -⟩ | ⟨c0, c1, l0, l1, seq, crc, hp, he⟩
    · exact .inl ⟨k, ⟨h7, .inr (.inl ⟨h0, hk⟩)⟩, hnone⟩
    · rw [he] at h
      cases hc : checkFrame (le16 c0 c1) (le16 l0 l1) seq crc s <;> rw [hc] at h <;> cases h
      rcases checkFrame_raised_cases hc with ⟨hcrc, hm, ha, k, hk, hnone⟩ | hover
      · exact .inl ⟨k, ⟨h7, .inr (.inr ⟨_, _, _, _, _, hp, by simp [decodeWire], hcrc, hm, ha, hk⟩)⟩, hnone⟩
      · exact .inr ⟨_, _, hover⟩
  · cases hr : s.scan s.rview <;> rw [hr] at h <;> cases h
    obtain ⟨k, hk, hnone, -, hbefore⟩ := scanFor_eq_undef.mp hr
    refine .inl ⟨k, ⟨h7, .inl ⟨hk, fun j hj hsof => ?_⟩⟩, hnone⟩
    obtain ⟨c, hc, hne⟩ := hbefore j hj
    exact hne (Option.some.inj (hc.symm.trans hsof))

/-- The fault of a pass: UNDEF_BYTE at the first `UNDEF` cell, one it examines, or an overrun (R620, R806, R807). -/
theorem drainPass_raised_cases (hi : s.Inv) (h : drainPass s = .raised t) :
    (∃ k, s.examines k ∧ s.firstUndefAt k ∧ t = s.raiseUndef (s.cellAt k))
    ∨ ∃ cmd len, s.Overruns cmd len ∧ t = s.raise .arenaOverrun (cmd ++ len) := by
  refine (drainPass_raised_examines h).imp_left fun ⟨k, hex, hnone⟩ => ?_
  obtain ⟨j, hj, hfirst⟩ := exists_firstUndefAt hnone
  have hex := hex.of_le hj
  exact ⟨j, hex, hfirst, Pass.raised.inj (h.symm.trans (drainPass_of_firstUndef hi hex hfirst))⟩

/-- Examined cells are a matter of the ring, its indices and the configuration. -/
theorem examines_raise {c : FaultKind} {info : Word} : (s.raise c info).examines k ↔ s.examines k := by
  have hpeek : (s.raise c info).peek 0 headerSize = s.peek 0 headerSize :=
    peek_congr (raise_byteAt s c info) (raise_cellAt s c info) _ _
  simp only [State.examines, hpeek, raise_avail, raise_rview, raise_byteAt, raise_cfg]

end

/-! ### How a drain ends -/

/-- The pass whose fault ended a drain ran on a state with every property the passes keep. -/
theorem drain_raised_pass {P : State → Prop} (hagain : ∀ s t, P s → drainPass s = .again t → P t) {n : Nat}
    {s t : State} (hs : P s) (h : drain n s = .raised t) : ∃ u, P u ∧ drainPass u = .raised t :=
  drain_raised_of (Q := fun t => ∃ u, P u ∧ drainPass u = .raised t) hagain (fun u _ hu hp => ⟨u, hu, hp⟩) hs h

section
variable {c t : State}

/-- The fault of a drain is that of its last pass, on a state the passes before have reached. -/
theorem drainAll_raised_cases (hi : c.Inv) (hf : c.fault = 0) (h : drainAll c = .raised t) :
    ∃ u, c.DrainedTo u ∧ u.Inv ∧ u.fault = 0
      ∧ ((∃ k, u.examines k ∧ u.firstUndefAt k ∧ t = u.raiseUndef (u.cellAt k))
        ∨ ∃ cmd len, u.Overruns cmd len ∧ t = u.raise .arenaOverrun (cmd ++ len)) := by
  obtain ⟨u, ⟨hu, hui, huf⟩, hp⟩ := drain_raised_pass (P := fun u => c.DrainedTo u ∧ u.Inv ∧ u.fault = 0)
    (fun _ _ ⟨hu, hinv⟩ hp => ⟨hu.trans (drainPass_drainedTo hp), drainPass_again_inv hinv hp⟩) ⟨.refl c, hi, hf⟩ h
  exact ⟨u, hu, hui, huf, drainPass_raised_cases hui hp⟩

theorem drainAll_raised_fault (hi : c.Inv) (hf : c.fault = 0) (h : drainAll c = .raised t) :
    (t.fault = 0x4 ∨ t.fault = 0x8) ∧ t.responses = c.responses ++ [⟨.faulted, 0⟩] := by
  obtain ⟨_, ⟨r, m, rfl⟩, -, huf, ⟨_, -, -, rfl⟩ | ⟨_, _, -, rfl⟩⟩ := drainAll_raised_cases hi hf h
  · exact ⟨.inl (by rw [State.raiseUndef, raise_unfaulted huf]; rfl), rfl⟩
  · exact ⟨.inr (by rw [raise_unfaulted huf]; rfl), rfl⟩

/-- A drain of an unfaulted block ends at a residue or in one of two faults, and so does the command that runs it (R410,
R413, R612). -/
theorem afterDrain_ends (hi : c.Inv) (hf : c.fault = 0) :
    ∃ t, (drainAll c = .done t ∧ t.fault = 0
        ∧ afterDrain (drainAll c) = .next { t with responses := c.responses ++ [⟨.ok, 0⟩] })
      ∨ (drainAll c = .raised t ∧ (t.fault = 0x4 ∨ t.fault = 0x8)
        ∧ t.responses = c.responses ++ [⟨.faulted, 0⟩] ∧ afterDrain (drainAll c) = .next t) := by
  cases hd : drainAll c with
  | done t =>
    obtain ⟨r, m, rfl⟩ := drainAll_done_drainedTo hd
    exact ⟨_, .inl ⟨rfl, hf, rfl⟩⟩
  | raised t =>
    obtain ⟨hfault, hresponses⟩ := drainAll_raised_fault hi hf hd
    exact ⟨t, .inr ⟨rfl, hfault, hresponses, rfl⟩⟩
  | stuck => exact absurd hd (drain_ne_stuck hi (Nat.lt_succ_self _))

end

theorem exec_push_delivers {s : State} (hs : s.Ready) {len : Half} {data : List Byte} (hl : data.length = len.toNat)
    (hspace : len.toNat ≤ s.space) : exec (.push len data) s = afterDrain (drainAll (s.ringWrite data)) :=
  exec_delivery hs (delivery_push hs.unfaulted hl (hl ▸ hspace))

theorem exec_advance_delivers {s : State} (hs : s.Ready) {n : Half} (hspace : n.toNat ≤ s.space) :
    exec (.advance n) s = afterDrain (drainAll (s.commit n.toNat)) :=
  exec_delivery hs (delivery_advance hs.unfaulted hspace)

/-- Settles O20: either command is its commit with one drain behind it. -/
theorem deliveryEndsWithItsDrain : Obligations.DeliveryEndsWithItsDrain := by
  intro s hi hf
  refine ⟨fun len data hl hspace => ?_, fun n hspace => ?_⟩
  · rw [exec_push_delivers (hi.ready hf) hl hspace]
    exact afterDrain_ends (ringWrite_inv hi data) hf
  · rw [exec_advance_delivers (hi.ready hf) hspace]
    exact afterDrain_ends (commit_inv hi n.toNat) hf

/-! ### The residue -/

/-- Where a pass returns, the block stands at a residue (R601, R611 (c)). -/
theorem settled_of_leave {s t : State} (h : drainPass s = .leave t) : t.settled = true := by
  obtain ⟨rfl, hshort | ⟨c0, c1, l0, l1, seq, crc, hp, hcrc, hm, ha⟩⟩ := drainPass_leave h
  · simp [State.settled, hshort]
  · simp [State.settled, hp, decodeWire, State.awaits, hcrc, hm, ha]

theorem settled_respond (s : State) (st : Status) (v : Word) : (s.respond st v).settled = s.settled := by
  have hpeek : (s.respond st v).peek 0 headerSize = s.peek 0 headerSize :=
    peek_congr (respond_byteAt s st v) (respond_cellAt s st v) _ _
  rw [State.settled, hpeek]
  rfl

/-- A residue is shorter than a frame of the largest payload (R611 (c), R616). -/
theorem avail_lt_maxFrame {s : State} (h : s.settled = true) : s.avail < s.cfg.maxFrame := by
  unfold State.settled at h
  unfold Config.maxFrame
  rcases Bool.or_eq_true_iff.mp h with hshort | hawaits
  · have := of_decide_eq_true hshort
    omega
  · cases hp : s.peek 0 headerSize with
    | error p => simp [hp] at hawaits
    | ok bs =>
      simp only [hp] at hawaits
      unfold State.awaits at hawaits
      split at hawaits
      · simp only [Bool.and_eq_true, decide_eq_true_eq] at hawaits
        obtain ⟨⟨-, hm⟩, ha⟩ := hawaits
        omega
      · cases hawaits

/-- Settles O26: the residue leaves `N - MAX_FRAME` cells free, and R905 makes that at least one. -/
theorem neverFullAtCommandBoundary : Obligations.NeverFullAtCommandBoundary := by
  intro s hi hf hs
  have hav := avail_lt_maxFrame (hs hf)
  have hfit : s.cfg.maxFrame ≤ s.cfg.ringSize - 1 := of_decide_eq_true (valid_checks hi.cfg_valid).2.1
  have hN : s.ringSize = s.cfg.ringSize := rfl
  have hspace : s.ringSize - s.cfg.maxFrame ≤ s.space := by
    unfold State.space
    omega
  refine ⟨hspace, ?_, fun len data hl hle hover => ?_⟩
  · have hfull : s.isFull = false := by
      have := hi.size_pos
      exact beq_eq_false_iff_ne.mpr (by omega)
    rw [exec_full_ready (hi.ready hf), hfull]
    rfl
  · obtain ⟨t, ⟨-, -, he⟩ | ⟨-, -, hr, he⟩⟩ :=
      (deliveryEndsWithItsDrain s hi hf).1 len data hl (hle.trans hspace) <;> rw [he] at hover
    · simpa using congrArg State.responses (Host.Outcome.next.inj hover)
    · cases hover
      simp at hr

/-! ### A delivery without a fault -/

/-- An unfaulted block whose drains raise nothing: every committed cell is written, and no bounded frame overruns. -/
structure State.DrainsClean (s : State) : Prop where
  inv : s.Inv
  unfaulted : s.fault = 0
  defined : s.committedDefined
  fits : overrunFree s.cfg

section
variable {s t : State}

theorem State.DrainsClean.again (h : s.DrainsClean) (hp : drainPass s = .again t) : t.DrainsClean := by
  obtain ⟨hinv, hf⟩ := drainPass_again_inv ⟨h.inv, h.unfaulted⟩ hp
  obtain ⟨n, -, hn, heq⟩ := drainPass_again h.inv hp
  have hdefined : (s.discard n).committedDefined := fun j hj => by
    rw [avail_discard h.inv.size_le h.inv.rd_lt h.inv.wr_lt hn] at hj
    rw [byteAt_discard h.inv.size_le h.inv.size_pos]
    exact h.defined _ (by omega)
  rcases heq with rfl | ⟨a, p, -, rfl⟩
  · exact ⟨hinv, hf, hdefined, h.fits⟩
  · exact ⟨hinv, hf, hdefined, h.fits⟩

theorem State.DrainsClean.not_raised (h : s.DrainsClean) : drainPass s ≠ .raised t := by
  intro hp
  rcases drainPass_raised_cases h.inv hp with ⟨k, hex, ⟨hnone, -⟩, -⟩ | ⟨_, _, ⟨slot, hslot, hm, hover⟩, -⟩
  · have := h.defined k (hex.lt_avail h.inv)
    rw [hnone] at this
    cases this
  · have := h.fits slot (List.mem_of_find?_eq_some hslot)
    omega

/-- The drain of such a block ends at a residue, and its command with OK (R410, R413, R611). -/
theorem State.DrainsClean.ends (h : s.DrainsClean) :
    ∃ u, s.DrainedTo u ∧ u.settled = true ∧ afterDrain (drainAll s) = .next (u.respond .ok 0) := by
  cases hd : drainAll s with
  | done u =>
    exact ⟨u, drainAll_done_drainedTo hd,
      drain_done_of (P := State.DrainsClean) (fun _ _ => .again) (fun _ _ _ => settled_of_leave) h hd, rfl⟩
  | raised u =>
    obtain ⟨v, hv, hp⟩ := drain_raised_pass (P := State.DrainsClean) (fun _ _ => .again) h hd
    exact absurd hp hv.not_raised
  | stuck => exact absurd hd (drain_ne_stuck h.inv (Nat.lt_succ_self _))

/-- Written cells stay written under a PUSH, and those it commits are (R403). -/
theorem committedDefined_ringWrite {d : List Byte} (hi : s.Inv) (h : s.committedDefined) (hd : d.length ≤ s.space) :
    (s.ringWrite d).committedDefined := by
  intro j hj
  rw [avail_ringWrite hi hd] at hj
  by_cases hold : j < s.avail
  · rw [byteAt_ringWrite_old hi hd hold]
    exact h j hold
  · obtain ⟨k, rfl⟩ := Nat.exists_eq_add_of_le (Nat.not_lt.mp hold)
    rw [byteAt_ringWrite_new hi hd (Nat.lt_of_add_lt_add_left hj)]
    rfl

end

/-- Settles O21: the drain behind the commit raises nothing, and keeps `WR` and the ring. -/
theorem pushCompletes : Obligations.PushCompletes := by
  intro s len data hi hf hdef hfits hl hspace
  have hd : data.length ≤ s.space := hl ▸ hspace
  obtain ⟨_, ⟨r, m, rfl⟩, hsettled, hx⟩ := State.DrainsClean.ends
    ⟨ringWrite_inv hi data, hf, committedDefined_ringWrite hi hdef hd, hfits⟩
  refine ⟨_, (exec_push_delivers (hi.ready hf) hl hspace).trans hx, rfl, ?_,
    fun k hk => ringCell_ringWrite_inside hi hd hk, fun p hp => ringCell_ringWrite_outside hp,
    (settled_respond _ _ _).trans hsettled⟩
  rw [← hl]
  exact ringIndex_toNat hi.size_le hi.size_pos _

/-- Settles O22: as a PUSH, with the cells already written. -/
theorem advanceCompletes : Obligations.AdvanceCompletes := by
  intro s n hi hf hdef hfits hspace
  obtain ⟨_, ⟨r, m, rfl⟩, hsettled, hx⟩ := State.DrainsClean.ends ⟨commit_inv hi n.toNat, hf, hdef, hfits⟩
  exact ⟨_, (exec_advance_delivers (hi.ready hf) hspace).trans hx, rfl, ringIndex_toNat hi.size_le hi.size_pos _,
    (settled_respond _ _ _).trans hsettled⟩

/-! ### An ADVANCE over cells nothing has written -/

/-- UNDEF_BYTE as the first fault of a block, its index whole in the information word (R803, R806). -/
theorem raiseUndef_cellAt {s : State} (hi : s.Inv) (hf : s.fault = 0) (k : Nat) :
    (s.raiseUndef (s.cellAt k)).fault = 0x4
      ∧ (s.raiseUndef (s.cellAt k)).faultInfo.toNat = (s.rd.toNat + k) % s.ringSize := by
  have hlt := Nat.mod_lt (s.rd.toNat + k) hi.size_pos
  have hN := hi.size_le
  refine ⟨by rw [State.raiseUndef, raise_unfaulted hf]; rfl, ?_⟩
  rw [State.raiseUndef, raise_faultInfo, BitVec.toNat_ofNat]
  exact Nat.mod_eq_of_lt (by unfold State.cellAt; omega)

/-- Settles O23: the first pass ends the drain at once; a later one raises UNDEF_BYTE on a state with the same ring and
`WR`. -/
theorem advanceOverUnwrittenFaults : Obligations.AdvanceOverUnwrittenFaults := by
  intro s n hi hf hspace
  have hci := commit_inv hi n.toNat
  have hwr : (s.commit n.toNat).wr.toNat = (s.wr.toNat + n.toNat) % s.ringSize :=
    ringIndex_toNat hi.size_le hi.size_pos _
  rw [exec_advance_delivers (hi.ready hf) hspace]
  refine ⟨fun k hex hk => ?_, fun t ht ht4 => ?_⟩
  · obtain ⟨-, hinfo⟩ := raiseUndef_cellAt hci hf k
    refine ⟨(s.commit n.toNat).raiseUndef ((s.commit n.toNat).cellAt k), ?_, ?_, hwr, hinfo⟩
    · rw [drainAll, drain_succ, drainPass_of_firstUndef hci hex hk]
      rfl
    · rw [State.raiseUndef, raise_unfaulted (s := s.commit n.toNat) hf]
      rfl
  · rcases afterDrain_next ht with ⟨u, hd, rfl⟩ | hd
    · obtain ⟨_, _, rfl⟩ := drainAll_done_drainedTo hd
      simp [hf] at ht4
    · obtain ⟨u, ⟨r, m, rfl⟩, hui, huf, ⟨k, hex, hk, rfl⟩ | ⟨_, _, -, rfl⟩⟩ := drainAll_raised_cases hci hf hd
      · obtain ⟨-, hinfo⟩ := raiseUndef_cellAt hui huf k
        refine ⟨?_, hwr, k, examines_raise.mpr hex, hk, hinfo⟩
        rw [State.raiseUndef, raise_unfaulted huf]
        rfl
      · rw [raise_unfaulted huf] at ht4
        exact absurd ht4 (show FaultKind.arenaOverrun.mask ≠ 0x4 by decide)

end Sys2Proof.Machine
end

section
/-! PROOF. The registry, its layout and the dispatch (42_registry_dispatch.md): the laws of the slots, from which the two
answers of LOOKUP follow, and the dispatch of a frame the arena has no room for. -/

namespace Sys2Proof.Machine

/-! ### The layout of a list of entries -/

/-- `a` ends where `b` starts, or before (R507). -/
def SlotEndsBefore (a b : Slot) : Prop := a.offset + a.entry.size ≤ b.offset

theorem alignUp_mod (x a : Nat) : alignUp x a % a = 0 := Nat.mul_mod_left _ _

/-- The slots hold the entries, in declaration order (R502). -/
theorem slotsFrom_map_entry : ∀ (es : List Entry) (cursor : Nat), (slotsFrom cursor es).map Slot.entry = es
  | [], _ => rfl
  | e :: es, _ => congrArg (e :: ·) (slotsFrom_map_entry es _)

theorem slotsFrom_offset_mod_align {slot : Slot} : ∀ {es : List Entry} {cursor : Nat},
    slot ∈ slotsFrom cursor es → slot.offset % slot.entry.align = 0
  | [], _, h => absurd h List.not_mem_nil
  | _ :: es, _, h => by
    rcases List.mem_cons.mp h with rfl | h
    · exact alignUp_mod _ _
    · exact slotsFrom_offset_mod_align (es := es) h

/-- No slot starts before the cursor its layout starts from (R502). -/
theorem le_offset_of_mem_slotsFrom {slot : Slot} : ∀ {es : List Entry} {cursor : Nat}, (∀ e ∈ es, 0 < e.align) →
    slot ∈ slotsFrom cursor es → cursor ≤ slot.offset
  | [], _, _, hs => absurd hs List.not_mem_nil
  | e :: es, cursor, h, hs => by
    have hstart := le_alignUp (x := cursor) (h e List.mem_cons_self)
    rcases List.mem_cons.mp hs with rfl | hs
    · exact hstart
    · have hrest := le_offset_of_mem_slotsFrom (es := es) (fun e he => h e (List.mem_cons_of_mem _ he)) hs
      omega

theorem slotsFrom_pairwise : ∀ {es : List Entry} {cursor : Nat}, (∀ e ∈ es, 0 < e.align) →
    (slotsFrom cursor es).Pairwise SlotEndsBefore
  | [], _, _ => .nil
  | _ :: es, _, h =>
    have hes : ∀ e ∈ es, 0 < e.align := fun e he => h e (List.mem_cons_of_mem _ he)
    .cons (fun _ => le_offset_of_mem_slotsFrom hes) (slotsFrom_pairwise hes)

/-- The layout ends with its last slot (R503). -/
theorem slotsFrom_getLast_end {a : Slot} : ∀ {es : List Entry} {cursor : Nat},
    (slotsFrom cursor es).getLast? = some a → a.offset + a.entry.size = endFrom cursor es
  | [], _, h => by cases h
  | [_], _, h => by cases h; rfl
  | _ :: d :: es, _, h => slotsFrom_getLast_end (es := d :: es) (List.getLast?_cons_cons.symm.trans h)

/-! ### The slots of an admitted registry -/

section
variable {c : Config}

theorem align_pos (hc : c.valid = true) : ∀ e ∈ c.registry, 0 < e.align := fun e he => by
  obtain ⟨-, -, -, -, -, halign, -⟩ := valid_checks hc
  rw [beq_iff_eq.mp (List.all_eq_true.mp halign e he)]
  exact Nat.two_pow_pos _

theorem entry_size_pos (hc : c.valid = true) : ∀ e ∈ c.registry, 0 < e.size := fun e he => by
  obtain ⟨-, -, -, -, hsize, -⟩ := valid_checks hc
  exact of_decide_eq_true (List.all_eq_true.mp hsize e he)

theorem slots_map_entry (c : Config) : c.slots.map Slot.entry = c.registry := slotsFrom_map_entry _ _

/-- Entry `i` stands in slot `i` (R502). -/
theorem registry_getElem?_eq (c : Config) (i : Nat) : c.registry[i]? = c.slots[i]?.map Slot.entry := by
  rw [← List.getElem?_map, slots_map_entry]

/-- Every slot ends inside the arena, after its start (R501 (c), R507). -/
theorem mem_slots_bounds (hc : c.valid = true) {slot : Slot} (h : slot ∈ c.slots) :
    0 < slot.entry.size ∧ slot.offset + slot.entry.size ≤ c.total := by
  obtain ⟨hmem, hend⟩ := mem_slotsFrom (align_pos hc) h
  exact ⟨entry_size_pos hc _ hmem, hend⟩

/-- Two slots stand in declaration order and share no byte (R507). -/
theorem slots_endsBefore (hc : c.valid = true) {i j : Nat} {a b : Slot} (hij : i < j) (ha : c.slots[i]? = some a)
    (hb : c.slots[j]? = some b) : SlotEndsBefore a b := by
  obtain ⟨hi, rfl⟩ := List.getElem?_eq_some_iff.mp ha
  obtain ⟨hj, rfl⟩ := List.getElem?_eq_some_iff.mp hb
  exact List.pairwise_iff_getElem.mp (slotsFrom_pairwise (align_pos hc)) i j hi hj hij

end

/-- Settles O49, from the laws of the layout of any list of entries. -/
theorem layoutLaws : Obligations.LayoutLaws := by
  intro c hc
  refine ⟨fun i a ha => ?_, fun a => slotsFrom_getLast_end, ?_⟩
  · have hmem := List.mem_of_getElem? ha
    obtain ⟨hpos, hend⟩ := mem_slots_bounds hc hmem
    refine ⟨slotsFrom_offset_mod_align hmem, by rw [registry_getElem?_eq, ha]; rfl, hend, fun j b hij hb => ?_⟩
    have hle : a.offset + a.entry.size ≤ b.offset := slots_endsBefore hc hij ha hb
    exact ⟨hle, by omega⟩
  · rw [← slots_map_entry c, List.length_map]

/-! ### LOOKUP -/

section
variable {c : Config}

/-- `SlotOf(cmd)` is a slot of the registry that holds `cmd` (R506). -/
theorem slotOf_eq_some {cmd : Half} {a : Slot} (h : c.slotOf cmd = some a) : a ∈ c.slots ∧ a.entry.cmd = cmd := by
  unfold Config.slotOf at h
  exact ⟨List.mem_of_find?_eq_some h, by simpa using List.find?_some h⟩

/-- A slot is the one its own cmd finds: no two entries share a cmd (R501 (b), R506). -/
theorem slotOf_cmd_of_mem (hc : c.valid = true) {a : Slot} (ha : a ∈ c.slots) : c.slotOf a.entry.cmd = some a := by
  have hnodup : (c.slots.map (Entry.cmd ∘ Slot.entry)).Nodup := by
    obtain ⟨-, -, -, hunique, -⟩ := valid_checks hc
    rw [← List.map_map, slots_map_entry]
    exact of_decide_eq_true hunique
  cases hb : c.slotOf a.entry.cmd with
  | none => exact absurd (beq_self_eq_true _) (List.find?_eq_none.mp hb a ha)
  | some b =>
    obtain ⟨hmem, hcmd⟩ := slotOf_eq_some hb
    rw [List.inj_on_of_nodup_map hnodup hmem ha hcmd]

/-- A cmd of no entry is unknown (R506). -/
theorem slotOf_eq_none {cmd : Half} (h : ∀ e ∈ c.registry, e.cmd ≠ cmd) : c.slotOf cmd = none := by
  refine List.find?_eq_none.mpr fun a ha hcmd => h a.entry ?_ (beq_iff_eq.mp hcmd)
  rw [← slots_map_entry c]
  exact List.mem_map_of_mem ha

/-- A hit is bit 16 of the value, and an offset inside the arena fits below it (R501 (e), R511). -/
theorem lookupValue_known (hc : c.valid = true) {cmd : Half} {a : Slot} (h : c.slotOf cmd = some a) :
    (lookupValue c cmd).toNat = 65536 + a.offset := by
  obtain ⟨hpos, hend⟩ := mem_slots_bounds hc (slotOf_eq_some h).1
  have htotal := total_le hc
  have hoffset : (BitVec.ofNat 16 a.offset).toNat = a.offset := Nat.mod_eq_of_lt (by omega)
  simp only [lookupValue, h]
  rw [toNat_append, hoffset]
  rfl

theorem lookupValue_unknown {cmd : Half} (h : c.slotOf cmd = none) : lookupValue c cmd = 0 := by
  simp only [lookupValue, h]

end

/-- Settles O11: entry `i` is found in slot `i`, and a cmd of no entry in none. -/
theorem lookupAnswers : Obligations.LookupAnswers := by
  intro s cmd hs
  rw [exec_lookup_ready hs]
  refine ⟨fun i e he hcmd => ?_, fun hmiss => ?_⟩
  · rw [registry_getElem?_eq] at he
    obtain ⟨a, ha, rfl⟩ := Option.map_eq_some_iff.mp he
    have hslot : s.cfg.slotOf cmd = some a := hcmd ▸ slotOf_cmd_of_mem hs.cfg_valid (List.mem_of_getElem? ha)
    exact ⟨a.offset, _, by rw [Config.offset, ha]; rfl, rfl, lookupValue_known hs.cfg_valid hslot⟩
  · rw [lookupValue_unknown (slotOf_eq_none hmiss)]
    rfl

/-! ### A frame the arena has no room for -/

/-- A dispatch that does not fit raises its fault on the state it met (R510, R807). -/
theorem dispatch_overrun {s : State} {cmd len : Half} {p : List Byte} {slot : Slot}
    (hslot : s.cfg.slotOf cmd = some slot) (hover : s.cfg.total < slot.offset + len.toNat) :
    dispatch cmd len p s = .raised (s.raise .arenaOverrun (cmd ++ len)) := by
  simp only [dispatch, hslot, if_pos hover]

/-- Settles O37: the frame passes every check, and its dispatch faults before it discards or stores. -/
theorem overrunningFrameFaults : Obligations.OverrunningFrameFaults := by
  intro s cmd seq p slot hi hf hm ha hp hslot hover
  have hav := avail_lt hi.size_pos
  have hlen : (BitVec.ofNat 16 p.length).toNat = p.length := toNat_ofNat_of_le_ringSize hi (by omega)
  refine ⟨cmd ++ BitVec.ofNat 16 p.length, ?_, by rw [toNat_append, hlen]; rfl⟩
  rw [exec_frame_ready (hi.ready hf) (by unfold headerSize; omega), checkFrame_frameBytes hi hm ha hp,
    dispatch_overrun hslot (by rwa [hlen]), raise_unfaulted hf]
  rfl

end Sys2Proof.Machine
end

section
/-! PROOF. The frame synchronizer (43_frame_sync.md). What the wire units do to the block, how a drain unrolls and where it
ends; then the fragmentation law: the committed stream alone, not its cuts, says which frames are dispatched. -/

namespace Sys2Proof.Machine

/-! ### The residue, in the bytes of the ring -/

/-- What a residue holds: fewer than seven bytes, or the header of a frame still to complete (R611 (c), R616). -/
theorem settled_iff {s : State} : s.settled = true ↔ s.avail < headerSize ∨ ∃ c0 c1 l0 l1 seq crc,
    s.peek 0 headerSize = .ok [sof, c0, c1, l0, l1, seq, crc]
      ∧ crc8 (headerBody (le16 c0 c1) (le16 l0 l1) seq) = crc ∧ (le16 l0 l1).toNat ≤ s.cfg.maxPayload
      ∧ s.avail < headerSize + (le16 l0 l1).toNat + tailSize := by
  constructor
  · intro h
    refine (Bool.or_eq_true_iff.mp h).imp of_decide_eq_true fun hawaits => ?_
    cases hp : s.peek 0 headerSize with
    | error p => simp [hp] at hawaits
    | ok bs =>
      simp only [hp] at hawaits
      unfold State.awaits at hawaits
      split at hawaits
      · rename_i hd
        simp only [Bool.and_eq_true, beq_iff_eq, decide_eq_true_eq] at hawaits
        obtain ⟨hl, hb⟩ := peek_ok.mp hp
        have hpos : 0 < bs.length := by rw [hl]; exact Nat.zero_lt_succ _
        have h0 : bs[0]? = some sof := by
          rw [List.getElem?_eq_getElem hpos, ← hb 0 hpos]
          exact byteAt_zero_of_header hp hd
        obtain ⟨c0, c1, l0, l1, seq, crc, rfl, hw⟩ := decodeWire_header hl h0
        cases hw.symm.trans hd
        obtain ⟨⟨hcrc, hm⟩, ha⟩ := hawaits
        exact ⟨c0, c1, l0, l1, _, _, rfl, hcrc, hm, ha⟩
      · cases hawaits
  · rintro (hshort | ⟨c0, c1, l0, l1, seq, crc, hp, hcrc, hm, ha⟩)
    · simp [State.settled, hshort]
    · simp [State.settled, hp, decodeWire, State.awaits, hcrc, hm, ha]

/-- A residue is a matter of the committed bytes. -/
theorem settled_of_same_bytes {s t : State} (hs : s.settled = true) (hcfg : t.cfg = s.cfg) (havail : t.avail = s.avail)
    (hbytes : ∀ j < s.avail, t.byteAt j = s.byteAt j) : t.settled = true := by
  rw [settled_iff] at hs ⊢
  rw [hcfg, havail]
  by_cases hshort : s.avail < headerSize
  · exact .inl hshort
  · obtain ⟨c0, c1, l0, l1, seq, crc, hp, hrest⟩ := hs.resolve_left hshort
    obtain ⟨hl, hb⟩ := peek_ok.mp hp
    exact .inr ⟨c0, c1, l0, l1, seq, crc, peek_ok.mpr ⟨hl, fun k hk => by rw [hbytes _ (by omega), hb k hk]⟩, hrest⟩

/-- A staged byte falls on a free cell, so every committed byte stays (R406, R412). -/
theorem byteAt_stage {s : State} (hi : s.Inv) {i j : Nat} (hv : i < s.wviewLen) (hj : j < s.avail) (b : Byte) :
    (s.stage i b).byteAt j = s.byteAt j := by
  obtain ⟨hring, hspace⟩ := wviewLen_bounds hi
  have hav := avail_lt hi.size_pos
  unfold State.space at hspace
  refine read_write_other fun heq => ?_
  have hwr : s.wr.toNat + i = (s.rd.toNat + (s.avail + i)) % s.ringSize := by
    rw [← Nat.add_assoc, ← mod_add_mod, ← wr_eq hi.rd_lt hi.wr_lt, Nat.mod_eq_of_lt (by omega)]
  rw [stage_cellAt, State.cellAt, hwr] at heq
  have := cell_inj hi.rd_lt (by omega) (by omega) heq
  omega

/-- A drain that ends without a fault ends at a residue. -/
theorem settled_of_drainAll_done {s t : State} (h : drainAll s = .done t) : t.settled = true :=
  drain_done_of (P := fun _ => True) (fun _ _ _ _ => trivial) (fun _ _ _ => settled_of_leave) trivial h

/-- Every effect of a command leaves a residue or a fault (R613). -/
theorem CommandEffect.settled {d : Except DecodeError Instr} {s t : State} (hi : s.Inv) (hs : s.Settled)
    (h : CommandEffect d s t) : t.Settled := by
  intro ht
  cases h with
  | answers st v => exact (settled_respond s st v).trans (hs ht)
  | raises k info hf =>
    rw [raise_unfaulted hf] at ht
    exact absurd ht (mask_ne_zero k)
  | stages i b hf hv =>
    exact (settled_respond _ _ _).trans (settled_of_same_bytes (hs hf) rfl rfl fun j hj => byteAt_stage hi hv hj b)
  | clears =>
    have havail : s.clearRing.avail = 0 := by simp [State.avail]
    exact settled_iff.mpr (.inl (by rw [respond_avail, havail]; exact Nat.zero_lt_succ _))
  | drains i c _ hf _ hd ha =>
    rcases afterDrain_next ha with ⟨u, hu, rfl⟩ | hr
    · exact (settled_respond _ _ _).trans (settled_of_drainAll_done hu)
    · obtain ⟨hci, hcf⟩ := delivery_inv hi hd
      obtain ⟨hfault | hfault, -⟩ := drainAll_raised_fault hci (hcf.trans hf) hr <;> simp [hfault] at ht

/-- Settles O57, by the effects of a step. -/
theorem stepKeepsSettled : Obligations.StepKeepsSettled := by
  intro s t hi hs h
  rcases step_effect h with ⟨-, rfl⟩ | ⟨rest, -, rfl⟩ | ⟨_, _, rest, -, he⟩
  · exact hs
  · have havail : (State.resetBlock { s with port := rest }).avail = 0 := by simp [State.avail]
    exact fun _ => settled_iff.mpr (.inl (by rw [havail]; exact Nat.zero_lt_succ _))
  · have hsettled : State.Settled { s with port := rest } := fun hf =>
      settled_of_same_bytes (hs hf) rfl rfl fun _ _ => rfl
    exact he.settled (takePort_inv hi rest) hsettled

/-! ### What a wire unit leaves -/

section
variable {s : State} {k : Nat}

/-- A drop of `n` committed bytes moves `RD` alone (R404). -/
theorem discard_moves_rd (hi : s.Inv) {n : Nat} (hn : n ≤ s.avail) :
    s.discard n = { s with rd := (s.discard n).rd }
      ∧ (s.discard n).rd.toNat = (s.rd.toNat + n) % s.ringSize ∧ (s.discard n).avail + n = s.avail := by
  have hav := avail_discard hi.size_le hi.rd_lt hi.wr_lt hn
  exact ⟨rfl, discard_rd_toNat hi n, by omega⟩

/-- The first UNDEF_BYTE of a block sets one bit, the cell's index, and one response (R803, R806). -/
theorem raiseUndef_writes (hi : s.Inv) (hf : s.fault = 0) (k : Nat) :
    ∃ info : Word, s.raiseUndef (s.cellAt k)
        = { s with fault := 0x4, faultInfo := info, responses := s.responses ++ [⟨.faulted, 0⟩] }
      ∧ info.toNat = (s.rd.toNat + k) % s.ringSize :=
  ⟨_, raise_unfaulted hf .undefByte _, (raiseUndef_cellAt hi hf k).2⟩

/-- The scan drops what stands before the first SOF of the view, or the whole view (R602, R603). -/
theorem afterScan_drops (hk : k ≤ s.rview) (hjunk : ∀ j < k, ∃ c, s.byteAt j = some c ∧ c ≠ sof)
    (hend : k = s.rview ∨ s.byteAt k = some sof) : afterScan s (s.scan s.rview) = .again (s.discard k) := by
  rcases Nat.eq_or_lt_of_le hk with rfl | hlt
  · rw [show s.scan s.rview = .notFound from scanFor_eq_notFound.mpr hjunk]
    rfl
  · have hsof := hend.resolve_left (Nat.ne_of_lt hlt)
    rw [show s.scan s.rview = .found k from scanFor_eq_found.mpr ⟨hlt, hsof, hjunk⟩]
    rfl

/-- Settles O31: the scan finds the first SOF, or none. -/
theorem junkDropsBytesBeforeSof : Obligations.JunkDropsBytesBeforeSof := by
  intro s b k hi hf h7 hk hjunk hend
  have hview := (rview_bounds hi (by unfold headerSize at h7; omega)).2
  refine ⟨s.discard k, ?_, discard_moves_rd hi (hk.trans hview)⟩
  rw [exec_junk_ready (hi.ready hf) h7, afterScan_drops hk hjunk hend]
  rfl

/-- Settles O32: the scan comes to the `UNDEF` cell before any SOF. -/
theorem junkMeetsUnwrittenCell : Obligations.JunkMeetsUnwrittenCell := by
  intro s b k hi hf h7 hk hjunk hnone
  obtain ⟨info, hraise, hinfo⟩ := raiseUndef_writes hi hf k
  have hscan : s.scan s.rview = .undef (s.cellAt k) := scanFor_eq_undef.mpr ⟨k, hk, hnone, rfl, hjunk⟩
  refine ⟨info, ?_, hinfo⟩
  rw [exec_junk_ready (hi.ready hf) h7, hscan, ← hraise]
  rfl

/-- Settles O33, by the order of the header's checks. -/
theorem frameHeaderChecks : Obligations.FrameHeaderChecks := by
  intro s cmd len seq crc hi hf h7
  have hsum : headerSize + len.toNat + tailSize = 9 + len.toNat := by unfold headerSize tailSize; omega
  rw [exec_frame_ready (hi.ready hf) h7]
  rcases checkFrame_cases cmd len seq crc s with ⟨hbad, he⟩ | ⟨hcrc, hm, ha, he⟩ | ⟨hcrc, hm, ha, he⟩ <;> rw [he]
  · exact ⟨fun _ => ⟨s.discard 1, rfl, discard_moves_rd hi (by unfold headerSize at h7; omega)⟩,
      fun hcrc hm => absurd hbad (by simp [hcrc, Nat.not_lt.mpr hm])⟩
  · exact ⟨fun hbad => absurd hbad (by simp [hcrc, Nat.not_lt.mpr hm]), fun _ _ _ => rfl⟩
  · exact ⟨fun hbad => absurd hbad (by simp [hcrc, Nat.not_lt.mpr hm]), fun _ _ hshort => by omega⟩

/-- Settles O35: a FRAME and a pass end at the first `UNDEF` cell they come to, and a pass raises UNDEF_BYTE nowhere
else. -/
theorem engineMeetsUnwrittenCell : Obligations.EngineMeetsUnwrittenCell := by
  intro s hi hf
  refine ⟨fun cmd len seq crc k hcrc hm ha hk hfirst => ?_, fun k hex hfirst => ?_, fun t hp ht => ?_⟩
  · obtain ⟨info, hraise, hinfo⟩ := raiseUndef_writes hi hf k
    have hsum : headerSize + len.toNat + tailSize = 9 + len.toNat := by unfold headerSize tailSize; omega
    refine ⟨info, ?_, hinfo⟩
    rw [exec_frame_ready (hi.ready hf) (by unfold headerSize; omega), checkFrame_complete hcrc hm (by omega),
      hfirst.checkTail (by omega), hraise]
    rfl
  · obtain ⟨info, hraise, hinfo⟩ := raiseUndef_writes hi hf k
    exact ⟨info, (drainPass_of_firstUndef hi hex hfirst).trans (congrArg Pass.raised hraise), hinfo⟩
  · rcases drainPass_raised_cases hi hp with ⟨k, hex, hfirst, rfl⟩ | ⟨cmd, len, -, rfl⟩
    · exact ⟨k, hex, hfirst, (raiseUndef_cellAt hi hf k).2⟩
    · rw [raise_unfaulted hf] at ht
      exact absurd ht (show FaultKind.arenaOverrun.mask ≠ 0x4 by decide)

end

/-! ### The passes of a drain -/

/-- Settles O40: a pass that goes on lowers `AVAIL`, so the budget lasts. -/
theorem drainTerminates : Obligations.DrainTerminates :=
  fun _ hi => ⟨fun _ => drainPass_again_avail_lt hi, drain_ne_stuck hi (Nat.lt_succ_self _)⟩

/-- Budgets that last do not differ. -/
theorem drain_eq_of_avail_lt : ∀ {m n : Nat} {s : State}, s.Inv → s.avail < m → s.avail < n → drain m s = drain n s
  | 0, _, _, _, hm, _ => absurd hm (Nat.not_lt_zero _)
  | _, 0, _, _, _, hn => absurd hn (Nat.not_lt_zero _)
  | m + 1, n + 1, s, hi, hm, hn => by
    rw [drain_succ, drain_succ]
    cases hp : drainPass s with
    | again t =>
      have hlt := drainPass_again_avail_lt hi hp
      exact drain_eq_of_avail_lt (drainPass_inv hi hp) (by omega) (by omega)
    | leave t => rfl
    | raised t => rfl

/-- Settles O42: the budget left after a pass lasts for the rest of the drain. -/
theorem drainFollowsItsPasses : Obligations.DrainFollowsItsPasses := by
  intro s hi
  refine ⟨fun t hp => ?_, fun t hp => ⟨?_, (drainPass_leave hp).1⟩, fun t hp => ?_⟩ <;> rw [drainAll, drain_succ, hp]
  exact drain_eq_of_avail_lt (drainPass_inv hi hp) (drainPass_again_avail_lt hi hp) (Nat.lt_succ_self _)

/-- Settles O41: the last pass returned, and a pass returns at a residue only. -/
theorem drainMakesProgress : Obligations.DrainMakesProgress := by
  intro s t _ h
  have hsettled := settled_of_drainAll_done h
  refine ⟨hsettled, (settled_iff.mp hsettled).imp_right ?_⟩
  rintro ⟨c0, c1, l0, l1, seq, crc, hp, -, -, ha⟩
  have hb := (peek_ok.mp hp).2
  rw [le16_toNat] at ha
  exact ⟨hb 0 (by simp), l0, l1, hb 3 (by simp), hb 4 (by simp), by unfold headerSize tailSize at ha; omega⟩

/-- Settles O43: a drain ends with a pass that returns and changes nothing, and a second drain starts with that pass. -/
theorem secondDrainChangesNothing : Obligations.SecondDrainChangesNothing := by
  intro s t _ h
  have hleave : drainPass t = .leave t :=
    drain_done_of (P := fun _ => True) (Q := fun t => drainPass t = .leave t) (fun _ _ _ _ => trivial)
      (fun _ _ _ hp => by obtain ⟨rfl, -⟩ := drainPass_leave hp; exact hp) trivial h
  rw [drainAll, drain_succ, hleave]

/-! ### The units of a committed stream

The fragmentation law needs a parse of the stream that does not know how far it has been committed, which is what the cuts
change. `unitAt` reads the unit at a position of the whole stream; the commits say only whether the engine has come to it. -/

/-- A committed stream by position. Position 0 lies in cell `base` of the ring. -/
structure WireStream where
  base  : Nat
  cells : Nat → Option Byte

/-- The `n` bytes from position `p` on; an `UNDEF` cell, which a parse without a fault never examines, reads 0. -/
def WireStream.bytes (f : WireStream) (p n : Nat) : List Byte := (List.range n).map fun k => (f.cells (p + k)).getD 0

/-- The cells `l` stand in the stream from position `n` on. -/
def WireStream.Carries (f : WireStream) (n : Nat) (l : List (Option Byte)) : Prop :=
  ∀ (k : Nat) (h : k < l.length), f.cells (n + k) = l[k]

/-- What the engine does with one unit: the bytes it drops, those it has to see first, and the dispatch it makes. -/
structure WireUnit where
  size  : Nat
  needs : Nat
  log   : List Dispatched

/-- The unit behind a header at position `p`: a bad header, a frame with a bad tail, or a valid frame (R606 to R611). -/
def frameUnit (maxp : Nat) (f : WireStream) (p : Nat) (cmd len : Half) (seq crc : Byte) : WireUnit :=
  if crc8 (headerBody cmd len seq) ≠ crc ∨ maxp < len.toNat then ⟨1, headerSize, []⟩
  else if crc16 (f.bytes p (headerSize + len.toNat)) ≠ fieldAt (f.bytes (p + (headerSize + len.toNat)) tailSize) 0 then
    ⟨1, headerSize + len.toNat + tailSize, []⟩
  else ⟨9 + len.toNat, headerSize + len.toNat + tailSize, [⟨cmd, f.bytes (p + headerSize) len.toNat⟩]⟩

/-- The unit at position `p`; junk is taken byte by byte, because the cuts of a stream cut the engine's scans too. -/
def unitAt (maxp : Nat) (f : WireStream) (p : Nat) : WireUnit :=
  match decodeWire (f.bytes p headerSize) with
  | .ok (.frame cmd len seq crc) => frameUnit maxp f p cmd len seq crc
  | _ => ⟨1, 1, []⟩

/-- With `n` cells committed, units one after another lead from position `p` to `q` and make the dispatches `l`. -/
inductive Parses (maxp : Nat) (f : WireStream) (n : Nat) : Nat → List Dispatched → Nat → Prop where
  | here (p : Nat) : Parses maxp f n p [] p
  | unit {p q : Nat} {l : List Dispatched} : p + (unitAt maxp f p).needs ≤ n →
      Parses maxp f n (p + (unitAt maxp f p).size) l q → Parses maxp f n p ((unitAt maxp f p).log ++ l) q

section
variable {maxp n p q : Nat} {f : WireStream} {cmd len : Half} {seq crc : Byte} {l : List Dispatched}

theorem WireStream.bytes_succ (f : WireStream) (p n : Nat) :
    f.bytes p (n + 1) = (f.cells p).getD 0 :: f.bytes (p + 1) n := by
  simp [WireStream.bytes, List.range_succ_eq_map, Nat.add_assoc, Nat.add_comm 1]

theorem WireStream.carries_append {a b : List (Option Byte)} :
    f.Carries n (a ++ b) ↔ f.Carries n a ∧ f.Carries (n + a.length) b := by
  constructor
  · intro h
    refine ⟨fun k hk => ?_, fun k hk => ?_⟩
    · rw [h k (by rw [List.length_append]; omega), List.getElem_append_left hk]
    · rw [Nat.add_assoc, h (a.length + k) (by rw [List.length_append]; omega), List.getElem_append_right (by omega)]
      simp
  · rintro ⟨ha, hb⟩ k hk
    rw [List.length_append] at hk
    by_cases hka : k < a.length
    · rw [List.getElem_append_left hka, ha k hka]
    · rw [List.getElem_append_right (by omega), ← hb (k - a.length) (by omega)]
      exact congrArg f.cells (by omega)

theorem unitAt_junk {c : Byte} (hc : f.cells p = some c) (hne : c ≠ sof) : unitAt maxp f p = ⟨1, 1, []⟩ := by
  have hbytes : f.bytes p headerSize = c :: f.bytes (p + 1) 6 := by
    rw [show headerSize = 6 + 1 from rfl, WireStream.bytes_succ, hc]
    rfl
  rw [unitAt, hbytes, decodeWire_junk hne]

theorem unitAt_header {c0 c1 l0 l1 : Byte} (h : f.bytes p headerSize = [sof, c0, c1, l0, l1, seq, crc]) :
    unitAt maxp f p = frameUnit maxp f p (le16 c0 c1) (le16 l0 l1) seq crc := by
  rw [unitAt, h]
  rfl

theorem frameUnit_bad_header (h : crc8 (headerBody cmd len seq) ≠ crc ∨ maxp < len.toNat) :
    frameUnit maxp f p cmd len seq crc = ⟨1, headerSize, []⟩ := if_pos h

/-- Past the checks of the header the CRC16 check decides, and it needs the whole frame (R609, R610). -/
theorem frameUnit_good_header (hcrc : crc8 (headerBody cmd len seq) = crc) (hm : len.toNat ≤ maxp) :
    frameUnit maxp f p cmd len seq crc =
      if crc16 (f.bytes p (headerSize + len.toNat)) ≠ fieldAt (f.bytes (p + (headerSize + len.toNat)) tailSize) 0 then
        ⟨1, headerSize + len.toNat + tailSize, []⟩
      else ⟨9 + len.toNat, headerSize + len.toNat + tailSize, [⟨cmd, f.bytes (p + headerSize) len.toNat⟩]⟩ :=
  if_neg (by simp [hcrc, Nat.not_lt.mpr hm])

theorem frameUnit_needs (hcrc : crc8 (headerBody cmd len seq) = crc) (hm : len.toNat ≤ maxp) :
    (frameUnit maxp f p cmd len seq crc).needs = headerSize + len.toNat + tailSize := by
  rw [frameUnit_good_header hcrc hm]
  split <;> rfl

/-- A unit that needs less than a header is junk and dispatches nothing. -/
theorem unitAt_log_of_needs_lt (h : (unitAt maxp f p).needs < headerSize) : (unitAt maxp f p).log = [] := by
  unfold unitAt at h ⊢
  split at h
  · unfold frameUnit at h
    split at h
    · exact absurd h (Nat.lt_irrefl _)
    · split at h <;> exact absurd h (by simp only; omega)
  · rfl

theorem Parses.trans {r : Nat} {l' : List Dispatched} (h : Parses maxp f n p l q) (h' : Parses maxp f n q l' r) :
    Parses maxp f n p (l ++ l') r := by
  induction h with
  | here p => exact h'
  | unit hn _ ih =>
    rw [List.append_assoc]
    exact .unit hn (ih h')

/-- What could be parsed can be when more is committed. -/
theorem Parses.mono {m : Nat} (h : Parses maxp f n p l q) (hm : n ≤ m) : Parses maxp f m p l q := by
  induction h with
  | here p => exact .here p
  | unit hn _ ih => exact .unit (hn.trans hm) ih

theorem Parses.one (hn : p + (unitAt maxp f p).needs ≤ n) :
    Parses maxp f n p (unitAt maxp f p).log (p + (unitAt maxp f p).size) := by
  simpa using Parses.unit hn (.here _)

theorem Parses.junk : ∀ {k p : Nat}, (∀ j < k, ∃ c, f.cells (p + j) = some c ∧ c ≠ sof) → p + k ≤ n →
    Parses maxp f n p [] (p + k)
  | 0, p, _, _ => .here p
  | k + 1, p, h, hn => by
    obtain ⟨c, hc, hne⟩ := h 0 (Nat.zero_lt_succ k)
    have hunit : unitAt maxp f p = ⟨1, 1, []⟩ := unitAt_junk hc hne
    have hone := Parses.one (maxp := maxp) (f := f) (p := p) (n := n) (by rw [hunit]; simp only; omega)
    rw [hunit] at hone
    have hrest := Parses.junk (k := k) (p := p + 1)
      (fun j hj => by rw [Nat.add_assoc, Nat.add_comm 1]; exact h (j + 1) (Nat.succ_lt_succ hj)) (by omega)
    rw [show p + (k + 1) = p + 1 + k by omega]
    exact hone.trans hrest

/-- The unit at a position is one, so of two parses from one position one goes on where the other has ended. -/
theorem Parses.linear {q' : Nat} {l' : List Dispatched} (h : Parses maxp f n p l q) (h' : Parses maxp f n p l' q') :
    (∃ r, Parses maxp f n q r q' ∧ l' = l ++ r) ∨ (∃ r, Parses maxp f n q' r q ∧ l = l' ++ r) := by
  induction h generalizing l' with
  | here p => exact .inl ⟨l', h', rfl⟩
  | unit hn hrest ih =>
    cases h' with
    | here => exact .inr ⟨_, .unit hn hrest, rfl⟩
    | unit _ hrest' =>
      rcases ih hrest' with ⟨r, hr, rfl⟩ | ⟨r, hr, rfl⟩
      · exact .inl ⟨r, hr, (List.append_assoc _ _ _).symm⟩
      · exact .inr ⟨r, hr, (List.append_assoc _ _ _).symm⟩

/-- Fewer than seven bytes hold no frame. -/
theorem Parses.log_of_short (h : Parses maxp f n p l q) (hshort : n < p + headerSize) : l = [] := by
  induction h with
  | here p => rfl
  | unit hn _ ih => rw [unitAt_log_of_needs_lt (by omega), ih (by omega), List.append_nil]

end

/-! ### A block on a stream -/

/-- The block has committed the stream's cells up to position `n` and dropped those before `p`. -/
structure State.StandsAt (s : State) (f : WireStream) (p n : Nat) : Prop where
  committed : p + s.avail = n
  wr_eq : s.wr.toNat = (f.base + n) % s.ringSize
  cells : ∀ j < s.avail, s.byteAt j = f.cells (p + j)

/-- The arena after a dispatch: the payload in its slot, or dropped (R510). -/
def Dispatched.store (c : Config) (m : Memory) (d : Dispatched) : Memory :=
  match c.slotOf d.cmd with
  | some slot => Memory.writeArena m slot.offset d.payload
  | none => m

/-- With `n` cells committed the block has come from `s` at position `p` to `t` at `q`, along the units of the stream, and
the dispatches `l` of these units have written the arena. -/
structure Advances (f : WireStream) (n : Nat) (s : State) (p : Nat) (l : List Dispatched) (t : State) (q : Nat) : Prop where
  stands : t.StandsAt f q n
  parses : Parses s.cfg.maxPayload f n p l q
  arena_eq : t.arena = l.foldl (Dispatched.store s.cfg) s.arena
  cfg_eq : t.cfg = s.cfg

section
variable {s t u : State} {f : WireStream} {p q r n m : Nat} {l l' : List Dispatched}

/-- What does not drop or dispatch stays where it stands. -/
theorem Advances.still (ht : t.StandsAt f p n) (hcfg : t.cfg = s.cfg) (harena : t.arena = s.arena) :
    Advances f n s p [] t p := ⟨ht, .here p, harena, hcfg⟩

theorem Advances.trans (h : Advances f n s p l t q) (h' : Advances f m t q l' u r) (hn : n ≤ m) :
    Advances f m s p (l ++ l') u r where
  stands := h'.stands
  parses := (h.parses.mono hn).trans (h.cfg_eq ▸ h'.parses)
  arena_eq := by rw [h'.arena_eq, h.arena_eq, h.cfg_eq, List.foldl_append]
  cfg_eq := h'.cfg_eq.trans h.cfg_eq

theorem State.StandsAt.discard (hi : s.Inv) (h : s.StandsAt f p n) (hm : m ≤ s.avail) :
    (s.discard m).StandsAt f (p + m) n where
  committed := by
    have := h.committed
    rw [avail_discard hi.size_le hi.rd_lt hi.wr_lt hm]
    omega
  wr_eq := h.wr_eq
  cells j hj := by
    rw [avail_discard hi.size_le hi.rd_lt hi.wr_lt hm] at hj
    rw [byteAt_discard hi.size_le hi.size_pos, h.cells _ (by omega), Nat.add_assoc]

/-- What the engine examines is the stream. -/
theorem State.StandsAt.bytes_eq (h : s.StandsAt f p n) {j m : Nat} {bs : List Byte} (hm : j + m ≤ s.avail)
    (hp : s.peek j m = .ok bs) : f.bytes (p + j) m = bs := by
  obtain ⟨hl, hb⟩ := peek_ok.mp hp
  refine List.ext_getElem (by simp [WireStream.bytes, hl]) fun k _ hk => ?_
  have hcell := h.cells (j + k) (by omega)
  rw [hb k hk, ← Nat.add_assoc] at hcell
  simp [WireStream.bytes, ← hcell]

theorem State.StandsAt.bytes_eq_head (h : s.StandsAt f p n) {m : Nat} {bs : List Byte} (hm : m ≤ s.avail)
    (hp : s.peek 0 m = .ok bs) : f.bytes p m = bs := h.bytes_eq (j := 0) (by omega) hp

/-! ### Passes along the stream -/

theorem headerSize_le_of_again (h : drainPass s = .again t) : headerSize ≤ s.avail := by
  rcases drainPass_cases s with ⟨-, he⟩ | ⟨h7, -⟩ | ⟨h7, -⟩
  · rw [he] at h; cases h
  · exact h7
  · exact h7

theorem passDispatches_of_sof (hi : s.Inv) (h7 : headerSize ≤ s.avail) (h0 : s.byteAt 0 = some sof) :
    s.passDispatches = s.parseDispatches := by
  have hview := (rview_bounds hi (by unfold headerSize at h7; omega)).1
  rw [State.passDispatches, if_neg (Nat.not_lt.mpr h7), if_pos (scan_eq_found_zero hview h0)]

theorem passDispatches_of_not_sof (h0 : s.byteAt 0 ≠ some sof) : s.passDispatches = [] := by
  have hscan : s.scan s.rview ≠ .found 0 := fun h => h0 (scan_found_zero h).2
  simp [State.passDispatches, hscan]

/-- A pass on junk drops junk only (R603). -/
theorem afterScan_again (hview : s.rview ≤ s.avail) (h : afterScan s (s.scan s.rview) = .again t) :
    ∃ k ≤ s.avail, t = s.discard k ∧ ∀ j < k, ∃ c, s.byteAt j = some c ∧ c ≠ sof := by
  cases hr : s.scan s.rview <;> rw [hr] at h <;> cases h
  case notFound.refl => exact ⟨_, hview, rfl, scanFor_eq_notFound.mp hr⟩
  case found.refl k =>
    obtain ⟨hk, -, hjunk⟩ := scanFor_eq_found.mp hr
    exact ⟨k, by omega, rfl, hjunk⟩

theorem dispatch_success_of_again {cmd len : Half} {bs : List Byte} (h : afterParse s (dispatch cmd len bs s) = .again t) :
    dispatch cmd len bs s = .success t := by
  rcases dispatch_cases cmd len bs s with ⟨_, -, -, he⟩ | ⟨_, -, -, he⟩ | ⟨-, he⟩ <;> rw [he] at h ⊢ <;> cases h <;> rfl

/-- A parse that returns SUCCESS drops the frame and dispatches the stream's bytes (R510). -/
theorem State.StandsAt.dispatches (hi : s.Inv) (h : s.StandsAt f p n) {c0 c1 l0 l1 seq crc : Byte} {bs : List Byte}
    (ha : 9 + (le16 l0 l1).toNat ≤ s.avail) (hheader : s.peek 0 headerSize = .ok [sof, c0, c1, l0, l1, seq, crc])
    (hparse : parseFrame s = .success t) (hd : dispatch (le16 c0 c1) (le16 l0 l1) bs s = .success t) :
    t.StandsAt f (p + (9 + (le16 l0 l1).toNat)) n
      ∧ s.parseDispatches = [⟨le16 c0 c1, f.bytes (p + headerSize) (le16 l0 l1).toNat⟩] := by
  obtain ⟨payload, hpayload, -, hlog⟩ := parseDispatches_success hheader hparse
  have hdropped := h.discard hi ha
  refine ⟨?_, by rw [hlog, h.bytes_eq (by unfold headerSize; omega) hpayload]⟩
  rcases dispatch_success hi.size_le hi.size_pos hd with ⟨_, -, -, rfl⟩ | ⟨-, rfl⟩
  · exact ⟨hdropped.committed, hdropped.wr_eq, hdropped.cells⟩
  · exact hdropped

/-- The unit a parse of SOF has gone past: what it needed was committed, what it drops has been dropped, and it made the
parse's dispatch (R604, R611). -/
theorem State.StandsAt.parse (hi : s.Inv) (h : s.StandsAt f p n) (h7 : headerSize ≤ s.avail)
    (h0 : s.byteAt 0 = some sof) (hagain : afterParse s (parseFrame s) = .again t) :
    p + (unitAt s.cfg.maxPayload f p).needs ≤ n ∧ t.StandsAt f (p + (unitAt s.cfg.maxPayload f p).size) n
      ∧ s.parseDispatches = (unitAt s.cfg.maxPayload f p).log := by
  have hcommitted := h.committed
  have hfailure : ∀ needs, p + needs ≤ n → parseFrame s = .failure →
      p + needs ≤ n ∧ t.StandsAt f (p + 1) n ∧ s.parseDispatches = [] := fun needs hneeds hfail => by
    rw [hfail] at hagain
    cases hagain
    exact ⟨hneeds, h.discard hi (by unfold headerSize at h7; omega), by simp [State.parseDispatches, hfail]⟩
  rcases parseFrame_cases h0 with ⟨_, -, -, hparse⟩ | ⟨c0, c1, l0, l1, seq, crc, hheader, hparse⟩
  · rw [hparse] at hagain; cases hagain
  rw [unitAt_header (h.bytes_eq_head h7 hheader)]
  rcases checkFrame_cases (le16 c0 c1) (le16 l0 l1) seq crc s with ⟨hbad, he⟩ | ⟨-, -, -, he⟩ | ⟨hcrc, hm, ha, he⟩ <;>
    rw [he] at hparse
  · rw [frameUnit_bad_header hbad]
    exact hfailure headerSize (by omega) hparse
  · rw [hparse] at hagain; cases hagain
  rw [frameUnit_good_header hcrc hm]
  rcases checkTail_cases (le16 c0 c1) (le16 l0 l1) s with
    ⟨_, -, -, hend⟩ | ⟨covered, tail, hcovered, htail, ⟨hcrc16, hend⟩ | ⟨hcrc16, hend⟩⟩ <;> rw [hend] at hparse
  · rw [hparse] at hagain; cases hagain
  · rw [← h.bytes_eq_head (by omega) hcovered, ← h.bytes_eq (by omega) htail] at hcrc16
    rw [if_pos hcrc16]
    exact hfailure (headerSize + (le16 l0 l1).toNat + tailSize) (by omega) hparse
  · rw [← h.bytes_eq_head (by omega) hcovered, ← h.bytes_eq (by omega) htail] at hcrc16
    rw [if_neg (not_not.mpr hcrc16)]
    rw [hparse] at hagain
    have hd := dispatch_success_of_again hagain
    exact ⟨by simp only; omega, h.dispatches hi (by unfold headerSize tailSize at ha; omega) hheader (hparse.trans hd) hd⟩

/-- The arena after a pass is that of its dispatches (R510). -/
theorem drainPass_arena (hi : s.Inv) (h : drainPass s = .again t) :
    t.arena = s.passDispatches.foldl (Dispatched.store s.cfg) s.arena := by
  by_cases hparse : parseFrame s = .success t
  · obtain ⟨cmd, seq, payload, -, ha, hp, hd⟩ := parseFrame_success_frameBytes hparse
    have hlt := avail_lt hi.size_pos
    have hN := hi.size_le
    have hlog : s.passDispatches = [⟨cmd, payload⟩] := by
      rw [passDispatches_of_sof hi (headerSize_le_of_again h) (byteAt_zero_of_frameBytes hp), State.parseDispatches, hparse]
      simp [frameAtHead_frameBytes (by omega) hp]
    rw [hlog]
    rcases dispatch_success hi.size_le hi.size_pos hd with ⟨slot, hslot, -, rfl⟩ | ⟨hslot, rfl⟩
    · simp [Dispatched.store, hslot]
    · simp [Dispatched.store, hslot]
  · obtain ⟨hlog, harena⟩ := not_or.mp (mt (parseFrame_success_of_drainPass h) hparse)
    rw [not_not.mp hlog, not_not.mp harena]
    rfl

/-- A pass that goes on leads along the units of the stream (R601). -/
theorem State.StandsAt.pass (hi : s.Inv) (h : s.StandsAt f p n) (hp : drainPass s = .again t) :
    ∃ q, Advances f n s p s.passDispatches t q := by
  have h7 := headerSize_le_of_again hp
  have hcommitted := h.committed
  have harena := drainPass_arena hi hp
  have hcfg : t.cfg = s.cfg := by
    obtain ⟨_, _, rfl⟩ := drainPass_drainedTo hp
    rfl
  by_cases h0 : s.byteAt 0 = some sof
  · rw [drainPass_of_sof hi h7 h0] at hp
    obtain ⟨hneeds, hstands, hlog⟩ := h.parse hi h7 h0 hp
    rw [passDispatches_of_sof hi h7 h0, hlog] at harena ⊢
    exact ⟨_, hstands, .one hneeds, harena, hcfg⟩
  · rw [drainPass_of_not_sof h7 h0] at hp
    have hview := (rview_bounds hi (by unfold headerSize at h7; omega)).2
    obtain ⟨k, hk, rfl, hjunk⟩ := afterScan_again hview hp
    rw [passDispatches_of_not_sof h0] at harena ⊢
    refine ⟨p + k, h.discard hi hk, .junk (fun j hj => ?_) (by omega), harena, hcfg⟩
    rw [← h.cells j (by omega)]
    exact hjunk j hj

theorem State.StandsAt.drain : ∀ {m : Nat} {s : State} {p : Nat}, s.Inv → s.StandsAt f p n → drain m s = .done t →
    ∃ q, Advances f n s p (drainDispatches m s) t q
  | 0, _, _, _, _, hd => by cases hd
  | m + 1, s, p, hi, h, hd => by
    rw [drain_succ] at hd
    cases hp : drainPass s with
    | again u =>
      rw [hp] at hd
      obtain ⟨q, hpass⟩ := h.pass hi hp
      obtain ⟨r, hrest⟩ := hpass.stands.drain (drainPass_inv hi hp) hd
      exact ⟨r, drainDispatches_again hp m ▸ hpass.trans hrest (Nat.le_refl n)⟩
    | leave u =>
      rw [hp] at hd
      cases hd
      obtain ⟨rfl, -⟩ := drainPass_leave hp
      exact ⟨p, drainDispatches_leave hp m ▸ .still h rfl rfl⟩
    | raised u => rw [hp] at hd; cases hd

/-- From a residue no parse of what is committed makes a dispatch (R611, R616). -/
theorem Parses.log_of_settled (hs : s.settled = true) (hat : s.StandsAt f p n)
    (h : Parses s.cfg.maxPayload f n p l q) : l = [] := by
  have hcommitted := hat.committed
  rcases settled_iff.mp hs with hshort | ⟨c0, c1, l0, l1, seq, crc, hheader, hcrc, hm, ha⟩
  · exact h.log_of_short (by omega)
  · by_cases h7 : s.avail < headerSize
    · exact h.log_of_short (by omega)
    · have hneeds := frameUnit_needs (f := f) (p := p) (cmd := le16 c0 c1) hcrc hm
      rw [← unitAt_header (hat.bytes_eq_head (by omega) hheader)] at hneeds
      cases h with
      | here => rfl
      | unit hn _ => omega

end

/-! ### Commands along the stream -/

section
variable {s t u c : State} {i : Instr} {f : WireStream} {p n : Nat}

/-- A delivery commits no more than `SPACE` (R410, R413). -/
theorem delivery_within_space (h : s.delivery i = some c) :
    (∃ len data, i = .push len data ∧ data.length ≤ s.space ∧ c = s.ringWrite data)
      ∨ ∃ n, i = .advance n ∧ n.toNat ≤ s.space ∧ c = s.commit n.toNat := by
  have hbound := h
  rcases delivery_cases h with ⟨len, data, rfl, rfl⟩ | ⟨n, rfl, rfl⟩
  · simp only [State.delivery, Option.ite_none_left_eq_some, Option.ite_none_right_eq_some] at hbound
    obtain ⟨-, ⟨-, hspace⟩, -⟩ := hbound
    exact .inl ⟨len, data, rfl, hspace, rfl⟩
  · simp only [State.delivery, Option.ite_none_left_eq_some, Option.ite_none_right_eq_some] at hbound
    obtain ⟨-, hspace, -⟩ := hbound
    exact .inr ⟨n, rfl, hspace, rfl⟩

theorem delivery_arena (h : s.delivery i = some c) : c.arena = s.arena := by
  rcases delivery_cases h with ⟨_, _, -, rfl⟩ | ⟨_, -, rfl⟩ <;> rfl

/-- A delivery keeps the committed bytes and moves `WR` over the cells it commits (R403, R413). -/
theorem delivery_commits (hi : s.Inv) (h : s.delivery i = some c) :
    c.avail = s.avail + (s.commits i).length ∧ c.wr.toNat = (s.wr.toNat + (s.commits i).length) % s.ringSize
      ∧ (∀ j < s.avail, c.byteAt j = s.byteAt j)
      ∧ ∀ (k : Nat) (hk : k < (s.commits i).length), c.byteAt (s.avail + k) = (s.commits i)[k] := by
  have hcommits : s.commits i = (List.range (c.avail - s.avail)).map fun k => c.byteAt (s.avail + k) := by
    rw [State.commits, h]
  have hlength : (s.commits i).length = c.avail - s.avail := by simp [hcommits]
  refine and_assoc.mp (and_assoc.mp ⟨?_, fun k hk => by simp [hcommits]⟩)
  rcases delivery_within_space h with ⟨_, data, -, hd, rfl⟩ | ⟨m, -, hm, rfl⟩
  · have havail := avail_ringWrite hi hd
    rw [hlength, havail, Nat.add_sub_cancel_left]
    exact ⟨⟨rfl, ringIndex_toNat hi.size_le hi.size_pos _⟩, fun j hj => byteAt_ringWrite_old hi hd hj⟩
  · have havail := avail_commit hi hm
    rw [hlength, havail, Nat.add_sub_cancel_left]
    exact ⟨⟨rfl, ringIndex_toNat hi.size_le hi.size_pos _⟩, fun _ _ => rfl⟩

theorem State.StandsAt.delivery (hi : s.Inv) (h : s.StandsAt f p n) (hd : s.delivery i = some c)
    (hc : f.Carries n (s.commits i)) : c.StandsAt f p (n + (s.commits i).length) := by
  obtain ⟨havail, hwr, hold, hnew⟩ := delivery_commits hi hd
  have hsize : c.ringSize = s.ringSize := congrArg Config.ringSize (delivery_cfg hd)
  have hcommitted := h.committed
  refine ⟨by omega, by rw [hwr, h.wr_eq, mod_add_mod, Nat.add_assoc, hsize], fun j hj => ?_⟩
  by_cases hjold : j < s.avail
  · rw [hold j hjold, h.cells j hjold]
  · obtain ⟨k, rfl⟩ := Nat.exists_eq_add_of_le (Nat.not_lt.mp hjold)
    rw [hnew k (by omega), ← hc k (by omega), ← hcommitted, Nat.add_assoc]

theorem State.StandsAt.respond (h : s.StandsAt f p n) (st : Status) (v : Word) : (s.respond st v).StandsAt f p n :=
  ⟨h.committed, h.wr_eq, h.cells⟩

theorem State.StandsAt.stage (hi : s.Inv) (h : s.StandsAt f p n) {j : Nat} (hj : j < s.wviewLen) (b : Byte) :
    (s.stage j b).StandsAt f p n :=
  ⟨h.committed, h.wr_eq, fun k hk => (byteAt_stage hi hj hk b).trans (h.cells k hk)⟩

theorem raise_fault_ne_zero (hs : s.Ready) (k : FaultKind) (info : Word) : (s.raise k info).fault ≠ 0 := by
  rw [raise_unfaulted hs.unfaulted]
  exact mask_ne_zero k

/-- A command between the chunks of a stream, if it raises no fault, delivers, answers or stages (R617). -/
theorem exec_keepsStream_cases (hs : s.Ready) (hk : keepsStream i = true) (h : exec i s = .next u) (hu : u.fault = 0) :
    (∃ c, s.delivery i = some c ∧ afterDrain (drainAll c) = .next u)
      ∨ (s.delivery i = none ∧ ((∃ st v, u = s.respond st v)
        ∨ ∃ j b, j < s.wviewLen ∧ u = (s.stage j b).respond .ok 0)) := by
  cases hd : s.delivery i with
  | some c => exact .inl ⟨c, rfl, (exec_delivery hs hd).symm.trans h⟩
  | none =>
    refine .inr ⟨rfl, ?_⟩
    cases i with
    | clear | frame _ _ _ _ | junk _ => cases hk
    | push len data =>
      rw [exec_push_ready hs] at h
      split at h
      · cases h; exact absurd hu (raise_fault_ne_zero hs _ _)
      · rename_i hl
        split at h
        · cases h; exact .inl ⟨_, _, rfl⟩
        · rw [delivery_push hs.unfaulted (not_not.mp hl) (by omega)] at hd
          cases hd
    | advance m =>
      rw [exec_advance_ready hs] at h
      split at h
      · cases h; exact .inl ⟨_, _, rfl⟩
      · rw [delivery_advance hs.unfaulted (by omega)] at hd
        cases hd
    | vwrite j b =>
      rw [exec_vwrite_ready hs] at h
      split at h
      · cases h; exact absurd hu (raise_fault_ne_zero hs _ _)
      · cases h; exact .inr ⟨_, _, by omega, rfl⟩
    | arenaRead addr =>
      rw [exec_arenaRead_ready hs] at h
      split at h
      · cases h; exact absurd hu (raise_fault_ne_zero hs _ _)
      · cases h; exact .inl ⟨_, _, rfl⟩
    | wview => cases (exec_wview_ready hs).symm.trans h; exact .inl ⟨_, _, rfl⟩
    | avail => cases (exec_avail_ready hs).symm.trans h; exact .inl ⟨_, _, rfl⟩
    | space => cases (exec_space_ready hs).symm.trans h; exact .inl ⟨_, _, rfl⟩
    | full => cases (exec_full_ready hs).symm.trans h; exact .inl ⟨_, _, rfl⟩
    | empty => cases (exec_empty_ready hs).symm.trans h; exact .inl ⟨_, _, rfl⟩
    | lookup cmd => cases (exec_lookup_ready hs cmd).symm.trans h; exact .inl ⟨_, _, rfl⟩
    | faults | faultinfo =>
      rw [exec] at h
      obtain ⟨-, h⟩ := onBlock_next h
      cases h; exact .inl ⟨_, _, rfl⟩

/-- A command leads along the units of the stream, of which it commits the next cells. -/
theorem State.StandsAt.exec (hi : s.Inv) (hf : s.fault = 0) (h : s.StandsAt f p n) (hk : keepsStream i = true)
    (hx : exec i s = .next u) (hu : u.fault = 0) (hc : f.Carries n (s.commits i)) :
    ∃ q, Advances f (n + (s.commits i).length) s p (s.dispatches i) u q := by
  rcases exec_keepsStream_cases (hi.ready hf) hk hx hu with ⟨c, hd, hend⟩ | ⟨hd, hcase⟩
  · obtain ⟨hci, hcf⟩ := delivery_inv hi hd
    have hstands := h.delivery hi hd hc
    have hdispatches : s.dispatches i = c.drainLog := by rw [State.dispatches, hd]
    rcases afterDrain_next hend with ⟨v, hv, rfl⟩ | hr
    · obtain ⟨q, hdrain⟩ := hstands.drain hci hv
      have hcommit : Advances f _ s p [] c p := .still hstands (delivery_cfg hd) (delivery_arena hd)
      have hanswer : Advances f _ v q [] (v.respond .ok 0) q := .still (hdrain.stands.respond _ _) rfl rfl
      rw [hdispatches, ← List.append_nil c.drainLog]
      exact ⟨q, hcommit.trans (hdrain.trans hanswer (Nat.le_refl _)) (Nat.le_refl _)⟩
    · obtain ⟨hfault | hfault, -⟩ := drainAll_raised_fault hci (hcf.trans hf) hr <;> simp [hfault] at hu
  · rw [commits_of_no_delivery hd, dispatches_of_no_delivery hd]
    rcases hcase with ⟨st, v, rfl⟩ | ⟨j, b, hj, rfl⟩
    · exact ⟨p, .still (h.respond st v) rfl rfl⟩
    · exact ⟨p, .still ((h.stage hi hj b).respond .ok 0) rfl rfl⟩

/-! ### Runs along the stream -/

theorem keepsStream_encode (hk : keepsStream i = true) : ∃ w data, encode i = .host w data := by
  cases i with
  | clear | frame _ _ _ _ | junk _ => cases hk
  | _ => exact ⟨_, _, rfl⟩

theorem exec_effect (hk : keepsStream i = true) (h : Machine.exec i s = .next u) : CommandEffect (.ok i) s u := by
  obtain ⟨_, _, he⟩ := keepsStream_encode hk
  exact .of_exec he h

/-- A run does not leave the faulted state, so one that ends unfaulted never was in it (R809, R814). -/
theorem fault_of_execAll : ∀ {is : List Instr} {s : State}, (∀ i ∈ is, keepsStream i = true) →
    execAll is s = .next t → t.fault = 0 → s.fault = 0
  | [], _, _, h, ht => by cases h; exact ht
  | i :: is, s, hk, h, ht => by
    rw [execAll] at h
    cases hx : Machine.exec i s with
    | next u =>
      rw [hx] at h
      have hu := fault_of_execAll (fun j hj => hk j (List.mem_cons_of_mem _ hj)) h ht
      by_contra hf
      obtain ⟨st, v, rfl⟩ := (exec_effect (hk i List.mem_cons_self) hx).of_faulted hf
      exact hf hu
    | fault r => rw [hx] at h; cases h
    | refused r => rw [hx] at h; cases h

/-- A run leads along the units of the stream it commits, and ends at a residue. -/
theorem State.StandsAt.execAll : ∀ {is : List Instr} {s : State} {p n : Nat}, s.Inv → s.fault = 0 → s.Settled →
    s.StandsAt f p n → (∀ i ∈ is, keepsStream i = true) → execAll is s = .next t → t.fault = 0 →
    f.Carries n (streamOf is s) →
    ∃ q, Advances f (n + (streamOf is s).length) s p (dispatchesOf is s) t q ∧ t.settled = true
  | [], s, p, n, _, hf, hs, h, _, hx, _, _ => by
    cases hx
    exact ⟨p, .still h rfl rfl, hs hf⟩
  | i :: is, s, p, n, hi, hf, hs, h, hk, hx, ht, hc => by
    have hki := hk i List.mem_cons_self
    have hkis : ∀ j ∈ is, keepsStream j = true := fun j hj => hk j (List.mem_cons_of_mem _ hj)
    rw [Machine.execAll] at hx
    cases hxi : Machine.exec i s with
    | next u =>
      rw [hxi] at hx
      have hu := fault_of_execAll hkis hx ht
      have heffect := exec_effect hki hxi
      rw [streamOf_cons hxi, WireStream.carries_append] at hc
      rw [streamOf_cons hxi, dispatchesOf_cons hxi, List.length_append, ← Nat.add_assoc]
      obtain ⟨q, hfirst⟩ := h.exec hi hf hki hxi hu hc.1
      obtain ⟨r, hrest, hsettled⟩ :=
        hfirst.stands.execAll (heffect.inv hi) hu (heffect.settled hi hs) hkis hx ht hc.2
      exact ⟨r, hfirst.trans hrest (Nat.le_add_right _ _), hsettled⟩
    | fault r => rw [hxi] at hx; cases hx
    | refused r => rw [hxi] at hx; cases hx

/-! ### Fragmentation -/

/-- The stream that starts with the committed bytes of `s` and goes on with the cells `l`. -/
def State.streamWith (s : State) (l : List (Option Byte)) : WireStream where
  base := s.rd.toNat
  cells k := if k < s.avail then s.byteAt k else l.getD (k - s.avail) none

theorem standsAt_streamWith (hi : s.Inv) (l : List (Option Byte)) : s.StandsAt (s.streamWith l) 0 s.avail where
  committed := Nat.zero_add _
  wr_eq := wr_eq hi.rd_lt hi.wr_lt
  cells j hj := by simp [State.streamWith, hj]

theorem carries_streamWith (s : State) (l : List (Option Byte)) : (s.streamWith l).Carries s.avail l := fun k hk => by
  simp [State.streamWith, List.getElem?_eq_getElem hk]

/-- Where all that is committed has been parsed to a residue, the dispatches, the arena and `WR` are the stream's own. -/
theorem Advances.unique {q r : Nat} {l l' : List Dispatched} (ht : Advances f n s p l t q) (hts : t.settled = true)
    (hu : Advances f n s p l' u r) (hus : u.settled = true) : l = l' ∧ t.arena = u.arena ∧ t.wr = u.wr := by
  have hlog : l = l' := by
    rcases ht.parses.linear hu.parses with ⟨more, hmore, rfl⟩ | ⟨more, hmore, rfl⟩
    · obtain rfl : more = [] := Parses.log_of_settled hts ht.stands (ht.cfg_eq ▸ hmore)
      exact (List.append_nil l).symm
    · obtain rfl : more = [] := Parses.log_of_settled hus hu.stands (hu.cfg_eq ▸ hmore)
      exact List.append_nil l'
  refine ⟨hlog, by rw [ht.arena_eq, hu.arena_eq, hlog], BitVec.eq_of_toNat_eq ?_⟩
  rw [ht.stands.wr_eq, hu.stands.wr_eq, State.ringSize, State.ringSize, ht.cfg_eq, hu.cfg_eq]

/-- Settles O29: both runs lead along the units of one stream to a residue. -/
theorem fragmentationKeepsDispatches : Obligations.FragmentationKeepsDispatches := by
  intro s t u is js hi hf hs hk ht hu htf huf hstream
  have hstands := standsAt_streamWith hi (streamOf js s)
  have hcarries := carries_streamWith s (streamOf js s)
  obtain ⟨_, hu, hus⟩ :=
    hstands.execAll hi hf hs (fun i h => hk i (List.mem_append_right _ h)) hu huf hcarries
  obtain ⟨_, ht, hts⟩ :=
    hstands.execAll hi hf hs (fun i h => hk i (List.mem_append_left _ h)) ht htf (by rwa [hstream])
  rw [hstream] at ht
  exact ht.unique hts hu hus

end

/-! ### One cut of a PUSH -/

/-- A ring write takes its start modulo the ring's size (R403). -/
theorem writeRing_mod {n : Nat} (m : Memory) (p : Nat) (d : List Byte) :
    Memory.writeRing n m (p % n) d = Memory.writeRing n m p d := by
  induction d generalizing m p with
  | nil => rfl
  | cons b d ih => rw [Memory.writeRing, Memory.writeRing, Nat.mod_mod, ← ih _ (p % n + 1), mod_add_mod, ih]

/-- Two ring writes in a row are one. -/
theorem writeRing_append {n : Nat} (m : Memory) (p : Nat) (a b : List Byte) :
    Memory.writeRing n m p (a ++ b) = Memory.writeRing n (Memory.writeRing n m p a) (p + a.length) b := by
  induction a generalizing m p with
  | nil => rfl
  | cons c a ih =>
    rw [List.cons_append, Memory.writeRing, Memory.writeRing, ih, List.length_cons, Nat.add_assoc, Nat.add_comm 1]

section
variable {s t u : State} {d : List Byte}

/-- A PUSH commits its data bytes (R410). -/
theorem commits_push (hi : s.Inv) (hf : s.fault = 0) (hd : d.length ≤ s.space) :
    s.commits (.push (BitVec.ofNat 16 d.length) d) = d.map some := by
  have hlen := toNat_ofNat_of_le_ringSize hi (length_le_ringSize hd)
  have hdelivery := delivery_push hf hlen.symm hd
  obtain ⟨havail, -, -, hnew⟩ := delivery_commits hi hdelivery
  rw [avail_ringWrite hi hd] at havail
  refine List.ext_getElem (by rw [List.length_map]; omega) fun k hk _ => ?_
  rw [← hnew k hk, byteAt_ringWrite_new hi hd (by omega), List.getElem_map]

/-- A PUSH without a fault leaves the ring as its own write has left it, and `AVAIL` no higher (R403, R410). -/
theorem push_leaves (hi : s.Inv) (hf : s.fault = 0) (hd : d.length ≤ s.space)
    (hx : exec (.push (BitVec.ofNat 16 d.length) d) s = .next t) (ht : t.fault = 0) :
    t.ring = (s.ringWrite d).ring ∧ t.wr = (s.ringWrite d).wr ∧ t.cfg = s.cfg ∧ t.avail ≤ s.avail + d.length := by
  have hlen := toNat_ofNat_of_le_ringSize hi (length_le_ringSize hd)
  have hci := ringWrite_inv hi d
  rw [exec_push_delivers (hi.ready hf) hlen.symm (hlen.le.trans hd)] at hx
  rcases afterDrain_next hx with ⟨v, hv, rfl⟩ | hr
  · have hle : v.avail ≤ s.avail + d.length :=
      drain_done_of (P := fun v => v.Inv ∧ v.avail ≤ s.avail + d.length) (Q := fun v => v.avail ≤ s.avail + d.length)
        (fun _ _ ⟨hvi, hle⟩ hp => ⟨drainPass_inv hvi hp, (drainPass_again_avail_lt hvi hp).le.trans hle⟩)
        (fun _ _ ⟨_, hle⟩ hp => (drainPass_leave hp).1 ▸ hle) ⟨hci, (avail_ringWrite hi hd).le⟩ hv
    obtain ⟨_, _, rfl⟩ := drainAll_done_drainedTo hv
    exact ⟨rfl, rfl, rfl, hle⟩
  · obtain ⟨hfault | hfault, -⟩ := drainAll_raised_fault hci hf hr <;> simp [hfault] at ht

end

/-- Settles O28: the law of dispatches for the two runs, and the two ring writes as one. -/
theorem fragmentationKeepsArena : Obligations.FragmentationKeepsArena := by
  intro s t u v a b hi hf hs hspace ht hu hv htf hvf
  have hlength : (a ++ b).length = a.length + b.length := List.length_append
  have ha : a.length ≤ s.space := by omega
  have hkeeps : ∀ i ∈ [Instr.push (BitVec.ofNat 16 (a ++ b).length) (a ++ b)]
      ++ [.push (BitVec.ofNat 16 a.length) a, .push (BitVec.ofNat 16 b.length) b], keepsStream i = true := by
    simp [keepsStream]
  have hwhole : execAll [.push (BitVec.ofNat 16 (a ++ b).length) (a ++ b)] s = .next t := by
    rw [execAll_singleton, ht]
  have hrest : execAll [.push (BitVec.ofNat 16 b.length) b] u = .next v := by rw [execAll_singleton, hv]
  have hcut : execAll [.push (BitVec.ofNat 16 a.length) a, .push (BitVec.ofNat 16 b.length) b] s = .next v := by
    rw [execAll, hu]
    exact hrest
  have huf : u.fault = 0 := fault_of_execAll (by simp [keepsStream]) hrest hvf
  have hui : u.Inv := (exec_effect rfl hu).inv hi
  obtain ⟨hring, hwr, hcfg, hle⟩ := push_leaves hi hf ha hu huf
  have hN : u.ringSize = s.ringSize := congrArg Config.ringSize hcfg
  have hb : b.length ≤ u.space := by
    unfold State.space at hspace ⊢
    omega
  have hstream : streamOf [.push (BitVec.ofNat 16 (a ++ b).length) (a ++ b)] s
      = streamOf [.push (BitVec.ofNat 16 a.length) a, .push (BitVec.ofNat 16 b.length) b] s := by
    rw [streamOf_cons ht, streamOf_cons hu, streamOf_cons hv, commits_push hi hf hspace, commits_push hi hf ha,
      commits_push hui huf hb]
    simp [streamOf]
  obtain ⟨-, harena, hwr'⟩ := fragmentationKeepsDispatches s t v _ _ hi hf hs hkeeps hwhole hcut htf hvf hstream
  refine ⟨harena.symm, ?_, hwr'.symm⟩
  obtain ⟨htring, -⟩ := push_leaves hi hf hspace ht htf
  obtain ⟨hvring, -⟩ := push_leaves hui huf hb hv hvf
  have hstart : u.wr.toNat = (s.wr.toNat + a.length) % s.ringSize := by
    rw [hwr]
    exact ringIndex_toNat hi.size_le hi.size_pos _
  rw [hvring, htring, ringWrite_ring, ringWrite_ring, hring, hN, hstart, writeRing_mod, ringWrite_ring, writeRing_append]

end Sys2Proof.Machine
end

section
/-! PROOF. The checker kernels (44_crc.md). One bit step of either kernel is injective, and so is each kernel in its seed
and in each byte; CRC16's bit step is linear over GF(2), which splits the accumulator as the table form does. -/

namespace Sys2Proof.Machine

/-! ### Iterated steps and folds -/

theorem repeat_injective {α : Type} {f : α → α} (hf : Function.Injective f) :
    ∀ n : Nat, Function.Injective (Nat.repeat f n)
  | 0 => Function.injective_id
  | n + 1 => hf.comp (repeat_injective hf n)

theorem repeat_xor {w : Nat} {f : BitVec w → BitVec w} (hf : ∀ c d, f (c ^^^ d) = f c ^^^ f d) (n : Nat)
    (c d : BitVec w) : Nat.repeat f n (c ^^^ d) = Nat.repeat f n c ^^^ Nat.repeat f n d := by
  induction n with
  | zero => rfl
  | succ n ih => simp only [Nat.repeat, ih, hf]

section
variable {α β : Type} {f : α → β → α} (hstate : ∀ b, Function.Injective fun c => f c b)
include hstate

/-- A fold whose step is injective in the accumulator is injective in the seed. -/
theorem foldl_injective (l : List β) : Function.Injective fun c => l.foldl f c := by
  induction l with
  | nil => exact Function.injective_id
  | cons b l ih => exact ih.comp (hstate b)

/-- A fold whose step is injective in the accumulator and in the input tells two lists apart that differ in one place. -/
theorem foldl_ne_of_ne (hinput : ∀ c, Function.Injective (f c)) (seed : α) (pre post : List β) {x y : β}
    (hxy : x ≠ y) : (pre ++ x :: post).foldl f seed ≠ (pre ++ y :: post).foldl f seed := by
  simp only [List.foldl_append, List.foldl_cons]
  exact fun h => hxy (hinput _ (foldl_injective hstate post h))

end

/-! ### Continuation -/

theorem crc8From_append (seed : Byte) (a b : List Byte) : crc8From seed (a ++ b) = crc8From (crc8From seed a) b :=
  List.foldl_append

theorem crc16From_append (seed : Half) (a b : List Byte) : crc16From seed (a ++ b) = crc16From (crc16From seed a) b :=
  List.foldl_append

/-- Settles O47: a kernel carries only its accumulator from byte to byte. -/
theorem kernelsContinue : Obligations.KernelsContinue :=
  fun a b => ⟨fun seed => crc8From_append seed a b, fun seed => crc16From_append seed a b⟩

/-! ### A byte's round is injective -/

/-- Once the bits shifted out agree, so do the shifts. -/
theorem eq_of_ite_xor_eq {w : Nat} {a b : Bool} {x y p : BitVec w} (hab : a = b)
    (h : (if a then x ^^^ p else x) = if b then y ^^^ p else y) : x = y := by
  subst hab
  split at h
  · exact (BitVec.xor_left_inj p).mp h
  · exact h

/-- The bit shifted out comes back as bit 7, since the polynomial `0x8C` has that bit and the shift has not. -/
theorem crc8Bit_getLsbD_seven (c : Byte) : (crc8Bit c).getLsbD 7 = c.getLsbD 0 := by
  unfold crc8Bit
  split
  next h => simp [h]
  next h => simpa using h

theorem crc8Bit_injective : Function.Injective crc8Bit := by
  intro c d h
  have hzero : c.getLsbD 0 = d.getLsbD 0 := by rw [← crc8Bit_getLsbD_seven, h, crc8Bit_getLsbD_seven]
  have hshift : c >>> 1 = d >>> 1 := eq_of_ite_xor_eq hzero h
  refine BitVec.eq_of_getLsbD_eq fun i _ => ?_
  cases i with
  | zero => exact hzero
  | succ i => simpa [Nat.add_comm] using congrArg (·.getLsbD i) hshift

/-- The bit shifted out comes back as bit 0, since the polynomial `0x1021` has that bit and the shift has not. -/
theorem crc16Bit_getLsbD_zero (c : Half) : (crc16Bit c).getLsbD 0 = c.getLsbD 15 := by
  unfold crc16Bit
  split
  next h => simp [h]
  next h => simpa using h

theorem crc16Bit_injective : Function.Injective crc16Bit := by
  intro c d h
  have htop : c.getLsbD 15 = d.getLsbD 15 := by rw [← crc16Bit_getLsbD_zero, h, crc16Bit_getLsbD_zero]
  have hshift : c <<< 1 = d <<< 1 := eq_of_ite_xor_eq htop h
  refine BitVec.eq_of_getLsbD_eq fun i hi => ?_
  rcases Nat.lt_succ_iff_lt_or_eq.mp hi with hlt | rfl
  · simpa [hi, Nat.succ_lt_succ hlt] using congrArg (·.getLsbD (i + 1)) hshift
  · exact htop

theorem crc8Round_injective : Function.Injective crc8Round := repeat_injective crc8Bit_injective 8

theorem crc16Round_injective : Function.Injective crc16Round := repeat_injective crc16Bit_injective 8

theorem append_zeros_injective : Function.Injective fun b : Byte => (b ++ 0#8 : Half) := fun x y h => by
  simpa using congrArg highByte (show le16 0 x = le16 0 y from h)

/-- Settles O48: each round is injective in the accumulator and in its byte, so the fold sees the change. -/
theorem kernelsSeeSingleByteChanges : Obligations.KernelsSeeSingleByteChanges := by
  intro pre post x y hxy
  constructor
  · refine foldl_ne_of_ne (fun b => ?_) (fun c => ?_) 0xFF pre post hxy
    · exact crc8Round_injective.comp fun _ _ => (BitVec.xor_left_inj b).mp
    · exact crc8Round_injective.comp fun _ _ => (BitVec.xor_right_inj c).mp
  · refine foldl_ne_of_ne (fun b => ?_) (fun c => ?_) 0xFFFF pre post hxy
    · exact crc16Round_injective.comp fun _ _ => (BitVec.xor_left_inj (b ++ 0#8)).mp
    · exact crc16Round_injective.comp fun _ _ h => append_zeros_injective ((BitVec.xor_right_inj c).mp h)

/-! ### CRC8 by table -/

/-- The table of R702 holds the round of each byte. -/
theorem t8_getElem? : ∀ x : Byte, t8[x.toNat]? = some (crc8Round x) := by decide

theorem t8_getD (x : Byte) : t8.getD x.toNat 0 = crc8Round x := by
  rw [List.getD_eq_getElem?_getD, t8_getElem?, Option.getD_some]

theorem crc8From_zero_singleton (x : Byte) : crc8From 0 [x] = crc8Round x := congrArg crc8Round BitVec.zero_xor

/-- Settles O45: the entry at `c ^ b` is the round of `c ^ b`. -/
theorem crc8TableForm : Obligations.Crc8TableForm := by
  constructor
  · intro seed bs
    simp only [crc8ByTable, crc8From, t8_getD]
  · intro x
    rw [crc8From_zero_singleton, t8_getElem?]

/-! ### CRC16 by table -/

/-- The table of R705 holds the round of each byte put above a zero byte. -/
theorem t16_getElem? : ∀ x : Byte, t16[x.toNat]? = some (crc16Round (x ++ 0#8)) := by decide

theorem t16_getD (x : Byte) : t16.getD x.toNat 0 = crc16Round (x ++ 0#8) := by
  rw [List.getD_eq_getElem?_getD, t16_getElem?, Option.getD_some]

theorem crc16From_zero_singleton (x : Byte) : crc16From 0 [x] = crc16Round (x ++ 0#8) :=
  congrArg crc16Round BitVec.zero_xor

/-- A bit step is linear over GF(2): where both bits shifted out are 1, the polynomial cancels. -/
theorem crc16Bit_xor (c d : Half) : crc16Bit (c ^^^ d) = crc16Bit c ^^^ crc16Bit d := by
  unfold crc16Bit
  rw [BitVec.getLsbD_xor, BitVec.shiftLeft_xor_distrib]
  cases c.getLsbD 15 <;> cases d.getLsbD 15
  · rfl
  · exact BitVec.xor_assoc _ _ _
  · show (c <<< 1 ^^^ d <<< 1) ^^^ 0x1021#16 = (c <<< 1 ^^^ 0x1021#16) ^^^ d <<< 1
    ac_rfl
  · calc c <<< 1 ^^^ d <<< 1 = (c <<< 1 ^^^ d <<< 1) ^^^ (0x1021#16 ^^^ 0x1021#16) := BitVec.xor_zero.symm
      _ = (c <<< 1 ^^^ 0x1021#16) ^^^ (d <<< 1 ^^^ 0x1021#16) := by ac_rfl

theorem crc16Round_xor (c d : Half) : crc16Round (c ^^^ d) = crc16Round c ^^^ crc16Round d := repeat_xor crc16Bit_xor 8 c d

/-- As long as only zeros reach bit 15, the bit steps only shift. -/
theorem repeat_crc16Bit_eq_shiftLeft {c : Half} {n : Nat} (h : ∀ i, 16 ≤ i + n → c.getLsbD i = false) :
    Nat.repeat crc16Bit n c = c <<< n := by
  induction n with
  | zero => exact (BitVec.shiftLeft_zero c).symm
  | succ n ih =>
    have htop : (c <<< n).getLsbD 15 = false := by
      rw [BitVec.getLsbD_shiftLeft, h (15 - n) (by omega), Bool.and_false]
    rw [Nat.repeat, ih fun i hi => h i (by omega), crc16Bit, htop, BitVec.shiftLeft_add]
    rfl

/-- A round takes the low byte to the high byte unchanged. -/
theorem crc16Round_zero_append (x : Byte) : crc16Round (0#8 ++ x) = (0#8 ++ x) <<< 8 :=
  repeat_crc16Bit_eq_shiftLeft fun i hi => by
    rw [BitVec.getLsbD_append, if_neg (by omega), BitVec.getLsbD_zero]

/-- The high byte leaves a shift by 8. -/
theorem zero_append_lowByte_shiftLeft (c : Half) : (0#8 ++ lowByte c) <<< 8 = c <<< 8 := by
  conv_rhs => rw [← le16_bytes c, le16]
  refine BitVec.eq_of_getLsbD_eq fun i hi => ?_
  simp only [BitVec.getLsbD_shiftLeft, BitVec.getLsbD_append, show i - 8 < 8 by omega, if_true]

/-- The accumulator with a byte added at its top: the table's index above, the low byte below. -/
theorem xor_append_zeros (c : Half) (b : Byte) :
    c ^^^ (b ++ 0#8) = (0#8 ++ lowByte c) ^^^ ((highByte c ^^^ b) ++ 0#8) := by
  calc c ^^^ (b ++ 0#8) = (highByte c ++ lowByte c) ^^^ (b ++ 0#8) := congrArg (· ^^^ _) (le16_bytes c).symm
    _ = (highByte c ^^^ b) ++ lowByte c := by rw [BitVec.xor_append, BitVec.xor_zero]
    _ = (0#8 ++ lowByte c) ^^^ ((highByte c ^^^ b) ++ 0#8) := by rw [BitVec.xor_append, BitVec.zero_xor, BitVec.xor_zero]

/-- One step of the table form is one round of the bitwise form (R705). -/
theorem shiftLeft_xor_t16 (c : Half) (b : Byte) :
    c <<< 8 ^^^ t16.getD (highByte c ^^^ b).toNat 0 = crc16Round (c ^^^ (b ++ 0#8)) := by
  rw [xor_append_zeros, crc16Round_xor, crc16Round_zero_append, zero_append_lowByte_shiftLeft, t16_getD]

/-- Settles O46: each byte's step of the table form is the round of the bitwise form. -/
theorem crc16TableForm : Obligations.Crc16TableForm := by
  constructor
  · intro seed bs
    simp only [crc16ByTable, crc16From, shiftLeft_xor_t16]
  · intro x
    rw [crc16From_zero_singleton, t16_getElem?]

end Sys2Proof.Machine
end

section
/-! PROOF. The exceptions (60_exceptions.md). What the checks of the wrapper leave of each instruction in a faulted
block, and the two range faults of the host's operands. -/

namespace Sys2Proof.Machine

/-! ### A range fault of an operand -/

/-- Settles O12: the address is checked against `TOTAL` alone, and neither answer loses a bit of its operand. -/
theorem arenaReadAnswersOrFaults : Obligations.ArenaReadAnswersOrFaults := by
  intro s addr hs
  refine ⟨fun hin => ⟨(s.arenaByte addr.toNat).setWidth 32, ?_, BitVec.toNat_setWidth_of_le (by decide)⟩,
    fun hout => ⟨addr.setWidth 32, ?_, BitVec.toNat_setWidth_of_le (by decide)⟩⟩
  · rw [exec_arenaRead_ready hs, if_neg (Nat.not_le.mpr hin)]
    rfl
  · rw [exec_arenaRead_ready hs, if_pos hout, raise_unfaulted hs.unfaulted]
    rfl

/-- Settles O15: the index is checked before the byte is staged. -/
theorem vwriteOutsideViewFaults : Obligations.VwriteOutsideViewFaults := by
  intro s i b hs hout
  refine ⟨i.setWidth 32, ?_, BitVec.toNat_setWidth_of_le (by decide)⟩
  rw [exec_vwrite_ready hs, if_pos hout, raise_unfaulted hs.unfaulted]
  rfl

/-! ### The fault registers -/

section
variable {s : State} {w : Word} {data : List Byte}

theorem exec_faults_valid (hc : s.cfg.valid = true) : exec .faults s = .next (s.respond .ok s.fault) := by
  unfold exec execFaults
  exact onBlock_valid hc _

theorem exec_faultinfo_valid (hc : s.cfg.valid = true) : exec .faultinfo s = .next (s.respond .ok s.faultInfo) := by
  unfold exec execFaultinfo
  exact onBlock_valid hc _

/-- An instruction is decoded from no word but the one the encoder writes for it (R310, R313). -/
theorem word_of_decode {v : Word} {data' : List Byte} {i : Instr} (hi : encode i = .host v data')
    (h : decode (.host w data) = .ok i) : w = v := by
  obtain ⟨-, hcode⟩ := legalWordsEncodeBack w data i h
  rw [hi] at hcode
  exact (Code.host.inj hcode).1.symm

/-- FAULTS is its one word, whatever data bytes stand beside it. -/
theorem decode_eq_faults_iff : decode (.host w data) = .ok .faults ↔ w = 0xC0000000 :=
  ⟨word_of_decode rfl, fun h => h ▸ rfl⟩

/-- FAULTINFO is its one word, whatever data bytes stand beside it. -/
theorem decode_eq_faultinfo_iff : decode (.host w data) = .ok .faultinfo ↔ w = 0xD0000000 :=
  ⟨word_of_decode rfl, fun h => h ▸ rfl⟩

/-! ### A faulted block -/

theorem query_faulted (hc : s.cfg.valid = true) (hf : s.fault ≠ 0) (v : State → Word) :
    query s v = .next (s.respond .faulted 0) :=
  command_faulted hc hf _

/-- The engine does not run in a faulted block, whatever the pass (R809). -/
theorem engine_faulted (hc : s.cfg.valid = true) (hf : s.fault ≠ 0) (pass : State → Pass) :
    engine s pass = .next s := by
  rw [engine, onBlock_valid hc, if_pos ((isFaulted_eq s).mpr hf)]

/-- Every host command but the two that read the fault registers stands behind the wrapper's check (R317, R809). -/
theorem exec_faulted (hc : s.cfg.valid = true) (hf : s.fault ≠ 0) {i : Instr} (hi : encode i = .host w data)
    (hfaults : i ≠ .faults) (hfaultinfo : i ≠ .faultinfo) : exec i s = .next (s.respond .faulted 0) := by
  cases i with
  | push | vwrite | advance | clear | arenaRead =>
    unfold exec
    exact command_faulted hc hf _
  | wview | avail | space | full | empty | lookup =>
    unfold exec
    exact query_faulted hc hf _
  | faults => exact absurd rfl hfaults
  | faultinfo => exact absurd rfl hfaultinfo
  | frame | junk => cases hi

/-- A command word that reads no fault register is answered `(FAULTED, 0)`, legal or illegal (R809). -/
theorem runEvent_faulted (hc : s.cfg.valid = true) (hf : s.fault ≠ 0) (hfaults : w ≠ 0xC0000000)
    (hfaultinfo : w ≠ 0xD0000000) : runEvent (.command w data) s = .next (s.respond .faulted 0) := by
  rw [runEvent]
  cases hd : decode (.host w data) with
  | error e => exact command_faulted hc hf _
  | ok i =>
    obtain ⟨_, _, hi, -⟩ := decodeHost_opcode hd
    refine exec_faulted hc hf hi ?_ ?_
    · rintro rfl
      exact hfaults (decode_eq_faults_iff.mp hd)
    · rintro rfl
      exact hfaultinfo (decode_eq_faultinfo_iff.mp hd)

end

/-- Settles O13: both stand outside the wrapper that turns a faulted block's commands away. -/
theorem faultRegistersAnswer : Obligations.FaultRegistersAnswer := fun _ hc =>
  ⟨exec_faults_valid hc, exec_faultinfo_valid hc⟩

/-- Settles O51, by what the word decodes to: FAULTS, FAULTINFO, or anything else. -/
theorem faultedBlockIsQuiescent : Obligations.FaultedBlockIsQuiescent := by
  intro s w data rest hc hf hp
  rw [step_takes hc hp]
  refine ⟨fun hw => ?_, fun hw => ?_, runEvent_faulted hc hf⟩
  · rw [runEvent, decode_eq_faults_iff.mpr hw]
    exact exec_faults_valid hc
  · rw [runEvent, decode_eq_faultinfo_iff.mpr hw]
    exact exec_faultinfo_valid hc

/-- Settles O52: both wire units are passes of the engine. -/
theorem faultedEngineIsIdle : Obligations.FaultedEngineIsIdle := by
  intro s cmd len seq crc b hc hf
  unfold exec
  exact ⟨engine_faulted hc hf _, engine_faulted hc hf _⟩

end Sys2Proof.Machine
end

section
/-! PROOF. Reset and the configuration (70_reset_and_hazards.md). What stands behind the checks of R905, and what the
reset state holds: the block with both indices 0, from which the reset event and the base of the invariant follow. -/

namespace Sys2Proof.Machine

/-! ### A configuration that is no block -/

theorem onBlock_invalid {s : State} (h : s.cfg.valid = false) (f : State → Result) :
    onBlock s f = .refused .badConfiguration := by
  simp [onBlock, h]

theorem command_invalid {s : State} (h : s.cfg.valid = false) (f : State → Result) :
    command s f = .refused .badConfiguration :=
  onBlock_invalid h _

theorem query_invalid {s : State} (h : s.cfg.valid = false) (v : State → Word) :
    query s v = .refused .badConfiguration :=
  command_invalid h _

theorem engine_invalid {s : State} (h : s.cfg.valid = false) (pass : State → Pass) :
    engine s pass = .refused .badConfiguration :=
  onBlock_invalid h _

/-- Every instruction stands behind the configuration checks: those that read the fault registers directly, the other
commands behind their wrapper, the wire units behind the engine's (R905). -/
theorem exec_invalid {s : State} (h : s.cfg.valid = false) (i : Instr) : exec i s = .refused .badConfiguration := by
  cases i with
  | faults | faultinfo =>
    unfold exec
    exact onBlock_invalid h _
  | push | vwrite | advance | clear | arenaRead =>
    unfold exec
    exact command_invalid h _
  | wview | avail | space | full | empty | lookup =>
    unfold exec
    exact query_invalid h _
  | frame | junk =>
    unfold exec
    exact engine_invalid h _

/-- Settles O8: an instruction and a step both begin with the configuration checks. -/
theorem badConfigurationRefused : Obligations.BadConfigurationRefused := fun _ i hc =>
  ⟨exec_invalid hc i, onBlock_invalid hc takeEvent⟩

/-! ### The ring with both indices 0 -/

section
variable {s : State}

theorem avail_of_indices_zero (hr : s.rd = 0) (hw : s.wr = 0) : s.avail = 0 := by simp [State.avail, hr, hw]

theorem space_of_indices_zero (hr : s.rd = 0) (hw : s.wr = 0) : s.space = s.ringSize - 1 := by
  rw [State.space, avail_of_indices_zero hr hw, Nat.sub_zero]

/-- Every free cell is in the writable view: the spare cell is the last one, so the view does not wrap (R406). -/
theorem wviewLen_of_indices_zero (hr : s.rd = 0) (hw : s.wr = 0) : s.wviewLen = s.ringSize - 1 := by
  simp [State.wviewLen, hr, hw]

theorem rview_of_indices_zero (hr : s.rd = 0) (hw : s.wr = 0) : s.rview = 0 := by simp [State.rview, hr, hw]

theorem isEmpty_of_indices_zero (hr : s.rd = 0) (hw : s.wr = 0) : s.isEmpty = true :=
  beq_iff_eq.mpr (avail_of_indices_zero hr hw)

/-- An admitted ring has at least two cells, so an empty one has space (R905). -/
theorem isFull_of_indices_zero (hc : s.cfg.valid = true) (hr : s.rd = 0) (hw : s.wr = 0) : s.isFull = false := by
  have hN : 2 ≤ s.ringSize := (ringSize_bounds hc).1
  have hspace := space_of_indices_zero hr hw
  exact beq_eq_false_iff_ne.mpr (by omega)

/-- A block with nothing committed stands at a residue (R611 (c)). -/
theorem settled_of_indices_zero (hr : s.rd = 0) (hw : s.wr = 0) : s.settled = true :=
  settled_iff.mpr (.inl (by rw [avail_of_indices_zero hr hw]; exact Nat.zero_lt_succ _))

end

/-! ### Reset -/

/-- Settles O53: the step is `resetBlock` on what is left of the port. -/
theorem resetEventRestores : Obligations.ResetEventRestores := by
  intro s rest hc hp
  exact ⟨State.resetBlock { s with port := rest }, step_takes hc hp, rfl, rfl, rfl, rfl, rfl, rfl, rfl,
    fun _ => rfl, fun _ => rfl, avail_of_indices_zero rfl rfl, space_of_indices_zero rfl rfl,
    wviewLen_of_indices_zero rfl rfl, rview_of_indices_zero rfl rfl, isEmpty_of_indices_zero rfl rfl,
    isFull_of_indices_zero hc rfl rfl⟩

/-- Both memories are empty lists, and index 0 is in range because an admitted ring has cells (R901, R905). -/
theorem resetOf_inv {c : Config} (hc : c.valid = true) : (State.resetOf c).Inv where
  cfg_valid := hc
  rd_lt := Nat.zero_lt_of_lt (ringSize_bounds hc).1
  wr_lt := Nat.zero_lt_of_lt (ringSize_bounds hc).1
  ring_wf := rfl
  ring_below := rfl
  arena_wf := rfl
  arena_below := rfl
  fault_legal := .inl rfl
  info_zero _ := rfl
  statuses := List.forall_mem_nil _

theorem exampleConfig_valid : exampleConfig.valid = true := by decide

/-- Settles O55: the base of StepKeepsInvariant and of StepKeepsSettled. -/
theorem resetSatisfiesInvariant : Obligations.ResetSatisfiesInvariant :=
  ⟨fun _ hc => ⟨resetOf_inv hc, fun _ => settled_of_indices_zero rfl rfl⟩, rfl, exampleConfig_valid⟩

end Sys2Proof.Machine
end
